-- ==== Sys2Proof/Word.lean ====
section
/-! DEFINITION. The words of the machine: bytes, 64-bit words and the widths of its registers. -/

namespace Sys2Proof

/-- One byte of an instruction or of memory (R33). -/
abbrev Byte := BitVec 8

/-- A general register, a control register or an address in 64-bit mode (R24, R25, R57). -/
abbrev Word64 := BitVec 64

/-- One x87 data register, whose bits 63:0 are an MMX register (R28). -/
abbrev X87Word := BitVec 80

/-- One vector register at the reference width `MAXVL = 512` (R7, R22). -/
abbrev VecWord := BitVec 512

/-- One opmask register at the reference width `MAX_KL = 64` (R8, R23). D1 leaves `MAX_KL` open upward: of a wider register
only bits 63:0 are held, DESIGN CHOICE, safe, notes/assumptions/20.md. -/
abbrev MaskWord := BitVec 64

end Sys2Proof
end

