-- ==== Sys2Proof/Machine/Compare.lean ====
section
/-! DEFINITION. The lane-wise equality functions every form is made of (R110 to R116), and the broadcast of one doubleword
(R55, R150). -/

namespace Sys2Proof.Machine

/-- Lane `j` of a value, `a[w*j + w - 1 : w*j]` (R110). -/
def lane (w : Nat) {L : Nat} (a : BitVec L) (j : Nat) : BitVec w := a.extractLsb' (w * j) w

/-- Do the two values agree in lane `j`: plain equality of bits, with no signedness (R111, R113)? -/
def laneEq (w : Nat) {L : Nat} (a b : BitVec L) (j : Nat) : Bool := lane w a j == lane w b j

/-- `EqLanes(w, L/w, a, b)` (R111): each of the `L/w` lanes is all ones where the lanes are equal, all zeros otherwise. -/
def eqLanes (w : Nat) {L : Nat} (a b : BitVec L) : BitVec L :=
  BitVec.ofFnLE fun i : Fin L => decide (i.val / w < L / w) && laneEq w a b (i.val / w)

/-- `EqMask(w, L/w, a, b)` (R112): bit `j` is 1 where lane `j` of the two values is equal. -/
def eqMask (w : Nat) {L : Nat} (a b : BitVec L) : BitVec (L / w) :=
  BitVec.ofFnLE fun j : Fin (L / w) => laneEq w a b j.val

/-- Every doubleword lane of the result is `t` (R150 step 3). -/
def broadcast32 (L : Nat) (t : BitVec 32) : BitVec L :=
  BitVec.ofFnLE fun i : Fin L => t.getLsbD (i.val % 32)

end Sys2Proof.Machine
end

