-- ==== Sys2Proof/Config.lean ====
section
/-! DEFINITION. The implementation parameters of the spec (R7 to R10, R31, R57): what a processor fixes and no
instruction changes. They are held in State, so that a statement about every state is one about every configuration
(notes/assumptions/4.md). -/

namespace Sys2Proof

/-- The operating mode (R10, R32). `mode64` and `mode32` are the two the spec admits; in the other four the model takes no
step (D3, U20). -/
inductive Mode where
  /-- 64-bit mode. -/
  | mode64
  /-- Protected or compatibility mode with 32-bit default operand and address size. -/
  | mode32
  /-- Real-address mode: not admitted. -/
  | realAddress
  /-- Virtual-8086 mode: not admitted. -/
  | virtual8086
  /-- Protected mode with a 16-bit code segment: not admitted. -/
  | protected16
  /-- System-management mode: not admitted. -/
  | systemManagement
  deriving DecidableEq, Repr

/-- Is it 64-bit mode? Every rule that distinguishes the two admitted modes asks this (R10). -/
def Mode.is64 : Mode → Bool
  | .mode64 => true
  | _ => false

/-- The modes in which a step is taken at all (R10, D3). -/
def Mode.admitted : Mode → Bool
  | .mode64 => true
  | .mode32 => true
  | _ => false

/-- The CPUID feature flags the opcode table names (R9, R31). -/
structure Features where
  mmx : Bool
  sse2 : Bool
  avx : Bool
  avx2 : Bool
  avx512f : Bool
  avx512vl : Bool
  avx512bw : Bool
  deriving DecidableEq, Repr

/-- The values `MAXVL` may take (R7, D1). -/
inductive MaxVl where
  | vl128
  | vl256
  | vl512
  deriving DecidableEq, Repr

/-- `MAXVL` as a number of bits (R7). -/
def MaxVl.bits : MaxVl → Nat
  | .vl128 => 128
  | .vl256 => 256
  | .vl512 => 512

/-- What a processor fixes: its extensions, its register widths, and the width of a linear address in 64-bit mode. -/
structure Config where
  /-- The extensions CPUID reports (R9). -/
  features : Features
  /-- `MAXVL`, the width of a vector register (R7). -/
  maxVl : MaxVl
  /-- `MAX_KL`, the width of an opmask register (R8). Any value above 64 means what 64 does: no form reads or sets a bit above
  63, and State holds none (DESIGN CHOICE, safe, notes/assumptions/20.md). -/
  maxKl : Nat
  /-- How many low bits of a linear address count in 64-bit mode: 48 on a processor with 48-bit linear addresses (R57). -/
  linearBits : Nat
  deriving DecidableEq, Repr

/-- The spec's reference configuration (D1, D2): every row of the opcode table exists. PRESUMED: 48-bit linear addresses
(notes/assumptions/10.md); unsafe for a processor with wider ones. -/
def Config.reference : Config where
  features := ⟨true, true, true, true, true, true, true⟩
  maxVl := .vl512
  maxKl := 64
  linearBits := 48

end Sys2Proof
end

