-- ==== Sys2Proof/Syntax.lean ====
section
/-! DEFINITION. Instructions: one constructor per row of spec/opcode_table.json (R5, R96), and the parts of an encoding
they are made of (R72, R74 to R80). A part holds every bit of the encoding that the row does not fix, as the LOGICAL value
(a field that R78 and R80 store inverted stands here un-inverted), so that an instruction and its bytes determine each
other. -/

namespace Sys2Proof

/-- The segment registers (R29, R77). -/
inductive Seg where
  | es
  | cs
  | ss
  | ds
  | fs
  | gs
  deriving DecidableEq, Repr

/-- The bytes the model admits before a form (R77): a segment override, 67 and 66. -/
inductive LegacyByte where
  /-- A segment override. -/
  | seg (g : Seg)
  /-- 67, the address-size override (R75). -/
  | addressSize
  /-- 66, which selects the XMM form of a legacy encoding (R76). -/
  | operandSize
  deriving DecidableEq, Repr

/-- A REX byte, `0100WRXB` (R76). -/
structure Rex where
  w : Bool
  r : Bool
  x : Bool
  b : Bool
  deriving DecidableEq, Repr

/-- The displacement after ModR/M and SIB, by `mod`: none (00), 8 bits (01), 32 bits (10) (R75). -/
inductive Disp where
  | none
  | disp8 (d : BitVec 8)
  | disp32 (d : BitVec 32)
  deriving DecidableEq, Repr

/-- The memory operands of ModR/M with `mod ≠ 11b` (R75), by the 3-bit fields as they are encoded. -/
inductive MemField where
  /-- No SIB byte: base register `rm` and a displacement. -/
  | base (rm : BitVec 3) (d : Disp)
  /-- `mod = 00b`, `r/m = 101b`: RIP-relative in 64-bit mode, a plain displacement otherwise. -/
  | relative (d : BitVec 32)
  /-- A SIB byte with a base register. -/
  | sib (scale : BitVec 2) (index : BitVec 3) (base : BitVec 3) (d : Disp)
  /-- A SIB byte with `sbase = 101b` and `mod = 00b`: no base register. -/
  | sibNoBase (scale : BitVec 2) (index : BitVec 3) (d : BitVec 32)
  deriving DecidableEq, Repr

/-- The `ModRM:r/m` operand: a register (`mod = 11b`) or memory (R50, R74). -/
inductive RmField where
  | reg (r : BitVec 3)
  | mem (m : MemField)
  deriving DecidableEq, Repr

/-- What stands before `0F op` in a legacy form (R76, R77): the admitted bytes in their order, then an optional REX. -/
structure LegacyEnc where
  pre : List LegacyByte
  rex : Option Rex
  deriving DecidableEq, Repr

/-- A VEX prefix less the fields its row fixes (R78). -/
inductive VexPayload where
  /-- `C5 P`. -/
  | two (r : Bool) (vvvv : BitVec 4)
  /-- `C4 P0 P1`. -/
  | three (r x b w : Bool) (vvvv : BitVec 4)
  deriving DecidableEq, Repr

/-- The bytes before a VEX prefix (R78) and the prefix. -/
structure VexEnc where
  pre : List LegacyByte
  vex : VexPayload
  deriving DecidableEq, Repr

/-- The bytes before an EVEX prefix and the prefix, less the fields its row fixes (R80) and `R`, `R'`, `z`, which must be 0
(R87, R88). -/
structure EvexEnc where
  pre : List LegacyByte
  x : Bool
  b : Bool
  /-- `V'`. -/
  v' : Bool
  w : Bool
  vvvv : BitVec 4
  /-- `EVEX.b`, the broadcast bit (R85). -/
  bcst : Bool
  aaa : BitVec 3
  deriving DecidableEq, Repr

/-- The 21 instruction forms, in the order of the opcode table (R5). `reg` is ModRM.reg and `rm` the ModRM.r/m operand
(R93). -/
inductive Instr where
  | pcmpeqbMm (e : LegacyEnc) (reg : BitVec 3) (rm : RmField)
  | pcmpeqbXmm (e : LegacyEnc) (reg : BitVec 3) (rm : RmField)
  | pcmpeqwMm (e : LegacyEnc) (reg : BitVec 3) (rm : RmField)
  | pcmpeqwXmm (e : LegacyEnc) (reg : BitVec 3) (rm : RmField)
  | pcmpeqdMm (e : LegacyEnc) (reg : BitVec 3) (rm : RmField)
  | pcmpeqdXmm (e : LegacyEnc) (reg : BitVec 3) (rm : RmField)
  | vpcmpeqbXmm (e : VexEnc) (reg : BitVec 3) (rm : RmField)
  | vpcmpeqwXmm (e : VexEnc) (reg : BitVec 3) (rm : RmField)
  | vpcmpeqdXmm (e : VexEnc) (reg : BitVec 3) (rm : RmField)
  | vpcmpeqbYmm (e : VexEnc) (reg : BitVec 3) (rm : RmField)
  | vpcmpeqwYmm (e : VexEnc) (reg : BitVec 3) (rm : RmField)
  | vpcmpeqdYmm (e : VexEnc) (reg : BitVec 3) (rm : RmField)
  | vpcmpeqdK128 (e : EvexEnc) (reg : BitVec 3) (rm : RmField)
  | vpcmpeqdK256 (e : EvexEnc) (reg : BitVec 3) (rm : RmField)
  | vpcmpeqdK512 (e : EvexEnc) (reg : BitVec 3) (rm : RmField)
  | vpcmpeqbK128 (e : EvexEnc) (reg : BitVec 3) (rm : RmField)
  | vpcmpeqbK256 (e : EvexEnc) (reg : BitVec 3) (rm : RmField)
  | vpcmpeqbK512 (e : EvexEnc) (reg : BitVec 3) (rm : RmField)
  | vpcmpeqwK128 (e : EvexEnc) (reg : BitVec 3) (rm : RmField)
  | vpcmpeqwK256 (e : EvexEnc) (reg : BitVec 3) (rm : RmField)
  | vpcmpeqwK512 (e : EvexEnc) (reg : BitVec 3) (rm : RmField)
  deriving DecidableEq, Repr

/-- Is the `ModRM:r/m` operand memory (`mod ≠ 11b`, R50)? -/
def RmField.isMem : RmField → Bool
  | .reg _ => false
  | .mem _ => true

/-- Is 67 among the bytes before the form (R75, R77)? -/
def hasAddressSize (pre : List LegacyByte) : Bool := pre.contains .addressSize

/-- Is 66 among the bytes before the form (R76)? -/
def hasOperandSize (pre : List LegacyByte) : Bool := pre.contains .operandSize

/-- The segment override among the bytes before the form (R77). -/
def segOverride : List LegacyByte → Option Seg
  | [] => none
  | .seg g :: _ => some g
  | _ :: rest => segOverride rest

end Sys2Proof
end

