-- ==== Sys2Proof/WellFormed.lean ====
section
/-! DEFINITION. Which instructions an encoding can stand for, in a mode: the checks of R75 to R91 on an instruction as
data. The decoder answers only instructions that pass, and the encoder is inverse to it on them. -/

namespace Sys2Proof

/-- Is it a segment override? -/
def LegacyByte.isSeg : LegacyByte → Bool
  | .seg _ => true
  | _ => false

/-- At most one segment override, at most one 67, at most one 66 (R77). -/
def preOk (pre : List LegacyByte) : Bool :=
  decide (pre.countP LegacyByte.isSeg ≤ 1) && decide (pre.count .addressSize ≤ 1) &&
    decide (pre.count .operandSize ≤ 1)

/-- The combinations of ModRM.r/m, SIB base and displacement that the tests of R75 leave to each constructor. -/
def MemField.ok : MemField → Bool
  | .base rm d => rm != 4#3 && !(rm == 5#3 && d == .none)
  | .relative _ => true
  | .sib _ _ b d => !(b == 5#3 && d == .none)
  | .sibNoBase _ _ _ => true

/-- As `MemField.ok`; a register operand can be any. -/
def RmField.ok : RmField → Bool
  | .reg _ => true
  | .mem m => m.ok

/-- 16-bit address size (67 before a memory operand in Mode32) is not an admitted encoding (R75, D6). -/
def addressSizeOk (m : Mode) (pre : List LegacyByte) (rm : RmField) : Bool :=
  m.is64 || !(hasAddressSize pre && rm.isMem)

/-- The checks every form shares (R75, R77). -/
def commonOk (m : Mode) (pre : List LegacyByte) (rm : RmField) : Bool :=
  preOk pre && rm.ok && addressSizeOk m pre rm

/-- A legacy form: 66 present exactly for the XMM forms, and REX only in 64-bit mode (R76). -/
def LegacyEnc.ok (m : Mode) (xmm : Bool) (e : LegacyEnc) (rm : RmField) : Bool :=
  commonOk m e.pre rm && (hasOperandSize e.pre == xmm) && (m.is64 || e.rex.isNone)

/-- In Mode32 every extension bit of a VEX prefix is 0 (R91). -/
def VexPayload.ok (m : Mode) : VexPayload → Bool
  | .two r vvvv => m.is64 || (!r && !vvvv.getLsbD 3)
  | .three r x b _ vvvv => m.is64 || (!r && !x && !b && !vvvv.getLsbD 3)

/-- A VEX form: no 66 before the prefix (R79). -/
def VexEnc.ok (m : Mode) (e : VexEnc) (rm : RmField) : Bool :=
  commonOk m e.pre rm && !hasOperandSize e.pre && e.vex.ok m

/-- In Mode32 every extension bit of an EVEX prefix is 0 (R91). -/
def EvexEnc.extOk (m : Mode) (e : EvexEnc) : Bool :=
  m.is64 || (!e.x && !e.b && !e.v' && !e.vvvv.getLsbD 3)

/-- An EVEX form: no 66 before the prefix (R81); broadcast only of memory, and only in VPCMPEQD, whose `W` is 0
(R83, R85, R89). -/
def EvexEnc.ok (m : Mode) (dword : Bool) (e : EvexEnc) (rm : RmField) : Bool :=
  commonOk m e.pre rm && !hasOperandSize e.pre && e.extOk m && (!e.bcst || (dword && rm.isMem)) && !(dword && e.w)

/-- The instructions that have an encoding in the mode. -/
def Instr.ok (m : Mode) : Instr → Bool
  | .pcmpeqbMm e _ rm => e.ok m false rm
  | .pcmpeqbXmm e _ rm => e.ok m true rm
  | .pcmpeqwMm e _ rm => e.ok m false rm
  | .pcmpeqwXmm e _ rm => e.ok m true rm
  | .pcmpeqdMm e _ rm => e.ok m false rm
  | .pcmpeqdXmm e _ rm => e.ok m true rm
  | .vpcmpeqbXmm e _ rm => e.ok m rm
  | .vpcmpeqwXmm e _ rm => e.ok m rm
  | .vpcmpeqdXmm e _ rm => e.ok m rm
  | .vpcmpeqbYmm e _ rm => e.ok m rm
  | .vpcmpeqwYmm e _ rm => e.ok m rm
  | .vpcmpeqdYmm e _ rm => e.ok m rm
  | .vpcmpeqdK128 e _ rm => e.ok m true rm
  | .vpcmpeqdK256 e _ rm => e.ok m true rm
  | .vpcmpeqdK512 e _ rm => e.ok m true rm
  | .vpcmpeqbK128 e _ rm => e.ok m false rm
  | .vpcmpeqbK256 e _ rm => e.ok m false rm
  | .vpcmpeqbK512 e _ rm => e.ok m false rm
  | .vpcmpeqwK128 e _ rm => e.ok m false rm
  | .vpcmpeqwK256 e _ rm => e.ok m false rm
  | .vpcmpeqwK512 e _ rm => e.ok m false rm

end Sys2Proof
end

