-- ==== Sys2Proof/Decode.lean ====
section
/-! DEFINITION. The decoder (R70 to R93), total on byte strings, and after it the encoder, written from the same layouts.
The decoder's answers are those of R92; a byte string that ends before its instruction does has an answer of its own
(notes/assumptions/16.md). Which answer wins where an encoding has causes for two: notes/assumptions/14.md. -/

namespace Sys2Proof

/-! ### Bits of a byte -/

/-- The `n` bits of a byte from bit `lo` up (R13). -/
def bitsAt (lo n : Nat) (b : Byte) : BitVec n := b.extractLsb' lo n

/-- One bit as a 1-bit value. -/
def bit1 (b : Bool) : BitVec 1 := BitVec.ofBool b

/-- One bit stored inverted (R78, R80). -/
def inv1 (b : Bool) : BitVec 1 := BitVec.ofBool (!b)

/-! ### Opcodes (R70) -/

/-- The element width the last opcode byte fixes (R70). -/
inductive Elem where
  | byte
  | word
  | dword
  deriving DecidableEq, Repr

/-- The last opcode byte: 74, 75 or 76 (R70). -/
def elemOf (op : Byte) : Option Elem :=
  if op = 0x74#8 then some .byte
  else if op = 0x75#8 then some .word
  else if op = 0x76#8 then some .dword
  else none

/-- The opcode byte of an element width (R70). -/
def Elem.opcode : Elem → Byte
  | .byte => 0x74#8
  | .word => 0x75#8
  | .dword => 0x76#8

/-! ### The bytes before an opcode (R76, R77, R79, R81) -/

/-- A byte before `0F`, C4, C5 or 62, admitted or not. -/
inductive LeadByte where
  /-- F0, LOCK. -/
  | lock
  /-- F2. -/
  | repne
  /-- F3. -/
  | rep
  /-- A byte that R77 admits. -/
  | plain (p : LegacyByte)
  /-- 40 to 4F in 64-bit mode (R76). -/
  | rex (r : Rex)
  deriving DecidableEq, Repr

/-- The REX byte `0100WRXB` (R76). -/
def rexOf (b : Byte) : Option Rex :=
  if bitsAt 4 4 b = 4#4 then
    some ⟨b.getLsbD 3, b.getLsbD 2, b.getLsbD 1, b.getLsbD 0⟩
  else none

/-- Read one byte as a byte before the opcode (R76, R77). In Mode32 the bytes 40 to 4F are other instructions. -/
def leadByteOf (m : Mode) (b : Byte) : Option LeadByte :=
  if b = 0xF0#8 then some .lock
  else if b = 0xF2#8 then some .repne
  else if b = 0xF3#8 then some .rep
  else if b = 0x26#8 then some (.plain (.seg .es))
  else if b = 0x2E#8 then some (.plain (.seg .cs))
  else if b = 0x36#8 then some (.plain (.seg .ss))
  else if b = 0x3E#8 then some (.plain (.seg .ds))
  else if b = 0x64#8 then some (.plain (.seg .fs))
  else if b = 0x65#8 then some (.plain (.seg .gs))
  else if b = 0x67#8 then some (.plain .addressSize)
  else if b = 0x66#8 then some (.plain .operandSize)
  else if m.is64 then (rexOf b).map LeadByte.rex
  else none

/-- Split a byte string into the bytes before the opcode and the rest (R90: left to right). -/
def splitLead (m : Mode) : List Byte → List LeadByte × List Byte
  | [] => ([], [])
  | b :: bs =>
    match leadByteOf m b with
    | some p => (p :: (splitLead m bs).1, (splitLead m bs).2)
    | none => ([], b :: bs)

/-- LOCK, F2 and F3 fault before any form (R89 cases 1 to 3). -/
def LeadByte.faultsLegacy : LeadByte → Bool
  | .lock => true
  | .repne => true
  | .rep => true
  | .plain _ => false
  | .rex _ => false

/-- LOCK, 66, F2, F3 and REX fault before a VEX or EVEX prefix (R79, R81, R89 case 3). -/
def LeadByte.faultsVex : LeadByte → Bool
  | .lock => true
  | .repne => true
  | .rep => true
  | .plain p => p == .operandSize
  | .rex _ => true

/-- The admitted bytes in their order and the REX that stands last; none where a byte is not admitted or a REX is not
immediately before `0F` (R77). -/
def admitLead : List LeadByte → Option (List LegacyByte × Option Rex)
  | [] => some ([], none)
  | .plain p :: rest => (admitLead rest).map fun r => (p :: r.1, r.2)
  | .rex r :: rest => if rest.isEmpty then some ([], some r) else none
  | .lock :: _ => none
  | .repne :: _ => none
  | .rep :: _ => none

/-! ### ModR/M, SIB and displacement (R74, R75) -/

/-- A 32-bit displacement, little-endian (R75, R53). -/
def takeDisp32 : List Byte → Option (BitVec 32 × List Byte)
  | b0 :: b1 :: b2 :: b3 :: rest => some (b3 ++ b2 ++ b1 ++ b0, rest)
  | _ => none

/-- The displacement that `mod` calls for (R75). -/
def takeDisp (mod : BitVec 2) (bs : List Byte) : Option (Disp × List Byte) :=
  if mod = 0#2 then some (.none, bs)
  else if mod = 1#2 then
    match bs with
    | b :: rest => some (.disp8 b, rest)
    | [] => none
  else (takeDisp32 bs).map fun r => (.disp32 r.1, r.2)

/-- The operand after a SIB byte (R75). -/
def takeSib (mod : BitVec 2) (sib : Byte) (bs : List Byte) : Option (MemField × List Byte) :=
  if mod = 0#2 ∧ bitsAt 0 3 sib = 5#3 then
    (takeDisp32 bs).map fun r => (.sibNoBase (bitsAt 6 2 sib) (bitsAt 3 3 sib) r.1, r.2)
  else
    (takeDisp mod bs).map fun r => (.sib (bitsAt 6 2 sib) (bitsAt 3 3 sib) (bitsAt 0 3 sib) r.1, r.2)

/-- The `r/m` operand of a ModR/M byte and what is left after it; none where the bytes end too soon (R74, R75). -/
def takeRm (modrm : Byte) (bs : List Byte) : Option (RmField × List Byte) :=
  if bitsAt 6 2 modrm = 3#2 then some (.reg (bitsAt 0 3 modrm), bs)
  else if bitsAt 0 3 modrm = 4#3 then
    match bs with
    | sib :: rest => (takeSib (bitsAt 6 2 modrm) sib rest).map fun r => (.mem r.1, r.2)
    | [] => none
  else if bitsAt 6 2 modrm = 0#2 ∧ bitsAt 0 3 modrm = 5#3 then
    (takeDisp32 bs).map fun r => (.mem (.relative r.1), r.2)
  else
    (takeDisp (bitsAt 6 2 modrm) bs).map fun r => (.mem (.base (bitsAt 0 3 modrm) r.1), r.2)

/-! ### The decoder's answers (R92) -/

/-- Why an encoding of the family is refused (R92: the cases R75, R77 and R91 refuse). -/
inductive DecodeRefusal where
  /-- A repeated or conflicting prefix, or a REX that is not immediately before `0F` (R77). -/
  | leadBytes
  /-- 67 before a memory operand in Mode32: 16-bit address size (R75). -/
  | addressSize16
  /-- A VEX or EVEX extension bit that is 1 in Mode32 (R91). -/
  | extensionBits
  deriving DecidableEq, Repr

/-- The answers of the decoder (R92). -/
inductive DecodeResult where
  /-- An admitted encoding; its length is `Instr.length`. -/
  | form (i : Instr)
  /-- `Fault(#UD)`: one of the ten cases of R89. -/
  | invalidOpcode
  /-- `Refused(reason)`. -/
  | refused (r : DecodeRefusal)
  /-- `NotThisFamily`: the spec says nothing about these bytes. -/
  | notThisFamily
  /-- The bytes end before the instruction does. -/
  | truncated
  deriving DecidableEq, Repr

/-- The checks that every form ends with (R75, R77): the admitted bytes repeat nothing, and the address size is one the
model has. -/
def finish (m : Mode) (pre : List LegacyByte) (rm : RmField) (i : Instr) : DecodeResult :=
  if !preOk pre then .refused .leadBytes
  else if !addressSizeOk m pre rm then .refused .addressSize16
  else .form i

/-! ### Legacy forms (R76, R77) -/

/-- The six legacy rows, selected by the opcode and the presence of 66 (R76). -/
def legacyInstr (el : Elem) (e : LegacyEnc) (reg : BitVec 3) (rm : RmField) : Instr :=
  match el, hasOperandSize e.pre with
  | .byte, false => .pcmpeqbMm e reg rm
  | .byte, true => .pcmpeqbXmm e reg rm
  | .word, false => .pcmpeqwMm e reg rm
  | .word, true => .pcmpeqwXmm e reg rm
  | .dword, false => .pcmpeqdMm e reg rm
  | .dword, true => .pcmpeqdXmm e reg rm

/-- After `0F` (R76, R77, R89 cases 1 and 2). -/
def decodeLegacy (m : Mode) (lead : List LeadByte) : List Byte → DecodeResult
  | [] => .truncated
  | op :: afterOp =>
    match elemOf op with
    | none => .notThisFamily
    | some el =>
      match afterOp with
      | [] => .truncated
      | modrm :: rest =>
        match takeRm modrm rest with
        | none => .truncated
        | some (rm, _) =>
          if lead.any LeadByte.faultsLegacy then .invalidOpcode
          else
            match admitLead lead with
            | none => .refused .leadBytes
            | some (pre, rex) => finish m pre rm (legacyInstr el ⟨pre, rex⟩ (bitsAt 3 3 modrm) rm)

/-! ### VEX forms (R78, R79, R91) -/

/-- The six VEX rows, selected by the opcode and `L` (R78, R82). -/
def vexInstr (el : Elem) (l : Bool) (e : VexEnc) (reg : BitVec 3) (rm : RmField) : Instr :=
  match el, l with
  | .byte, false => .vpcmpeqbXmm e reg rm
  | .word, false => .vpcmpeqwXmm e reg rm
  | .dword, false => .vpcmpeqdXmm e reg rm
  | .byte, true => .vpcmpeqbYmm e reg rm
  | .word, true => .vpcmpeqwYmm e reg rm
  | .dword, true => .vpcmpeqdYmm e reg rm

/-- After a VEX prefix: `l` is its `L` and `family` says that it names the map 0F and the implied prefix 66 (R78). -/
def decodeVexBody (m : Mode) (lead : List LeadByte) (vex : VexPayload) (l family : Bool) : List Byte → DecodeResult
  | [] => .truncated
  | op :: afterOp =>
    match family, elemOf op with
    | false, _ => .notThisFamily
    | true, none => .notThisFamily
    | true, some el =>
      match afterOp with
      | [] => .truncated
      | modrm :: rest =>
        match takeRm modrm rest with
        | none => .truncated
        | some (rm, _) =>
          if !vex.ok m then .refused .extensionBits
          else if lead.any LeadByte.faultsVex then .invalidOpcode
          else
            match admitLead lead with
            | none => .refused .leadBytes
            | some (pre, _) => finish m pre rm (vexInstr el l ⟨pre, vex⟩ (bitsAt 3 3 modrm) rm)

/-- The payload of `C5 P` (R78). -/
def vexTwo (p : Byte) : VexPayload := .two (!p.getLsbD 7) (~~~(bitsAt 3 4 p))

/-- The payload of `C4 P0 P1` (R78). -/
def vexThree (p0 p1 : Byte) : VexPayload :=
  .three (!p0.getLsbD 7) (!p0.getLsbD 6) (!p0.getLsbD 5) (p1.getLsbD 7) (~~~(bitsAt 3 4 p1))

/-- In Mode32 the bytes C4, C5 and 62 begin a VEX or EVEX prefix only when bits 7:6 of the next byte are 11b (R91). -/
def beginsPayload (m : Mode) (p : Byte) : Bool := m.is64 || bitsAt 6 2 p == 3#2

/-- After C5 (R78, R91). -/
def decodeVex2 (m : Mode) (lead : List LeadByte) : List Byte → DecodeResult
  | [] => .truncated
  | p :: rest =>
    if !beginsPayload m p then .notThisFamily
    else decodeVexBody m lead (vexTwo p) (p.getLsbD 2) (bitsAt 0 2 p == 1#2) rest

/-- After C4 (R78, R91). -/
def decodeVex3 (m : Mode) (lead : List LeadByte) : List Byte → DecodeResult
  | [] => .truncated
  | p0 :: afterP0 =>
    if !beginsPayload m p0 then .notThisFamily
    else
      match afterP0 with
      | [] => .truncated
      | p1 :: rest =>
        decodeVexBody m lead (vexThree p0 p1) (p1.getLsbD 2) (bitsAt 0 5 p0 == 1#5 && bitsAt 0 2 p1 == 1#2) rest

/-! ### EVEX forms (R80, R81, R86 to R89, R91) -/

/-- The nine EVEX rows, selected by the opcode and `L'L`; `L'L = 11b` selects none (R80, R82). -/
def evexInstr (el : Elem) (ll : BitVec 2) (e : EvexEnc) (reg : BitVec 3) (rm : RmField) : Option Instr :=
  if ll = 0#2 then
    some (match el with
      | .byte => .vpcmpeqbK128 e reg rm
      | .word => .vpcmpeqwK128 e reg rm
      | .dword => .vpcmpeqdK128 e reg rm)
  else if ll = 1#2 then
    some (match el with
      | .byte => .vpcmpeqbK256 e reg rm
      | .word => .vpcmpeqwK256 e reg rm
      | .dword => .vpcmpeqdK256 e reg rm)
  else if ll = 2#2 then
    some (match el with
      | .byte => .vpcmpeqbK512 e reg rm
      | .word => .vpcmpeqwK512 e reg rm
      | .dword => .vpcmpeqdK512 e reg rm)
  else none

/-- The EVEX payload `P0 P1 P2` un-inverted, less `R`, `R'`, `z`, `L'L` and the reserved bits (R80). -/
def evexEncOf (pre : List LegacyByte) (p0 p1 p2 : Byte) : EvexEnc where
  pre := pre
  x := !p0.getLsbD 6
  b := !p0.getLsbD 5
  v' := !p2.getLsbD 3
  w := p1.getLsbD 7
  vvvv := ~~~(bitsAt 3 4 p1)
  bcst := p2.getLsbD 4
  aaa := bitsAt 0 3 p2

/-- The logical `R` or `R'` is 1 (R88): the two bits are stored inverted in `P0[7]` and `P0[4]`. -/
def evexRegExtended (p0 : Byte) : Bool := !p0.getLsbD 7 || !p0.getLsbD 4

/-- The reserved EVEX encodings that raise #UD: cases 4 to 10 of R89, in its order. -/
def evexReserved (el : Elem) (p0 p1 p2 : Byte) (rm : RmField) : Bool :=
  (bitsAt 2 2 p0 != 0#2 || !p1.getLsbD 2)
    || (el == .dword && p1.getLsbD 7)
    || p2.getLsbD 7
    || bitsAt 5 2 p2 == 3#2
    || (p2.getLsbD 4 && !rm.isMem)
    || (p2.getLsbD 4 && rm.isMem && el != .dword)
    || evexRegExtended p0

/-- After `62 P0 P1 P2` (R80, R81, R89, R91). -/
def decodeEvexBody (m : Mode) (lead : List LeadByte) (p0 p1 p2 : Byte) : List Byte → DecodeResult
  | [] => .truncated
  | op :: afterOp =>
    match bitsAt 0 2 p0 == 1#2 && bitsAt 0 2 p1 == 1#2, elemOf op with
    | false, _ => .notThisFamily
    | true, none => .notThisFamily
    | true, some el =>
      match afterOp with
      | [] => .truncated
      | modrm :: rest =>
        match takeRm modrm rest with
        | none => .truncated
        | some (rm, _) =>
          if !m.is64 && (evexRegExtended p0 || !(evexEncOf [] p0 p1 p2).extOk m) then .refused .extensionBits
          else if lead.any LeadByte.faultsVex then .invalidOpcode
          else if evexReserved el p0 p1 p2 rm then .invalidOpcode
          else
            match admitLead lead with
            | none => .refused .leadBytes
            | some (pre, _) =>
              match evexInstr el (bitsAt 5 2 p2) (evexEncOf pre p0 p1 p2) (bitsAt 3 3 modrm) rm with
              | none => .invalidOpcode
              | some i => finish m pre rm i

/-- After 62 (R80, R91). -/
def decodeEvex (m : Mode) (lead : List LeadByte) : List Byte → DecodeResult
  | [] => .truncated
  | p0 :: afterP0 =>
    if !beginsPayload m p0 then .notThisFamily
    else
      match afterP0 with
      | p1 :: p2 :: rest => decodeEvexBody m lead p0 p1 p2 rest
      | _ => .truncated

/-! ### The decoder -/

/-- Decode the instruction at the head of a byte string (R90, R92). -/
def decode (m : Mode) (bs : List Byte) : DecodeResult :=
  match splitLead m bs with
  | (_, []) => .truncated
  | (lead, b :: rest) =>
    if b = 0x0F#8 then decodeLegacy m lead rest
    else if b = 0xC5#8 then decodeVex2 m lead rest
    else if b = 0xC4#8 then decodeVex3 m lead rest
    else if b = 0x62#8 then decodeEvex m lead rest
    else .notThisFamily

/-! ### The encoder -/

/-- The byte of a segment override (R77). -/
def Seg.overrideByte : Seg → Byte
  | .es => 0x26#8
  | .cs => 0x2E#8
  | .ss => 0x36#8
  | .ds => 0x3E#8
  | .fs => 0x64#8
  | .gs => 0x65#8

/-- The byte of an admitted prefix (R77). -/
def LegacyByte.encode : LegacyByte → Byte
  | .seg g => g.overrideByte
  | .addressSize => 0x67#8
  | .operandSize => 0x66#8

/-- `0100WRXB` (R76). -/
def Rex.encode (r : Rex) : Byte := 4#4 ++ bit1 r.w ++ bit1 r.r ++ bit1 r.x ++ bit1 r.b

/-- A ModR/M or SIB byte from its three fields (R74, R75). -/
def fields233 (hi : BitVec 2) (mid lo : BitVec 3) : Byte := hi ++ mid ++ lo

/-- A 32-bit displacement, little-endian (R75). -/
def disp32Bytes (d : BitVec 32) : List Byte :=
  [d.extractLsb' 0 8, d.extractLsb' 8 8, d.extractLsb' 16 8, d.extractLsb' 24 8]

/-- `mod` of a displacement (R75). -/
def Disp.mod : Disp → BitVec 2
  | .none => 0#2
  | .disp8 _ => 1#2
  | .disp32 _ => 2#2

/-- The bytes of a displacement (R75). -/
def Disp.bytes : Disp → List Byte
  | .none => []
  | .disp8 d => [d]
  | .disp32 d => disp32Bytes d

/-- ModR/M, SIB and displacement (R74, R75). -/
def rmBytes (reg : BitVec 3) : RmField → List Byte
  | .reg r => [fields233 3#2 reg r]
  | .mem (.base rm d) => fields233 d.mod reg rm :: d.bytes
  | .mem (.relative d) => fields233 0#2 reg 5#3 :: disp32Bytes d
  | .mem (.sib sc ix b d) => fields233 d.mod reg 4#3 :: fields233 sc ix b :: d.bytes
  | .mem (.sibNoBase sc ix d) => fields233 0#2 reg 4#3 :: fields233 sc ix 5#3 :: disp32Bytes d

/-- The bytes of a legacy form (R76). -/
def encodeLegacy (el : Elem) (e : LegacyEnc) (reg : BitVec 3) (rm : RmField) : List Byte :=
  e.pre.map LegacyByte.encode ++ e.rex.toList.map Rex.encode ++ ([0x0F#8, el.opcode] ++ rmBytes reg rm)

/-- The VEX prefix with `L = l`, `pp = 01b` and `mmmmm = 00001b` (R78). -/
def VexPayload.encode (l : Bool) : VexPayload → List Byte
  | .two r vvvv => [0xC5#8, inv1 r ++ ~~~vvvv ++ bit1 l ++ 1#2]
  | .three r x b w vvvv =>
    [0xC4#8, inv1 r ++ inv1 x ++ inv1 b ++ 1#5, bit1 w ++ ~~~vvvv ++ bit1 l ++ 1#2]

/-- The bytes of a VEX form (R78). -/
def encodeVex (el : Elem) (l : Bool) (e : VexEnc) (reg : BitVec 3) (rm : RmField) : List Byte :=
  e.pre.map LegacyByte.encode ++ (e.vex.encode l ++ (el.opcode :: rmBytes reg rm))

/-- The EVEX prefix with `L'L = ll`, `R = R' = z = 0`, `mm = 01b` and `pp = 01b` (R80). -/
def EvexEnc.payload (ll : BitVec 2) (e : EvexEnc) : List Byte :=
  [0x62#8,
    bit1 true ++ inv1 e.x ++ inv1 e.b ++ bit1 true ++ 0#2 ++ 1#2,
    bit1 e.w ++ ~~~e.vvvv ++ 1#1 ++ 1#2,
    bit1 false ++ ll ++ bit1 e.bcst ++ inv1 e.v' ++ e.aaa]

/-- The bytes of an EVEX form (R80). -/
def encodeEvex (el : Elem) (ll : BitVec 2) (e : EvexEnc) (reg : BitVec 3) (rm : RmField) : List Byte :=
  e.pre.map LegacyByte.encode ++ (e.payload ll ++ (el.opcode :: rmBytes reg rm))

/-- The bytes of an instruction, first byte first (R71, R76, R78, R80). -/
def encode : Instr → List Byte
  | .pcmpeqbMm e reg rm => encodeLegacy .byte e reg rm
  | .pcmpeqbXmm e reg rm => encodeLegacy .byte e reg rm
  | .pcmpeqwMm e reg rm => encodeLegacy .word e reg rm
  | .pcmpeqwXmm e reg rm => encodeLegacy .word e reg rm
  | .pcmpeqdMm e reg rm => encodeLegacy .dword e reg rm
  | .pcmpeqdXmm e reg rm => encodeLegacy .dword e reg rm
  | .vpcmpeqbXmm e reg rm => encodeVex .byte false e reg rm
  | .vpcmpeqwXmm e reg rm => encodeVex .word false e reg rm
  | .vpcmpeqdXmm e reg rm => encodeVex .dword false e reg rm
  | .vpcmpeqbYmm e reg rm => encodeVex .byte true e reg rm
  | .vpcmpeqwYmm e reg rm => encodeVex .word true e reg rm
  | .vpcmpeqdYmm e reg rm => encodeVex .dword true e reg rm
  | .vpcmpeqdK128 e reg rm => encodeEvex .dword 0#2 e reg rm
  | .vpcmpeqdK256 e reg rm => encodeEvex .dword 1#2 e reg rm
  | .vpcmpeqdK512 e reg rm => encodeEvex .dword 2#2 e reg rm
  | .vpcmpeqbK128 e reg rm => encodeEvex .byte 0#2 e reg rm
  | .vpcmpeqbK256 e reg rm => encodeEvex .byte 1#2 e reg rm
  | .vpcmpeqbK512 e reg rm => encodeEvex .byte 2#2 e reg rm
  | .vpcmpeqwK128 e reg rm => encodeEvex .word 0#2 e reg rm
  | .vpcmpeqwK256 e reg rm => encodeEvex .word 1#2 e reg rm
  | .vpcmpeqwK512 e reg rm => encodeEvex .word 2#2 e reg rm

/-! ### Lengths (R90) -/

/-- Bytes of a displacement: 0, 1 or 4 (R90). -/
def Disp.length : Disp → Nat
  | .none => 0
  | .disp8 _ => 1
  | .disp32 _ => 4

/-- Bytes of ModR/M, SIB and displacement (R90). -/
def RmField.length : RmField → Nat
  | .reg _ => 1
  | .mem (.base _ d) => 1 + d.length
  | .mem (.relative _) => 5
  | .mem (.sib _ _ _ d) => 2 + d.length
  | .mem (.sibNoBase _ _ _) => 6

/-- Length of a legacy form: prefixes, REX, escape and opcode, operand bytes (R90). -/
def legacyLength (e : LegacyEnc) (rm : RmField) : Nat := e.pre.length + e.rex.toList.length + 2 + rm.length

/-- Length of a VEX form: prefixes, two or three prefix bytes, opcode, operand bytes (R90). -/
def vexLength (e : VexEnc) (rm : RmField) : Nat :=
  e.pre.length + (match e.vex with | .two _ _ => 2 | .three _ _ _ _ _ => 3) + 1 + rm.length

/-- Length of an EVEX form: prefixes, four prefix bytes, opcode, operand bytes (R90). -/
def evexLength (e : EvexEnc) (rm : RmField) : Nat := e.pre.length + 4 + 1 + rm.length

/-- The length of an instruction in bytes (R90). -/
def Instr.length : Instr → Nat
  | .pcmpeqbMm e _ rm => legacyLength e rm
  | .pcmpeqbXmm e _ rm => legacyLength e rm
  | .pcmpeqwMm e _ rm => legacyLength e rm
  | .pcmpeqwXmm e _ rm => legacyLength e rm
  | .pcmpeqdMm e _ rm => legacyLength e rm
  | .pcmpeqdXmm e _ rm => legacyLength e rm
  | .vpcmpeqbXmm e _ rm => vexLength e rm
  | .vpcmpeqwXmm e _ rm => vexLength e rm
  | .vpcmpeqdXmm e _ rm => vexLength e rm
  | .vpcmpeqbYmm e _ rm => vexLength e rm
  | .vpcmpeqwYmm e _ rm => vexLength e rm
  | .vpcmpeqdYmm e _ rm => vexLength e rm
  | .vpcmpeqdK128 e _ rm => evexLength e rm
  | .vpcmpeqdK256 e _ rm => evexLength e rm
  | .vpcmpeqdK512 e _ rm => evexLength e rm
  | .vpcmpeqbK128 e _ rm => evexLength e rm
  | .vpcmpeqbK256 e _ rm => evexLength e rm
  | .vpcmpeqbK512 e _ rm => evexLength e rm
  | .vpcmpeqwK128 e _ rm => evexLength e rm
  | .vpcmpeqwK256 e _ rm => evexLength e rm
  | .vpcmpeqwK512 e _ rm => evexLength e rm

/-! ### Words of the opcode table -/

/-- The longest admitted encoding has 13 bytes and the architecture's limit is 15 (R90): no fetch needs more. What a step does
with a longer string is the model's choice (notes/assumptions/25.md). -/
def maxLength : Nat := 15

/-- The `n` bytes of a number, the most significant first. -/
def bytesTopFirst : Nat → Nat → List Byte
  | 0, _ => []
  | n + 1, w => BitVec.ofNat 8 (w >>> (8 * n)) :: bytesTopFirst n w

/-- The `n` bytes of a number, the least significant first. -/
def bytesLowFirst : Nat → Nat → List Byte
  | 0, _ => []
  | n + 1, w => BitVec.ofNat 8 w :: bytesLowFirst n (w >>> 8)

/-- The instruction an answer of the decoder names. -/
def DecodeResult.instr? : DecodeResult → Option Instr
  | .form i => some i
  | _ => none

/-- The bytes of an instruction that a word of spec/opcode_table.json stands for. The table's `fixed` numbers a row's bytes
as one number whose TOP byte is the first of the stream (row 1: bits 23:8 are 0F74); where that order does not decode, the
first byte is taken from the low end (notes/assumptions/17.md). Zero bytes follow, up to the longest fetch. -/
def tableBytes (nbits w : Nat) : List Byte :=
  let pad := List.replicate (maxLength - nbits / 8) 0#8
  let top := bytesTopFirst (nbits / 8) w ++ pad
  match (decode .mode64 top).instr? with
  | some _ => top
  | none => bytesLowFirst (nbits / 8) w ++ pad

/-- The instruction the decoder reads from a word of spec/opcode_table.json, in the mode State.reset has. -/
def decodeTableWord (nbits w : Nat) : Option Instr := (decode .mode64 (tableBytes nbits w)).instr?

end Sys2Proof
end

