-- ==== Sys2Proof/Machine/State.lean ====
section
/-! DEFINITION. The state of the machine (R20 to R34), the reasons a step can stop (R16, R171), and the state after reset.
State holds everything the spec names, the parameters of a run among it (R35, notes/assumptions/4.md). -/

namespace Sys2Proof.Machine

/-! ### Memory -/

/-- A memory: (address, byte) pairs with strictly rising addresses. An address that is not listed holds no byte
(notes/assumptions/8.md). -/
abbrev Memory := List Host.Cell

/-- The canonical form: addresses strictly rise, and each is an address of the 64-bit linear address space (R33). -/
def Memory.wf (m : Memory) : Bool :=
  decide (m.Pairwise fun a b => a.1 < b.1) && m.all fun c => decide (c.1 < 2 ^ 64)

/-! ### Segments and translation -/

/-- What a segment register holds as far as an address depends on it (R29, R172). -/
structure SegReg where
  base : Word64
  limit : BitVec 32
  /-- The selector is a null selector. -/
  null : Bool
  deriving DecidableEq, Repr

/-- What `Translate` is asked (R58): the segment, the effective address and the byte count of a data read; the access is
always a data read, and `CPL` and `Mode` are those of the run. -/
structure Query where
  seg : Seg
  ea : Word64
  n : Nat
  cpl : BitVec 2
  mode : Mode
  deriving DecidableEq, Repr

/-- What `Translate` answers (R58). Of a page-fault error code it decides the bits R171 leaves to it: P, RSVD and PK. -/
inductive Answer where
  /-- `Ok(bytes)`, the byte at the operand's address first. -/
  | bytes (bs : List Byte)
  /-- `#GP(0)`. -/
  | generalProtection
  /-- `#SS(0)`. -/
  | stackSegment
  /-- `#PF(code, addr)`. -/
  | pageFault (present reserved protectionKey : Bool) (addr : Word64)
  /-- The operand lies in device memory, which the model refuses (R60, U25). -/
  | device
  deriving DecidableEq, Repr

/-! ### The state -/

/-- Everything the spec gives the machine; INVENTORY.md lists each field with its rule. -/
structure State where
  /-- The processor's parameters (R7, R8, R9, R57); no step changes them. -/
  config : Config
  /-- The operating mode (R10, R32); no step changes it. -/
  mode : Mode
  /-- The x87 data registers R0 to R7; MM0 to MM7 are their bits 63:0 (R21, R28). -/
  x87 : Vector X87Word 8
  /-- The x87 status word; TOP is bits 13:11 (R28). -/
  x87sw : BitVec 16
  /-- The x87 tag word: eight 2-bit tags, 00 valid (R28). -/
  x87tw : BitVec 16
  /-- An unmasked x87 floating-point exception is pending (R34). -/
  x87Pending : Bool
  /-- The vector registers; XMM and YMM are the low 128 and 256 bits (R22). Without AVX512F the file has 16 (R11), and
  entries 16 to 31 stand for no register (notes/assumptions/20.md). -/
  v : Vector VecWord 32
  /-- The opmask registers (R23). -/
  k : Vector MaskWord 8
  /-- The general registers, in encoding order (R24); Mode32 uses the low 32 bits of the first eight. -/
  x : Vector Word64 16
  /-- The instruction pointer (R25). -/
  pc : Word64
  /-- The flags register (R26); TF is bit 8 and AC bit 18 (R30). -/
  eflags : BitVec 32
  /-- The SSE control and status register (R27). -/
  mxcsr : BitVec 32
  /-- Control register 0: EM bit 2, TS bit 3, AM bit 18 (R30). -/
  cr0 : Word64
  /-- Control register 2: the linear address a page fault records (R171). -/
  cr2 : Word64
  /-- Control register 4: OSFXSR bit 9, OSXSAVE bit 18 (R30). -/
  cr4 : Word64
  /-- Extended control register 0 (R30). -/
  xcr0 : Word64
  /-- The current privilege level (R30). -/
  cpl : BitVec 2
  /-- The segment registers ES, CS, SS, DS, FS, GS, in that order (R29). -/
  segs : Vector SegReg 6
  /-- A data breakpoint is armed on an operand of the program (R194). -/
  breakpointArmed : Bool
  /-- The answers of `Translate` that the launch fixes (R58, R12); a query that is not listed gets the reference
  translation of Machine/Ops.lean (notes/assumptions/6.md). -/
  oracle : List (Query × Answer)
  /-- Data memory behind the reference translation (R33, R211). -/
  mem : Memory
  /-- The program text (R35, R63). -/
  text : Memory
  deriving DecidableEq, Repr

/-! ### Stops -/

/-- The exceptions a form can raise (R171). #AC is not among them: a launch with alignment checking on is refused (R54). -/
inductive Exception where
  /-- #UD, invalid opcode. -/
  | invalidOpcode
  /-- #NM, device not available. -/
  | deviceNotAvailable
  /-- #SS(0), stack-segment fault. -/
  | stackSegment
  /-- #GP(0), general protection. -/
  | generalProtection
  /-- #PF(code), page fault, with the bits of its code that are not fixed, and the faulting linear address. -/
  | pageFault (present reserved protectionKey : Bool) (addr : Word64)
  /-- #MF, x87 floating-point error. -/
  | x87FloatingPoint
  deriving DecidableEq, Repr

/-- `Fault(vector, error code, state)` of R16: the machine stops, since the spec models no delivery (R186, D10). Each
carries the state it leaves, which is the state before the instruction but for CR2 after a page fault (R171, R185). All are
raised by `Machine.raise` alone; each is safe, since no behaviour after a fault is claimed (notes/assumptions/1.md). -/
inductive Fault where
  /-- #UD, vector 6: the decoder (R89) or a form that is not enabled or not present (R172 to R176). Safe. -/
  | invalidOpcode (s : State)
  /-- #NM, vector 7: any form with CR0.TS = 1 (R177). Safe. -/
  | deviceNotAvailable (s : State)
  /-- #SS(0), vector 12: a memory operand, answered by `Translate` (R172). Safe. -/
  | stackSegment (s : State)
  /-- #GP(0), vector 13: a misaligned legacy m128 (R54), or answered by `Translate` (R172). Safe. -/
  | generalProtection (s : State)
  /-- #PF(code), vector 14: a memory operand, answered by `Translate` (R58, R171). Safe. -/
  | pageFault (code : BitVec 32) (s : State)
  /-- #MF, vector 16: an MMX form with an x87 exception pending (R178). Safe. -/
  | x87FloatingPoint (s : State)
  deriving DecidableEq, Repr

/-- Why the model gives a step no meaning (R16: a refusal is not a claim about the chip). -/
inductive Refusal where
  /-- The instruction has no meaning yet: raised by an arm of `exec` alone. Safe. -/
  | notModelled (mnemonic : String)
  /-- The operating mode is not one of the two admitted (R10, D3): raised by `launchRefusal`. Safe. -/
  | modeNotAdmitted
  /-- `CR0.AM = 1`, `EFLAGS.AC = 1`, `CPL = 3` (R54, D5): raised by `launchRefusal`. Safe. -/
  | alignmentChecking
  /-- `EFLAGS.TF = 1` (R194): raised by `launchRefusal`. Safe. -/
  | singleStep
  /-- A data breakpoint is armed (R194): raised by `launchRefusal`. Safe. -/
  | breakpoint
  /-- A byte of a whole instruction, or the next `pc`, is outside the addresses code may have (R25, D9): raised by
  `stepRefusal`. Safe. -/
  | codeAddress
  /-- The program text does not hold the whole instruction at `pc`, or its bytes leave the addresses code may have before it
  ends (R63, R25): raised by `step`. Safe. -/
  | noProgramText
  /-- No instruction ends within the 15 bytes at `pc` (R90, D17, U29; notes/assumptions/25.md): raised by `step`. Safe. -/
  | tooLong
  /-- The encoding is refused (R75, R77, R91, R92): raised by `step`. Safe. -/
  | encoding (r : DecodeRefusal)
  /-- `NotThisFamily` (R92): raised by `step`. Safe. -/
  | notThisFamily
  /-- The operand lies in device memory (R60, U25): raised by `readMemory`. Safe. -/
  | deviceMemory
  deriving DecidableEq, Repr

/-! ### Reset -/

/-- A segment register at power-up, with the given base. -/
def SegReg.powerUp (base : Word64) : SegReg := ⟨base, 0xFFFF#32, false⟩

/-- The state the model names "after reset". The spec has no reset (R37, R210, R211): this is its reference launch (D2,
D22, the opening of 95_test_vectors.md) and, for what that launch leaves open, the family's power-up values that R37 quotes.
DESIGN CHOICE and PRESUMED, unsafe: notes/assumptions/2.md and notes/assumptions/3.md name each value, and among them that
the launch fixes no answer of `Translate` and lists no byte of data memory or of the program text (R211 and D14 leave all
three open; what the empty lists then mean is in notes/assumptions/6.md, 8.md and 9.md). -/
def State.reset : State where
  config := Config.reference
  mode := .mode64
  x87 := Vector.replicate 8 0#80
  x87sw := 0x0000#16
  x87tw := 0x5555#16
  x87Pending := false
  v := Vector.replicate 32 0#512
  k := Vector.replicate 8 0#64
  x := Vector.replicate 16 0#64
  pc := 0xFFF0#64
  eflags := 0x00000002#32
  mxcsr := 0x00001F80#32
  cr0 := 0x60000010#64
  cr2 := 0#64
  cr4 := 0x40200#64
  xcr0 := 0xE7#64
  cpl := 0#2
  segs := #v[.powerUp 0#64, .powerUp 0xFFFF0000#64, .powerUp 0#64, .powerUp 0#64, .powerUp 0#64, .powerUp 0#64]
  breakpointArmed := false
  oracle := []
  mem := []
  text := []

end Sys2Proof.Machine
end

