-- ==== Sys2Proof/Machine/Flags.lean ====
section
/-! DEFINITION. The flag and control bits the rules read (R30), and the #UD conditions of each class of forms made of them
(R2, R172 to R176). "Flags Affected: None.": no form writes a flag, so there is no flag computation (R26). -/

namespace Sys2Proof

/-! ### Which forms a configuration has (R2, R7, R8, D1) -/

/-- The VEX forms of vector length `vl`: AVX at 128 bits, AVX2 at 256, and no form wider than a register. -/
def Config.hasVex (c : Config) (vl : Nat) : Bool :=
  (if vl = 128 then c.features.avx else c.features.avx2) && decide (vl ≤ c.maxVl.bits)

/-- The EVEX forms of element width `w` and vector length `vl`: AVX512F for doublewords, AVX512BW for bytes and words,
AVX512VL as well below 512 bits; and no form wider than a vector or opmask register (notes/assumptions/5.md). -/
def Config.hasEvex (c : Config) (w vl : Nat) : Bool :=
  (if w = 32 then c.features.avx512f else c.features.avx512bw) && (decide (vl = 512) || c.features.avx512vl) &&
    decide (vl ≤ c.maxVl.bits) && decide (vl / w ≤ c.maxKl)

/-- Vector register `n` exists: the file has 32 registers with AVX512F and 16 without (R11). -/
def Config.hasVecReg (c : Config) (n : BitVec 5) : Bool := c.features.avx512f || decide (n.toNat < 16)

end Sys2Proof

namespace Sys2Proof.Machine

/-! ### Named bits (R30) -/

/-- CR0.EM, bit 2. -/
def State.em (s : State) : Bool := s.cr0.getLsbD 2

/-- CR0.TS, bit 3. -/
def State.ts (s : State) : Bool := s.cr0.getLsbD 3

/-- CR0.AM, bit 18. -/
def State.am (s : State) : Bool := s.cr0.getLsbD 18

/-- CR4.OSFXSR, bit 9. -/
def State.osfxsr (s : State) : Bool := s.cr4.getLsbD 9

/-- CR4.OSXSAVE, bit 18. -/
def State.osxsave (s : State) : Bool := s.cr4.getLsbD 18

/-- EFLAGS.TF, bit 8. -/
def State.tf (s : State) : Bool := s.eflags.getLsbD 8

/-- EFLAGS.AC, bit 18. -/
def State.ac (s : State) : Bool := s.eflags.getLsbD 18

/-- `XCR0[2:1] = 11b`: SSE and AVX state enabled (R173). -/
def State.avxEnabled (s : State) : Bool := s.xcr0.extractLsb' 1 2 == 3#2

/-- `XCR0[7:5] = 111b`: opmask, ZMM_Hi256 and Hi16_ZMM state enabled (R174). -/
def State.avx512Enabled (s : State) : Bool := s.xcr0.extractLsb' 5 3 == 7#3

/-! ### The #UD conditions that are not in the encoding -/

/-- MMX forms (R176). -/
def State.udMmx (s : State) : Bool := s.em || !s.config.features.mmx

/-- Legacy XMM forms (R172). -/
def State.udXmm (s : State) : Bool := s.em || !s.osfxsr || !s.config.features.sse2

/-- VEX forms (R173). -/
def State.udVex (s : State) (vl : Nat) : Bool := !s.osxsave || !s.avxEnabled || !s.config.hasVex vl

/-- EVEX forms, whatever registers they name (R174, R175). -/
def State.udEvex (s : State) (w vl : Nat) : Bool :=
  !s.osxsave || !s.avxEnabled || !s.avx512Enabled || !s.config.hasEvex w vl

end Sys2Proof.Machine
end

