-- ==== Sys2Proof/Machine/Ops.lean ====
section
/-! DEFINITION. The named operations over registers and memory, taking an exception, the conditions under which a step is
taken at all, and the one frame in which every form executes. -/

namespace Sys2Proof

/-- A segment's place among the segment registers. -/
def Seg.index : Seg → Fin 6
  | .es => 0
  | .cs => 1
  | .ss => 2
  | .ds => 3
  | .fs => 4
  | .gs => 5

end Sys2Proof

namespace Sys2Proof.Machine

/-! ### Stops and exceptions -/

/-- Why a form does not complete. -/
inductive Stop where
  | exception (e : Exception)
  | refusal (r : Refusal)
  deriving DecidableEq, Repr

/-- The page-fault error code (R171): P is bit 0, W/R bit 1 (0, a read), U/S bit 2 (1 when `CPL = 3`), RSVD bit 3, I/D bit 4
(0, a data access), PK bit 5. -/
def pageFaultCode (present reserved protectionKey : Bool) (cpl : BitVec 2) : BitVec 32 :=
  0#26 ++ bit1 protectionKey ++ 0#1 ++ bit1 reserved ++ bit1 (cpl == 3#2) ++ 0#1 ++ bit1 present

/-- Taking an exception. The spec ends a run here (R16, R186): the outcome carries the vector, the error code and the state,
unchanged (R185) but for CR2, which a page fault records its address in (R171). -/
def raise (e : Exception) (s : State) : Host.Outcome State Fault Refusal :=
  match e with
  | .invalidOpcode => .fault (.invalidOpcode s)
  | .deviceNotAvailable => .fault (.deviceNotAvailable s)
  | .stackSegment => .fault (.stackSegment s)
  | .generalProtection => .fault (.generalProtection s)
  | .pageFault p r k addr => .fault (.pageFault (pageFaultCode p r k s.cpl) { s with cr2 := addr })
  | .x87FloatingPoint => .fault (.x87FloatingPoint s)

/-- The outcome a stop gives. -/
def Stop.outcome (s : State) : Stop → Host.Outcome State Fault Refusal
  | .exception e => raise e s
  | .refusal r => .refused r

/-- The vector number of a fault (R171). -/
def Fault.vector : Fault → Nat
  | .invalidOpcode _ => 6
  | .deviceNotAvailable _ => 7
  | .stackSegment _ => 12
  | .generalProtection _ => 13
  | .pageFault _ _ => 14
  | .x87FloatingPoint _ => 16

/-- The error code of a fault: none for #UD, #NM and #MF, 0 for #SS and #GP (R171). -/
def Fault.errorCode : Fault → Option (BitVec 32)
  | .invalidOpcode _ => none
  | .deviceNotAvailable _ => none
  | .stackSegment _ => some 0#32
  | .generalProtection _ => some 0#32
  | .pageFault code _ => some code
  | .x87FloatingPoint _ => none

/-- The state a fault leaves (R16). -/
def Fault.state : Fault → State
  | .invalidOpcode s => s
  | .deviceNotAvailable s => s
  | .stackSegment s => s
  | .generalProtection s => s
  | .pageFault _ s => s
  | .x87FloatingPoint s => s

/-! ### Memory -/

/-- The byte at an address; none where no byte is listed. -/
def Memory.read : Memory → Nat → Option Byte
  | [], _ => none
  | c :: rest, a => if a = c.1 then some c.2 else Memory.read rest a

/-- Put a byte at an address, in the canonical form. No form writes memory (R51): this loads a program text. -/
def Memory.write : Memory → Nat → Byte → Memory
  | [], a, b => [(a, b)]
  | c :: rest, a, b =>
    if a < c.1 then (a, b) :: c :: rest
    else if a = c.1 then (a, b) :: rest
    else c :: Memory.write rest a b

/-- Put bytes at consecutive addresses, the first at `a`; an address above the address space is left out. -/
def Memory.writeBytes (m : Memory) (a : Nat) : List Byte → Memory
  | [] => m
  | b :: bs => Memory.writeBytes (if a < 2 ^ 64 then m.write a b else m) (a + 1) bs

/-- The bytes at the given addresses, or the first address that holds none. -/
def Memory.readAll (m : Memory) : List Nat → Except Nat (List Byte)
  | [] => .ok []
  | a :: rest =>
    match m.read a with
    | none => .error a
    | some b =>
      match Memory.readAll m rest with
      | .error a' => .error a'
      | .ok bs => .ok (b :: bs)

/-- The number that bytes stand for, the least significant first (R53). -/
def littleEndian : List Byte → Nat
  | [] => 0
  | b :: bs => b.toNat + 256 * littleEndian bs

/-! ### Registers -/

/-- `MM[d]`: bits 63:0 of x87 register `d` (R21, R28). -/
def State.mm (s : State) (d : BitVec 3) : BitVec 64 := s.x87[d.toNat].setWidth 64

/-- The low `L` bits of vector register `n`: `XMM[n]`, `YMM[n]`, `ZMM[n]` for `L` = 128, 256, 512 (R22). -/
def State.vec (s : State) (L : Nat) (n : BitVec 5) : BitVec L := s.v[n.toNat].setWidth L

/-- Opmask register `n` (R23). -/
def State.opmask (s : State) (n : BitVec 3) : MaskWord := s.k[n.toNat]

/-- General register `n` (R24). -/
def State.gpr (s : State) (n : BitVec 4) : Word64 := s.x[n.toNat]

/-- Segment register `g` (R29). -/
def State.seg (s : State) (g : Seg) : SegReg := s.segs[g.index]

/-- An MMX instruction writes `MM[d]`: bits 79:64 of the x87 register become all ones, TOP becomes 0 and every tag valid
(R28, R120 step 5). -/
def State.setMm (s : State) (d : BitVec 3) (val : BitVec 64) : State :=
  { s with
    x87 := s.x87.set d.toNat (0xFFFF#16 ++ val)
    x87sw := s.x87sw &&& 0xC7FF#16
    x87tw := 0#16 }

/-- Write the low 128 bits of vector register `n` and keep the rest (R130: "DEST[MAXVL-1:128] (Unmodified)"). -/
def State.setXmm (s : State) (n : BitVec 5) (val : BitVec 128) : State :=
  { s with v := s.v.set n.toNat (s.v[n.toNat].extractLsb' 128 384 ++ val) }

/-- Write the whole of vector register `n`: the value, and 0 above it (R140: "DEST[MAXVL-1:128] ← 0"). -/
def State.setVec (s : State) {L : Nat} (n : BitVec 5) (val : BitVec L) : State :=
  { s with v := s.v.set n.toNat (val.setWidth 512) }

/-- Write the whole of opmask register `n`: the value, and 0 above it (R150: "DEST[MAX_KL-1:KL] ← 0"). -/
def State.setOpmask (s : State) {KL : Nat} (n : BitVec 3) (val : BitVec KL) : State :=
  { s with k := s.k.set n.toNat (val.setWidth 64) }

/-- `pc <- pc + len` (R25). -/
def State.advance (s : State) (len : Nat) : State := { s with pc := s.pc + BitVec.ofNat 64 len }

/-! ### Addresses -/

/-- The low 32 bits of an address, zero-extended. -/
def low32 (a : Word64) : Word64 := (a.setWidth 32).setWidth 64

/-- Is an address canonical: its bits from `n - 1` up all equal (R57)? -/
def isCanonical (n : Nat) (a : Word64) : Bool := (a.setWidth n).signExtend 64 == a

/-- The base of a segment: in 64-bit mode only FS and GS have one that counts (R29). -/
def State.segBase (s : State) (g : Seg) : Word64 :=
  match s.mode.is64, g with
  | true, .es => 0#64
  | true, .cs => 0#64
  | true, .ss => 0#64
  | true, .ds => 0#64
  | _, g => (s.seg g).base

/-- The linear address: effective address plus segment base, truncated to the address width of the mode (R57). -/
def State.linear (s : State) (g : Seg) (ea : Word64) : Word64 :=
  if s.mode.is64 then s.segBase g + ea else low32 (s.segBase g + ea)

/-! ### Translate (R58) -/

/-- The segment-limit, null-selector and canonical conditions of R172: #SS(0) in the SS segment, #GP(0) in the others. -/
def State.segmentFault (s : State) (q : Query) : Option Answer :=
  let violation := if q.seg = .ss then Answer.stackSegment else Answer.generalProtection
  if s.mode.is64 then
    let lin := (s.linear q.seg q.ea).toNat
    if (List.range q.n).all fun j =>
        decide (lin + j < 2 ^ 64) && isCanonical s.config.linearBits (BitVec.ofNat 64 (lin + j))
    then none else some violation
  else if (s.seg q.seg).null then some .generalProtection
  else if q.ea.toNat + q.n ≤ (s.seg q.seg).limit.toNat + 1 then none
  else some violation

/-- The linear addresses of an operand's bytes; in Mode32 they wrap at 32 bits (R57). -/
def State.operandAddresses (s : State) (q : Query) : List Nat :=
  (List.range q.n).map fun j =>
    if s.mode.is64 then (s.linear q.seg q.ea).toNat + j else ((s.linear q.seg q.ea).toNat + j) % 2 ^ 32

/-- The reference translation: segment checks before the page (R184), then the identity on the bytes data memory lists and
#PF, page not present, elsewhere (the opening of 95_test_vectors.md; notes/assumptions/7.md). -/
def State.referenceTranslate (s : State) (q : Query) : Answer :=
  match s.segmentFault q with
  | some a => a
  | none =>
    match s.mem.readAll (s.operandAddresses q) with
    | .ok bs => .bytes bs
    | .error a => .pageFault false false false (BitVec.ofNat 64 a)

/-- Can the answer be one to a question for `n` bytes? -/
def Answer.fits (n : Nat) : Answer → Bool
  | .bytes bs => bs.length == n
  | _ => true

/-- `Translate` (R58): the answer the launch fixes for this query, else the reference translation. -/
def State.translate (s : State) (q : Query) : Answer :=
  match s.oracle.find? fun e => e.1 == q && Answer.fits q.n e.2 with
  | some e => e.2
  | none => s.referenceTranslate q

/-- `MemRead(addr, L/8)` (R14, R53, R58): asked once, for the whole operand, whatever a writemask holds (R59). -/
def State.readMemory (s : State) (L : Nat) (g : Seg) (ea : Word64) : Except Stop (BitVec L) :=
  match s.translate ⟨g, ea, L / 8, s.cpl, s.mode⟩ with
  | .bytes bs => .ok (BitVec.ofNat L (littleEndian bs))
  | .generalProtection => .error (.exception .generalProtection)
  | .stackSegment => .error (.exception .stackSegment)
  | .pageFault p r k addr => .error (.exception (.pageFault p r k addr))
  | .device => .error (.refusal .deviceMemory)

/-! ### When a step is taken -/

/-- A launch the model does not admit: a mode other than the two (R10), alignment checking on (R54), single step or an
armed breakpoint (R194). -/
def State.launchRefusal (s : State) : Option Refusal :=
  if !s.mode.admitted then some .modeNotAdmitted
  else if s.am && s.ac && s.cpl == 3#2 then some .alignmentChecking
  else if s.tf then some .singleStep
  else if s.breakpointArmed then some .breakpoint
  else none

/-- The addresses code may have: canonical in 64-bit mode, below 2^32 in Mode32 (R25, D9). -/
def State.codeAddress (s : State) (a : Nat) : Bool :=
  if s.mode.is64 then decide (a < 2 ^ 64) && isCanonical s.config.linearBits (BitVec.ofNat 64 a)
  else decide (a < 2 ^ 32)

/-- Every byte of an instruction of length `len` at `pc`, and the next `pc`, is where code may be (R25, D9). -/
def State.codeFits (s : State) (len : Nat) : Bool :=
  (List.range (len + 1)).all fun j => s.codeAddress (s.pc.toNat + j)

/-- Why a step over an instruction of length `len` is not taken at all (R16). -/
def State.stepRefusal (s : State) (len : Nat) : Option Refusal :=
  match s.launchRefusal with
  | some r => some r
  | none => if s.codeFits len then none else some .codeAddress

/-- The checks before an operand is read, highest priority first (R184): #UD, #NM, #MF. -/
def State.formStop (s : State) (len : Nat) (ud mf : Bool) : Option Stop :=
  match s.stepRefusal len with
  | some r => some (.refusal r)
  | none =>
    if ud then some (.exception .invalidOpcode)
    else if s.ts then some (.exception .deviceNotAvailable)
    else if mf then some (.exception .x87FloatingPoint)
    else none

/-- The frame every form executes in (R120, R130, R140, R150): the checks, then the second source, then the whole
destination written at once, then `pc <- pc + len`. If anything stops it, nothing is written (R185). -/
def State.execute {L : Nat} (s : State) (len : Nat) (ud mf : Bool) (src : Except Stop (BitVec L))
    (write : BitVec L → State) : Host.Outcome State Fault Refusal :=
  match s.formStop len ud mf with
  | some stop => stop.outcome s
  | none =>
    match src with
    | .error stop => stop.outcome s
    | .ok val => .next ((write val).advance len)

/-! ### The program text (R63) -/

/-- The bytes the program text holds at `a`, `a + 1`, ..., at most `fuel` of them, up to the first that is missing or not
where code may be. -/
def State.textFrom (s : State) : Nat → Nat → List Byte
  | 0, _ => []
  | fuel + 1, a =>
    if s.codeAddress a then
      match s.text.read a with
      | some b => b :: s.textFrom fuel (a + 1)
      | none => []
    else []

/-- The instruction bytes at `pc`, as many as an instruction can have (R25, R90). That a step looks at no more than 15 is the
model's choice for longer strings of prefixes: DESIGN CHOICE, safe, notes/assumptions/25.md. -/
def State.fetch (s : State) : List Byte := s.textFrom maxLength s.pc.toNat

/-- Load bytes into the program text at `pc` (R211: the program text is part of the launch; notes/assumptions/9.md). -/
def State.loadText (s : State) (bs : List Byte) : State :=
  { s with text := s.text.writeBytes s.pc.toNat bs }

end Sys2Proof.Machine
end

