-- ==== Sys2Proof/Machine/Operands.lean ====
section
/-! DEFINITION. Operand decoding and address formation (R72 to R88): register numbers, effective addresses, default
segments, compressed displacements, and the second source of each class of forms. -/

namespace Sys2Proof

/-! ### Register numbers -/

/-- `B:r`, a 4-bit register number (R75). -/
def num4 (hi : Bool) (lo : BitVec 3) : BitVec 4 := bit1 hi ++ lo

/-- `B:r`, a vector register number 0 to 15 (R76, R78). -/
def vecNum4 (hi : Bool) (lo : BitVec 3) : BitVec 5 := 0#1 ++ num4 hi lo

/-- REX.R, 0 when there is no REX (R73, R76). -/
def LegacyEnc.r (e : LegacyEnc) : Bool := match e.rex with | some r => r.r | none => false

/-- REX.X, 0 when there is no REX. -/
def LegacyEnc.x (e : LegacyEnc) : Bool := match e.rex with | some r => r.x | none => false

/-- REX.B, 0 when there is no REX. -/
def LegacyEnc.b (e : LegacyEnc) : Bool := match e.rex with | some r => r.b | none => false

/-- VEX.R (R78). -/
def VexPayload.r : VexPayload → Bool
  | .two r _ => r
  | .three r _ _ _ _ => r

/-- VEX.X, 0 in the two-byte prefix (R78). -/
def VexPayload.x : VexPayload → Bool
  | .two _ _ => false
  | .three _ x _ _ _ => x

/-- VEX.B, 0 in the two-byte prefix (R78). -/
def VexPayload.b : VexPayload → Bool
  | .two _ _ => false
  | .three _ _ b _ _ => b

/-- VEX.vvvv (R78). -/
def VexPayload.vvvv : VexPayload → BitVec 4
  | .two _ v => v
  | .three _ _ _ _ v => v

/-- Operand 1 of a legacy XMM form, `R:ModRM.reg` (R76, R130). -/
def LegacyEnc.dest (e : LegacyEnc) (reg : BitVec 3) : BitVec 5 := vecNum4 e.r reg

/-- Operand 1 of a VEX form, `R:ModRM.reg` (R78, R140). -/
def VexEnc.dest (e : VexEnc) (reg : BitVec 3) : BitVec 5 := vecNum4 e.vex.r reg

/-- Operand 2 of a VEX form, `vvvv` (R78, R140). -/
def VexEnc.src1 (e : VexEnc) : BitVec 5 := 0#1 ++ e.vex.vvvv

/-- Operand 2 of an EVEX form, `V':vvvv` (R80, R150). -/
def EvexEnc.src1 (e : EvexEnc) : BitVec 5 := bit1 e.v' ++ e.vvvv

/-- Operand 3 of an EVEX form when it is a register, `X:B:ModRM.r/m` (R80, R150). -/
def EvexEnc.src2 (e : EvexEnc) (r : BitVec 3) : BitVec 5 := bit1 e.x ++ bit1 e.b ++ r

/-- The vector registers an EVEX form names exist. A configuration with AVX512BW and without AVX512F has the byte and word
forms (R2) and no registers 16 to 31 (R11): DESIGN CHOICE, safe, notes/assumptions/20.md. -/
def EvexEnc.registersExist (c : Config) (e : EvexEnc) (rm : RmField) : Bool :=
  c.hasVecReg e.src1 && match rm with
    | .reg r => c.hasVecReg (e.src2 r)
    | .mem _ => true

/-! ### Addresses (R75) -/

/-- What an address depends on besides ModR/M, SIB and displacement: the bytes before the form, the extension bits, and the
scale `N` of an 8-bit displacement (R84). -/
structure AddressEnc where
  pre : List LegacyByte
  x : Bool
  b : Bool
  disp8N : Nat
  deriving DecidableEq, Repr

/-- Legacy forms: the bits of REX, `N = 1` (R75, R84). -/
def LegacyEnc.address (e : LegacyEnc) : AddressEnc := ⟨e.pre, e.x, e.b, 1⟩

/-- VEX forms: `N = 1` (R84). -/
def VexEnc.address (e : VexEnc) : AddressEnc := ⟨e.pre, e.vex.x, e.vex.b, 1⟩

/-- EVEX forms: `N = VL/8`, and 4 for a broadcast (R84). -/
def EvexEnc.address (vl : Nat) (e : EvexEnc) : AddressEnc := ⟨e.pre, e.x, e.b, if e.bcst then 4 else vl / 8⟩

/-- The displacement, sign-extended; one of 8 bits is multiplied by `N` (R75, R84). -/
def dispValue (n : Nat) : Disp → Word64
  | .none => 0#64
  | .disp8 d => d.signExtend 64 * BitVec.ofNat 64 n
  | .disp32 d => d.signExtend 64

/-- SS when the base register is number 4 or 5 with `B = 0`, DS otherwise (R75). -/
def defaultSeg (b : Bool) (m : MemField) : Seg :=
  let stackBase (r : BitVec 3) : Seg := if !b && (r == 4#3 || r == 5#3) then .ss else .ds
  match m with
  | .base rm _ => stackBase rm
  | .relative _ => .ds
  | .sib _ _ base _ => stackBase base
  | .sibNoBase _ _ _ => .ds

/-- The segment of a memory operand: the override, else the default (R75, R77). -/
def AddressEnc.seg (p : AddressEnc) (m : MemField) : Seg :=
  match segOverride p.pre with
  | some g => g
  | none => defaultSeg p.b m

end Sys2Proof

namespace Sys2Proof.Machine

/-! ### Addresses (R75) -/

/-- Is the address size 64 bits: 64-bit mode without 67 (R75)? -/
def State.address64 (s : State) (p : AddressEnc) : Bool := s.mode.is64 && !hasAddressSize p.pre

/-- A value truncated to the address size (R75). -/
def State.toAddressSize (s : State) (p : AddressEnc) (a : Word64) : Word64 :=
  if s.address64 p then a else low32 a

/-- General register `hi:lo` truncated to the address size (R75). -/
def State.addressReg (s : State) (p : AddressEnc) (hi : Bool) (lo : BitVec 3) : Word64 :=
  s.toAddressSize p (s.gpr (num4 hi lo))

/-- The scaled index: none when `X:index = 0100b` (R75). -/
def State.indexValue (s : State) (p : AddressEnc) (scale : BitVec 2) (index : BitVec 3) : Word64 :=
  if num4 p.x index = 4#4 then 0#64 else s.addressReg p p.x index <<< scale.toNat

/-- The effective address (R75); `pcNext` is the address of the byte after the instruction. -/
def State.effectiveAddress (s : State) (p : AddressEnc) (pcNext : Word64) (m : MemField) : Word64 :=
  s.toAddressSize p <|
    match m with
    | .base rm d => s.addressReg p p.b rm + dispValue p.disp8N d
    | .relative d => (if s.mode.is64 then pcNext else 0#64) + d.signExtend 64
    | .sib scale index base d =>
      s.addressReg p p.b base + s.indexValue p scale index + dispValue p.disp8N d
    | .sibNoBase scale index d => s.indexValue p scale index + d.signExtend 64

/-- The address of the byte after an instruction of length `len` at `pc` (R75). -/
def State.pcNext (s : State) (len : Nat) : Word64 := s.pc + BitVec.ofNat 64 len

/-- The linear address of a memory operand (R57, R75). -/
def State.operandLinear (s : State) (p : AddressEnc) (len : Nat) (m : MemField) : Word64 :=
  s.linear (p.seg m) (s.effectiveAddress p (s.pcNext len) m)

/-- A memory operand of `L` bits (R50, R58). -/
def State.readOperand (s : State) (L : Nat) (p : AddressEnc) (len : Nat) (m : MemField) : Except Stop (BitVec L) :=
  s.readMemory L (p.seg m) (s.effectiveAddress p (s.pcNext len) m)

/-! ### The #UD conditions of an EVEX form -/

/-- The conditions of R174 and R175, and a register that does not exist (notes/assumptions/20.md). -/
def State.udEvexForm (s : State) (w vl : Nat) (e : EvexEnc) (rm : RmField) : Bool :=
  s.udEvex w vl || !e.registersExist s.config rm

/-! ### The second source of each class -/

/-- `mm/m64`: REX.B does not extend an MMX register number (R76, R120). -/
def State.mmxSource (s : State) (e : LegacyEnc) (rm : RmField) : Except Stop (BitVec 64) :=
  match rm with
  | .reg r => .ok (s.mm r)
  | .mem m => s.readOperand 64 e.address (legacyLength e rm) m

/-- `xmm2/m128` of a legacy form: #GP(0) unless the linear address is a multiple of 16, before memory is asked (R54, R130,
R184). -/
def State.xmmSource (s : State) (e : LegacyEnc) (rm : RmField) : Except Stop (BitVec 128) :=
  match rm with
  | .reg r => .ok (s.vec 128 (vecNum4 e.b r))
  | .mem m =>
    if (s.operandLinear e.address (legacyLength e rm) m).toNat % 16 = 0 then
      s.readOperand 128 e.address (legacyLength e rm) m
    else .error (.exception .generalProtection)

/-- `xmm3/m128` or `ymm3/m256` of a VEX form, with no alignment requirement (R54, R140). -/
def State.vexSource (s : State) (vl : Nat) (e : VexEnc) (rm : RmField) : Except Stop (BitVec vl) :=
  match rm with
  | .reg r => .ok (s.vec vl (vecNum4 e.vex.b r))
  | .mem m => s.readOperand vl e.address (vexLength e rm) m

/-- The third operand of an EVEX form: a register, the whole vector in memory, or 4 bytes of memory in every doubleword
lane (R55, R85, R150 step 3). -/
def State.evexSource (s : State) (vl : Nat) (e : EvexEnc) (rm : RmField) : Except Stop (BitVec vl) :=
  match rm with
  | .reg r => .ok (s.vec vl (e.src2 r))
  | .mem m =>
    if e.bcst then
      (s.readOperand 32 (EvexEnc.address vl e) (evexLength e rm) m).map (broadcast32 vl)
    else s.readOperand vl (EvexEnc.address vl e) (evexLength e rm) m

/-- The writemask: all ones when `aaa = 000b`, else bits `KL-1:0` of the opmask register it names (R86, R150). -/
def State.writemask (s : State) (kl : Nat) (e : EvexEnc) : BitVec kl :=
  if e.aaa = 0#3 then BitVec.allOnes kl else (s.opmask e.aaa).setWidth kl

end Sys2Proof.Machine
end

