-- ==== Sys2Proof/Machine/Evex.lean ====
section
/-! DEFINITION. The EVEX-encoded forms, VPCMPEQD, VPCMPEQB and VPCMPEQW into an opmask register (R150 to R161). -/

namespace Sys2Proof.Machine

/-- What the nine forms share (R150): `K[d] <- zext(EqMask(w, KL, V[V':vvvv][VL-1:0], SRC2) AND WM)`. -/
def State.compareEvex (s : State) (w vl : Nat) (e : EvexEnc) (reg : BitVec 3) (rm : RmField) :
    Host.Outcome State Fault Refusal :=
  s.execute (evexLength e rm) (s.udEvexForm w vl e rm) false (s.evexSource vl e rm) fun src =>
    s.setOpmask reg (eqMask w (s.vec vl e.src1) src &&& s.writemask (vl / w) e)

/-- VPCMPEQD k1 with writemask k2, xmm2, xmm3/m128/m32bcst (R151). -/
def execVpcmpeqdK128 (e : EvexEnc) (reg : BitVec 3) (rm : RmField) (s : State) : Host.Outcome State Fault Refusal :=
  s.compareEvex 32 128 e reg rm

/-- VPCMPEQD k1 with writemask k2, ymm2, ymm3/m256/m32bcst (R152). -/
def execVpcmpeqdK256 (e : EvexEnc) (reg : BitVec 3) (rm : RmField) (s : State) : Host.Outcome State Fault Refusal :=
  s.compareEvex 32 256 e reg rm

/-- VPCMPEQD k1 with writemask k2, zmm2, zmm3/m512/m32bcst (R153). -/
def execVpcmpeqdK512 (e : EvexEnc) (reg : BitVec 3) (rm : RmField) (s : State) : Host.Outcome State Fault Refusal :=
  s.compareEvex 32 512 e reg rm

/-- VPCMPEQB k1 with writemask k2, xmm2, xmm3/m128 (R154). -/
def execVpcmpeqbK128 (e : EvexEnc) (reg : BitVec 3) (rm : RmField) (s : State) : Host.Outcome State Fault Refusal :=
  s.compareEvex 8 128 e reg rm

/-- VPCMPEQB k1 with writemask k2, ymm2, ymm3/m256 (R155). -/
def execVpcmpeqbK256 (e : EvexEnc) (reg : BitVec 3) (rm : RmField) (s : State) : Host.Outcome State Fault Refusal :=
  s.compareEvex 8 256 e reg rm

/-- VPCMPEQB k1 with writemask k2, zmm2, zmm3/m512 (R156). -/
def execVpcmpeqbK512 (e : EvexEnc) (reg : BitVec 3) (rm : RmField) (s : State) : Host.Outcome State Fault Refusal :=
  s.compareEvex 8 512 e reg rm

/-- VPCMPEQW k1 with writemask k2, xmm2, xmm3/m128 (R157). -/
def execVpcmpeqwK128 (e : EvexEnc) (reg : BitVec 3) (rm : RmField) (s : State) : Host.Outcome State Fault Refusal :=
  s.compareEvex 16 128 e reg rm

/-- VPCMPEQW k1 with writemask k2, ymm2, ymm3/m256 (R158). -/
def execVpcmpeqwK256 (e : EvexEnc) (reg : BitVec 3) (rm : RmField) (s : State) : Host.Outcome State Fault Refusal :=
  s.compareEvex 16 256 e reg rm

/-- VPCMPEQW k1 with writemask k2, zmm2, zmm3/m512 (R159). -/
def execVpcmpeqwK512 (e : EvexEnc) (reg : BitVec 3) (rm : RmField) (s : State) : Host.Outcome State Fault Refusal :=
  s.compareEvex 16 512 e reg rm

end Sys2Proof.Machine
end

