-- ==== Sys2Proof/Machine/Mmx.lean ====
section
/-! DEFINITION. The MMX-register forms, PCMPEQB, PCMPEQW and PCMPEQD mm, mm/m64 (R120 to R123). -/

namespace Sys2Proof.Machine

/-- What the three forms share (R120): `MM[d] <- EqLanes(w, 64/w, MM[d], SRC)` with the x87 side effects of R28. -/
def State.compareMmx (s : State) (w : Nat) (e : LegacyEnc) (reg : BitVec 3) (rm : RmField) :
    Host.Outcome State Fault Refusal :=
  s.execute (legacyLength e rm) s.udMmx s.x87Pending (s.mmxSource e rm) fun src =>
    s.setMm reg (eqLanes w (s.mm reg) src)

/-- PCMPEQB mm, mm/m64 (R121). -/
def execPcmpeqbMm (e : LegacyEnc) (reg : BitVec 3) (rm : RmField) (s : State) : Host.Outcome State Fault Refusal :=
  s.compareMmx 8 e reg rm

/-- PCMPEQW mm, mm/m64 (R122). -/
def execPcmpeqwMm (e : LegacyEnc) (reg : BitVec 3) (rm : RmField) (s : State) : Host.Outcome State Fault Refusal :=
  s.compareMmx 16 e reg rm

/-- PCMPEQD mm, mm/m64 (R123). -/
def execPcmpeqdMm (e : LegacyEnc) (reg : BitVec 3) (rm : RmField) (s : State) : Host.Outcome State Fault Refusal :=
  s.compareMmx 32 e reg rm

end Sys2Proof.Machine
end

