-- ==== Sys2Proof/Machine/Sse2.lean ====
section
/-! DEFINITION. The legacy XMM forms, PCMPEQB, PCMPEQW and PCMPEQD xmm1, xmm2/m128 (R130 to R133). -/

namespace Sys2Proof.Machine

/-- What the three forms share (R130): `V[d][127:0] <- EqLanes(w, 128/w, V[d][127:0], SRC)`, the rest of `V[d]` kept. -/
def State.compareXmm (s : State) (w : Nat) (e : LegacyEnc) (reg : BitVec 3) (rm : RmField) :
    Host.Outcome State Fault Refusal :=
  s.execute (legacyLength e rm) s.udXmm false (s.xmmSource e rm) fun src =>
    s.setXmm (e.dest reg) (eqLanes w (s.vec 128 (e.dest reg)) src)

/-- PCMPEQB xmm1, xmm2/m128 (R131). -/
def execPcmpeqbXmm (e : LegacyEnc) (reg : BitVec 3) (rm : RmField) (s : State) : Host.Outcome State Fault Refusal :=
  s.compareXmm 8 e reg rm

/-- PCMPEQW xmm1, xmm2/m128 (R132). -/
def execPcmpeqwXmm (e : LegacyEnc) (reg : BitVec 3) (rm : RmField) (s : State) : Host.Outcome State Fault Refusal :=
  s.compareXmm 16 e reg rm

/-- PCMPEQD xmm1, xmm2/m128 (R133). -/
def execPcmpeqdXmm (e : LegacyEnc) (reg : BitVec 3) (rm : RmField) (s : State) : Host.Outcome State Fault Refusal :=
  s.compareXmm 32 e reg rm

end Sys2Proof.Machine
end

