-- ==== Sys2Proof/Machine/Vex.lean ====
section
/-! DEFINITION. The VEX-encoded forms, VPCMPEQB, VPCMPEQW and VPCMPEQD at 128 and 256 bits (R140 to R146). -/

namespace Sys2Proof.Machine

/-- What the six forms share (R140): `V[d] <- zext(EqLanes(w, VL/w, V[vvvv][VL-1:0], SRC2))`. -/
def State.compareVex (s : State) (w vl : Nat) (e : VexEnc) (reg : BitVec 3) (rm : RmField) :
    Host.Outcome State Fault Refusal :=
  s.execute (vexLength e rm) (s.udVex vl) false (s.vexSource vl e rm) fun src =>
    s.setVec (e.dest reg) (eqLanes w (s.vec vl e.src1) src)

/-- VPCMPEQB xmm1, xmm2, xmm3/m128 (R141). -/
def execVpcmpeqbXmm (e : VexEnc) (reg : BitVec 3) (rm : RmField) (s : State) : Host.Outcome State Fault Refusal :=
  s.compareVex 8 128 e reg rm

/-- VPCMPEQW xmm1, xmm2, xmm3/m128 (R142). -/
def execVpcmpeqwXmm (e : VexEnc) (reg : BitVec 3) (rm : RmField) (s : State) : Host.Outcome State Fault Refusal :=
  s.compareVex 16 128 e reg rm

/-- VPCMPEQD xmm1, xmm2, xmm3/m128 (R143). -/
def execVpcmpeqdXmm (e : VexEnc) (reg : BitVec 3) (rm : RmField) (s : State) : Host.Outcome State Fault Refusal :=
  s.compareVex 32 128 e reg rm

/-- VPCMPEQB ymm1, ymm2, ymm3/m256 (R144). -/
def execVpcmpeqbYmm (e : VexEnc) (reg : BitVec 3) (rm : RmField) (s : State) : Host.Outcome State Fault Refusal :=
  s.compareVex 8 256 e reg rm

/-- VPCMPEQW ymm1, ymm2, ymm3/m256 (R145). -/
def execVpcmpeqwYmm (e : VexEnc) (reg : BitVec 3) (rm : RmField) (s : State) : Host.Outcome State Fault Refusal :=
  s.compareVex 16 256 e reg rm

/-- VPCMPEQD ymm1, ymm2, ymm3/m256 (R146). -/
def execVpcmpeqdYmm (e : VexEnc) (reg : BitVec 3) (rm : RmField) (s : State) : Host.Outcome State Fault Refusal :=
  s.compareVex 32 256 e reg rm

end Sys2Proof.Machine
end

