-- ==== Sys2Proof/Machine/Dispatch.lean ====
section
/-! DEFINITION. What each instruction does: one arm per row of spec/opcode_table.json (R5). -/

namespace Sys2Proof.Machine

def exec (i : Instr) (s : State) : Host.Outcome State Fault Refusal :=
  match i with
  | .pcmpeqbMm e reg rm => Sys2Proof.Machine.execPcmpeqbMm e reg rm s
  | .pcmpeqbXmm e reg rm => Sys2Proof.Machine.execPcmpeqbXmm e reg rm s
  | .pcmpeqwMm e reg rm => Sys2Proof.Machine.execPcmpeqwMm e reg rm s
  | .pcmpeqwXmm e reg rm => Sys2Proof.Machine.execPcmpeqwXmm e reg rm s
  | .pcmpeqdMm e reg rm => Sys2Proof.Machine.execPcmpeqdMm e reg rm s
  | .pcmpeqdXmm e reg rm => Sys2Proof.Machine.execPcmpeqdXmm e reg rm s
  | .vpcmpeqbXmm e reg rm => Sys2Proof.Machine.execVpcmpeqbXmm e reg rm s
  | .vpcmpeqwXmm e reg rm => Sys2Proof.Machine.execVpcmpeqwXmm e reg rm s
  | .vpcmpeqdXmm e reg rm => Sys2Proof.Machine.execVpcmpeqdXmm e reg rm s
  | .vpcmpeqbYmm e reg rm => Sys2Proof.Machine.execVpcmpeqbYmm e reg rm s
  | .vpcmpeqwYmm e reg rm => Sys2Proof.Machine.execVpcmpeqwYmm e reg rm s
  | .vpcmpeqdYmm e reg rm => Sys2Proof.Machine.execVpcmpeqdYmm e reg rm s
  | .vpcmpeqdK128 e reg rm => Sys2Proof.Machine.execVpcmpeqdK128 e reg rm s
  | .vpcmpeqdK256 e reg rm => Sys2Proof.Machine.execVpcmpeqdK256 e reg rm s
  | .vpcmpeqdK512 e reg rm => Sys2Proof.Machine.execVpcmpeqdK512 e reg rm s
  | .vpcmpeqbK128 e reg rm => Sys2Proof.Machine.execVpcmpeqbK128 e reg rm s
  | .vpcmpeqbK256 e reg rm => Sys2Proof.Machine.execVpcmpeqbK256 e reg rm s
  | .vpcmpeqbK512 e reg rm => Sys2Proof.Machine.execVpcmpeqbK512 e reg rm s
  | .vpcmpeqwK128 e reg rm => Sys2Proof.Machine.execVpcmpeqwK128 e reg rm s
  | .vpcmpeqwK256 e reg rm => Sys2Proof.Machine.execVpcmpeqwK256 e reg rm s
  | .vpcmpeqwK512 e reg rm => Sys2Proof.Machine.execVpcmpeqwK512 e reg rm s

end Sys2Proof.Machine
end

