-- ==== Sys2Proof/Machine/Step.lean ====
section
/-! DEFINITION. One step (R16): decode the instruction at `pc` and run it. -/

namespace Sys2Proof.Machine

/-- One step (R16, R92). A launch that is not admitted takes none; otherwise the instruction whose bytes the program text
holds at `pc` is decoded, and runs, raises #UD (R89), or is refused. Bytes among which no instruction ends are refused as too
long when 15 of them stand there, and as not held by the program text otherwise (notes/assumptions/25.md, 16.md). -/
def step (s : State) : Host.Outcome State Fault Refusal :=
  match s.launchRefusal with
  | some r => .refused r
  | none =>
    match decode s.mode s.fetch with
    | .form i => exec i s
    | .invalidOpcode => raise .invalidOpcode s
    | .refused r => .refused (.encoding r)
    | .notThisFamily => .refused .notThisFamily
    | .truncated => if s.fetch.length = maxLength then .refused .tooLong else .refused .noProgramText

/-- The state with the instruction that a word of spec/opcode_table.json stands for in the program text at `pc`, so that the
next step runs it (notes/assumptions/9.md, notes/assumptions/17.md). -/
def State.withFetchWord (s : State) (nbits w : Nat) : State := s.loadText (tableBytes nbits w)

end Sys2Proof.Machine
end

