-- ==== Sys2Proof/Safety.lean ====
section
/-! DEFINITION. The terms claims are stated in: the parts of an instruction, when a form may execute, and the invariant of
a run. -/

namespace Sys2Proof

/-- The `ModRM:r/m` operand of an instruction (R50, R93). -/
def Instr.rm : Instr → RmField
  | .pcmpeqbMm _ _ rm => rm
  | .pcmpeqbXmm _ _ rm => rm
  | .pcmpeqwMm _ _ rm => rm
  | .pcmpeqwXmm _ _ rm => rm
  | .pcmpeqdMm _ _ rm => rm
  | .pcmpeqdXmm _ _ rm => rm
  | .vpcmpeqbXmm _ _ rm => rm
  | .vpcmpeqwXmm _ _ rm => rm
  | .vpcmpeqdXmm _ _ rm => rm
  | .vpcmpeqbYmm _ _ rm => rm
  | .vpcmpeqwYmm _ _ rm => rm
  | .vpcmpeqdYmm _ _ rm => rm
  | .vpcmpeqdK128 _ _ rm => rm
  | .vpcmpeqdK256 _ _ rm => rm
  | .vpcmpeqdK512 _ _ rm => rm
  | .vpcmpeqbK128 _ _ rm => rm
  | .vpcmpeqbK256 _ _ rm => rm
  | .vpcmpeqbK512 _ _ rm => rm
  | .vpcmpeqwK128 _ _ rm => rm
  | .vpcmpeqwK256 _ _ rm => rm
  | .vpcmpeqwK512 _ _ rm => rm

/-- The bytes that R77 admits before an instruction's REX, opcode, VEX or EVEX prefix. -/
def Instr.pre : Instr → List LegacyByte
  | .pcmpeqbMm e _ _ => e.pre
  | .pcmpeqbXmm e _ _ => e.pre
  | .pcmpeqwMm e _ _ => e.pre
  | .pcmpeqwXmm e _ _ => e.pre
  | .pcmpeqdMm e _ _ => e.pre
  | .pcmpeqdXmm e _ _ => e.pre
  | .vpcmpeqbXmm e _ _ => e.pre
  | .vpcmpeqwXmm e _ _ => e.pre
  | .vpcmpeqdXmm e _ _ => e.pre
  | .vpcmpeqbYmm e _ _ => e.pre
  | .vpcmpeqwYmm e _ _ => e.pre
  | .vpcmpeqdYmm e _ _ => e.pre
  | .vpcmpeqdK128 e _ _ => e.pre
  | .vpcmpeqdK256 e _ _ => e.pre
  | .vpcmpeqdK512 e _ _ => e.pre
  | .vpcmpeqbK128 e _ _ => e.pre
  | .vpcmpeqbK256 e _ _ => e.pre
  | .vpcmpeqbK512 e _ _ => e.pre
  | .vpcmpeqwK128 e _ _ => e.pre
  | .vpcmpeqwK256 e _ _ => e.pre
  | .vpcmpeqwK512 e _ _ => e.pre

/-- The three MMX-register forms (R120). -/
def Instr.isMmx : Instr → Bool
  | .pcmpeqbMm _ _ _ => true
  | .pcmpeqbXmm _ _ _ => false
  | .pcmpeqwMm _ _ _ => true
  | .pcmpeqwXmm _ _ _ => false
  | .pcmpeqdMm _ _ _ => true
  | .pcmpeqdXmm _ _ _ => false
  | .vpcmpeqbXmm _ _ _ => false
  | .vpcmpeqwXmm _ _ _ => false
  | .vpcmpeqdXmm _ _ _ => false
  | .vpcmpeqbYmm _ _ _ => false
  | .vpcmpeqwYmm _ _ _ => false
  | .vpcmpeqdYmm _ _ _ => false
  | .vpcmpeqdK128 _ _ _ => false
  | .vpcmpeqdK256 _ _ _ => false
  | .vpcmpeqdK512 _ _ _ => false
  | .vpcmpeqbK128 _ _ _ => false
  | .vpcmpeqbK256 _ _ _ => false
  | .vpcmpeqbK512 _ _ _ => false
  | .vpcmpeqwK128 _ _ _ => false
  | .vpcmpeqwK256 _ _ _ => false
  | .vpcmpeqwK512 _ _ _ => false

/-- The legacy XMM forms, whose memory operand must be aligned (R54). -/
def Instr.isXmm : Instr → Bool
  | .pcmpeqbMm _ _ _ => false
  | .pcmpeqbXmm _ _ _ => true
  | .pcmpeqwMm _ _ _ => false
  | .pcmpeqwXmm _ _ _ => true
  | .pcmpeqdMm _ _ _ => false
  | .pcmpeqdXmm _ _ _ => true
  | .vpcmpeqbXmm _ _ _ => false
  | .vpcmpeqwXmm _ _ _ => false
  | .vpcmpeqdXmm _ _ _ => false
  | .vpcmpeqbYmm _ _ _ => false
  | .vpcmpeqwYmm _ _ _ => false
  | .vpcmpeqdYmm _ _ _ => false
  | .vpcmpeqdK128 _ _ _ => false
  | .vpcmpeqdK256 _ _ _ => false
  | .vpcmpeqdK512 _ _ _ => false
  | .vpcmpeqbK128 _ _ _ => false
  | .vpcmpeqbK256 _ _ _ => false
  | .vpcmpeqbK512 _ _ _ => false
  | .vpcmpeqwK128 _ _ _ => false
  | .vpcmpeqwK256 _ _ _ => false
  | .vpcmpeqwK512 _ _ _ => false

/-- The EVEX forms, whose destination is an opmask register (R150). -/
def Instr.isEvex : Instr → Bool
  | .pcmpeqbMm _ _ _ => false
  | .pcmpeqbXmm _ _ _ => false
  | .pcmpeqwMm _ _ _ => false
  | .pcmpeqwXmm _ _ _ => false
  | .pcmpeqdMm _ _ _ => false
  | .pcmpeqdXmm _ _ _ => false
  | .vpcmpeqbXmm _ _ _ => false
  | .vpcmpeqwXmm _ _ _ => false
  | .vpcmpeqdXmm _ _ _ => false
  | .vpcmpeqbYmm _ _ _ => false
  | .vpcmpeqwYmm _ _ _ => false
  | .vpcmpeqdYmm _ _ _ => false
  | .vpcmpeqdK128 _ _ _ => true
  | .vpcmpeqdK256 _ _ _ => true
  | .vpcmpeqdK512 _ _ _ => true
  | .vpcmpeqbK128 _ _ _ => true
  | .vpcmpeqbK256 _ _ _ => true
  | .vpcmpeqbK512 _ _ _ => true
  | .vpcmpeqwK128 _ _ _ => true
  | .vpcmpeqwK256 _ _ _ => true
  | .vpcmpeqwK512 _ _ _ => true

/-- What the address of an instruction's memory operand depends on besides its ModR/M, SIB and displacement (R75, R84). -/
def Instr.addressEnc : Instr → AddressEnc
  | .pcmpeqbMm e _ _ => e.address
  | .pcmpeqbXmm e _ _ => e.address
  | .pcmpeqwMm e _ _ => e.address
  | .pcmpeqwXmm e _ _ => e.address
  | .pcmpeqdMm e _ _ => e.address
  | .pcmpeqdXmm e _ _ => e.address
  | .vpcmpeqbXmm e _ _ => e.address
  | .vpcmpeqwXmm e _ _ => e.address
  | .vpcmpeqdXmm e _ _ => e.address
  | .vpcmpeqbYmm e _ _ => e.address
  | .vpcmpeqwYmm e _ _ => e.address
  | .vpcmpeqdYmm e _ _ => e.address
  | .vpcmpeqdK128 e _ _ => e.address 128
  | .vpcmpeqdK256 e _ _ => e.address 256
  | .vpcmpeqdK512 e _ _ => e.address 512
  | .vpcmpeqbK128 e _ _ => e.address 128
  | .vpcmpeqbK256 e _ _ => e.address 256
  | .vpcmpeqbK512 e _ _ => e.address 512
  | .vpcmpeqwK128 e _ _ => e.address 128
  | .vpcmpeqwK256 e _ _ => e.address 256
  | .vpcmpeqwK512 e _ _ => e.address 512

/-- The operand has a SIB byte (R75). -/
def RmField.hasSib : RmField → Bool
  | .reg _ => false
  | .mem (.base _ _) => false
  | .mem (.relative _) => false
  | .mem (.sib _ _ _ _) => true
  | .mem (.sibNoBase _ _ _) => true

/-- How many bytes an instruction reads when its operand is memory (R50, R55): 4 for a broadcast. -/
def Instr.operandBytes : Instr → Nat
  | .pcmpeqbMm _ _ _ => 8
  | .pcmpeqbXmm _ _ _ => 16
  | .pcmpeqwMm _ _ _ => 8
  | .pcmpeqwXmm _ _ _ => 16
  | .pcmpeqdMm _ _ _ => 8
  | .pcmpeqdXmm _ _ _ => 16
  | .vpcmpeqbXmm _ _ _ => 16
  | .vpcmpeqwXmm _ _ _ => 16
  | .vpcmpeqdXmm _ _ _ => 16
  | .vpcmpeqbYmm _ _ _ => 32
  | .vpcmpeqwYmm _ _ _ => 32
  | .vpcmpeqdYmm _ _ _ => 32
  | .vpcmpeqdK128 e _ rm => if e.bcst && rm.isMem then 4 else 16
  | .vpcmpeqdK256 e _ rm => if e.bcst && rm.isMem then 4 else 32
  | .vpcmpeqdK512 e _ rm => if e.bcst && rm.isMem then 4 else 64
  | .vpcmpeqbK128 e _ rm => if e.bcst && rm.isMem then 4 else 16
  | .vpcmpeqbK256 e _ rm => if e.bcst && rm.isMem then 4 else 32
  | .vpcmpeqbK512 e _ rm => if e.bcst && rm.isMem then 4 else 64
  | .vpcmpeqwK128 e _ rm => if e.bcst && rm.isMem then 4 else 16
  | .vpcmpeqwK256 e _ rm => if e.bcst && rm.isMem then 4 else 32
  | .vpcmpeqwK512 e _ rm => if e.bcst && rm.isMem then 4 else 64

end Sys2Proof

namespace Sys2Proof.Machine

/-! ### Values -/

/-- Lane by lane, `r` is all ones where `a` and `b` are equal and all zeros where they differ (R111). -/
def IsEqLanes (w : Nat) {L : Nat} (r a b : BitVec L) : Prop :=
  ∀ j < L / w, lane w r j = if lane w a j = lane w b j then BitVec.allOnes w else 0#w

/-- Byte `k` of the value is the `k`-th byte of the list (R53). -/
def IsLittleEndian {L : Nat} (val : BitVec L) (bs : List Byte) : Prop := ∀ k < L / 8, bs[k]? = some (lane 8 val k)

/-- The whole of x87 data register `n`, whose bits 63:0 are `MM[n]` (R28). -/
def State.x87Reg (s : State) (n : BitVec 3) : X87Word := s.x87[n.toNat]

/-- Two answers of `Translate` that differ at most in the values of the bytes they give (R58). -/
def Answer.SameButBytes (a a' : Answer) : Prop :=
  a = a' ∨ ∃ bs bs' : List Byte, a = .bytes bs ∧ a' = .bytes bs' ∧ bs.length = bs'.length

/-! ### The second source, as the rules say it -/

/-- What `Translate` is asked for a memory operand of `n` bytes (R58). -/
def State.operandQuery (s : State) (p : AddressEnc) (len : Nat) (m : MemField) (n : Nat) : Query :=
  ⟨p.seg m, s.effectiveAddress p (s.pcNext len) m, n, s.cpl, s.mode⟩

/-- What `Translate` is asked when the instruction executes, if its operand is memory (R50, R58). -/
def State.memoryQuery (s : State) (i : Instr) : Option Query :=
  match i.rm with
  | .reg _ => none
  | .mem m => some (s.operandQuery i.addressEnc i.length m i.operandBytes)

/-- The linear address of the instruction's operand is not what a legacy XMM form requires (R54). -/
def State.Misaligned (s : State) (i : Instr) : Prop :=
  match i.rm with
  | .reg _ => False
  | .mem m => i.isXmm = true ∧ (s.operandLinear i.addressEnc i.length m).toNat % 16 ≠ 0

/-- `src` is the `mm/m64` operand (R120). -/
def State.MmxOperand (s : State) (e : LegacyEnc) (rm : RmField) (src : BitVec 64) : Prop :=
  match rm with
  | .reg r => src = s.mm r
  | .mem m => ∃ bs, s.translate (s.operandQuery e.address (legacyLength e rm) m 8) = .bytes bs ∧ IsLittleEndian src bs

/-- `src` is the `xmm2/m128` operand, which in memory is 16-byte aligned (R54, R130). -/
def State.XmmOperand (s : State) (e : LegacyEnc) (rm : RmField) (src : BitVec 128) : Prop :=
  match rm with
  | .reg r => src = s.vec 128 (vecNum4 e.b r)
  | .mem m =>
    (s.operandLinear e.address (legacyLength e rm) m).toNat % 16 = 0 ∧
      ∃ bs, s.translate (s.operandQuery e.address (legacyLength e rm) m 16) = .bytes bs ∧ IsLittleEndian src bs

/-- `src` is the third operand of a VEX form, a register or `vl/8` bytes of memory (R140). -/
def State.VexOperand (s : State) (vl : Nat) (e : VexEnc) (rm : RmField) (src : BitVec vl) : Prop :=
  match rm with
  | .reg r => src = s.vec vl (vecNum4 e.vex.b r)
  | .mem m =>
    ∃ bs, s.translate (s.operandQuery e.address (vexLength e rm) m (vl / 8)) = .bytes bs ∧ IsLittleEndian src bs

/-- `src` is the third operand of an EVEX form: a register, `vl/8` bytes of memory, or with `EVEX.b = 1` four bytes of
memory in every doubleword lane (R55, R150). -/
def State.EvexOperand (s : State) (vl : Nat) (e : EvexEnc) (rm : RmField) (src : BitVec vl) : Prop :=
  match rm with
  | .reg r => src = s.vec vl (e.src2 r)
  | .mem m =>
    if e.bcst = true then
      ∃ (bs : List Byte) (d : BitVec 32),
        s.translate (s.operandQuery (EvexEnc.address vl e) (evexLength e rm) m 4) = .bytes bs ∧ IsLittleEndian d bs ∧
          ∀ j < vl / 32, lane 32 src j = d
    else
      ∃ bs, s.translate (s.operandQuery (EvexEnc.address vl e) (evexLength e rm) m (vl / 8)) = .bytes bs ∧
        IsLittleEndian src bs

/-! ### Frames -/

/-- Everything the forms do not write is as it was (R20): the parameters, the general and segment registers, flags, MXCSR,
the control registers and CR2, and every byte of memory and of the program text. -/
structure State.SameRest (s t : State) : Prop where
  config : t.config = s.config
  mode : t.mode = s.mode
  x87Pending : t.x87Pending = s.x87Pending
  x : t.x = s.x
  eflags : t.eflags = s.eflags
  mxcsr : t.mxcsr = s.mxcsr
  cr0 : t.cr0 = s.cr0
  cr2 : t.cr2 = s.cr2
  cr4 : t.cr4 = s.cr4
  xcr0 : t.xcr0 = s.xcr0
  cpl : t.cpl = s.cpl
  segs : t.segs = s.segs
  breakpointArmed : t.breakpointArmed = s.breakpointArmed
  oracle : t.oracle = s.oracle
  mem : ∀ a, t.mem.read a = s.mem.read a
  text : ∀ a, t.text.read a = s.text.read a

/-- The x87 registers, status word and tag word are as they were (R28: only MMX forms touch them). -/
structure State.SameX87 (s t : State) : Prop where
  regs : ∀ n, t.x87Reg n = s.x87Reg n
  status : t.x87sw = s.x87sw
  tags : t.x87tw = s.x87tw

/-! ### Completion: a next state, what it holds, and what it keeps -/

/-- The instruction completes and writes `MM[d] <- EqLanes(w, 64/w, MM[d], src)` with the x87 side effects (R120): bits
79:64 all ones, TOP 0 with the other status bits kept, every tag valid; nothing else changes but `pc`. -/
def State.CompletesMmx (s : State) (i : Instr) (len w : Nat) (d : BitVec 3) (src : BitVec 64) : Prop :=
  ∃ t, exec i s = .next t ∧
    IsEqLanes w (t.mm d) (s.mm d) src ∧
    (t.x87Reg d).extractLsb' 64 16 = 0xFFFF#16 ∧
    (∀ n, n ≠ d → t.x87Reg n = s.x87Reg n) ∧
    t.x87sw.extractLsb' 11 3 = 0#3 ∧ (∀ b, b < 11 ∨ 14 ≤ b → t.x87sw.getLsbD b = s.x87sw.getLsbD b) ∧
    t.x87tw = 0#16 ∧
    (∀ n, t.vec 512 n = s.vec 512 n) ∧ (∀ n, t.opmask n = s.opmask n) ∧
    t.pc.toNat = s.pc.toNat + len ∧ s.SameRest t

/-- The instruction completes and writes `V[d][127:0] <- EqLanes(w, 128/w, V[d][127:0], src)`, keeping the bits above
(R130); nothing else changes but `pc`. -/
def State.CompletesXmm (s : State) (i : Instr) (len w : Nat) (d : BitVec 5) (src : BitVec 128) : Prop :=
  ∃ t, exec i s = .next t ∧
    IsEqLanes w (t.vec 128 d) (s.vec 128 d) src ∧
    (∀ b, 128 ≤ b → (t.vec 512 d).getLsbD b = (s.vec 512 d).getLsbD b) ∧
    (∀ n, n ≠ d → t.vec 512 n = s.vec 512 n) ∧ (∀ n, t.opmask n = s.opmask n) ∧ s.SameX87 t ∧
    t.pc.toNat = s.pc.toNat + len ∧ s.SameRest t

/-- The instruction completes and writes `V[d] <- zext(EqLanes(w, vl/w, src1, src2))`, 0 above bit `vl - 1` (R140); nothing
else changes but `pc`. -/
def State.CompletesVex (s : State) (i : Instr) (len w : Nat) {vl : Nat} (d : BitVec 5) (src1 src2 : BitVec vl) : Prop :=
  ∃ t, exec i s = .next t ∧
    IsEqLanes w (t.vec vl d) src1 src2 ∧
    (∀ b, vl ≤ b → (t.vec 512 d).getLsbD b = false) ∧
    (∀ n, n ≠ d → t.vec 512 n = s.vec 512 n) ∧ (∀ n, t.opmask n = s.opmask n) ∧ s.SameX87 t ∧
    t.pc.toNat = s.pc.toNat + len ∧ s.SameRest t

/-- The instruction completes and writes `K[d] <- zext(EqMask(w, vl/w, src1, src2) AND WM)`, where `WM` is all ones for
`aaa = 000b` and `K[aaa]` as it was before otherwise (R150); nothing else changes but `pc`. -/
def State.CompletesEvex (s : State) (i : Instr) (len w : Nat) {vl : Nat} (d aaa : BitVec 3) (src1 src2 : BitVec vl) :
    Prop :=
  ∃ t, exec i s = .next t ∧
    (∀ j < vl / w, (t.opmask d).getLsbD j = true ↔
      lane w src1 j = lane w src2 j ∧ (aaa = 0#3 ∨ (s.opmask aaa).getLsbD j = true)) ∧
    (∀ j, vl / w ≤ j → (t.opmask d).getLsbD j = false) ∧
    (∀ n, n ≠ d → t.opmask n = s.opmask n) ∧ (∀ n, t.vec 512 n = s.vec 512 n) ∧ s.SameX87 t ∧
    t.pc.toNat = s.pc.toNat + len ∧ s.SameRest t

end Sys2Proof.Machine

namespace Sys2Proof.Machine

/-- The #UD conditions of an instruction that are not in its encoding (R172 to R176). -/
def State.udInstr (s : State) : Instr → Bool
  | .pcmpeqbMm _ _ _ => s.udMmx
  | .pcmpeqbXmm _ _ _ => s.udXmm
  | .pcmpeqwMm _ _ _ => s.udMmx
  | .pcmpeqwXmm _ _ _ => s.udXmm
  | .pcmpeqdMm _ _ _ => s.udMmx
  | .pcmpeqdXmm _ _ _ => s.udXmm
  | .vpcmpeqbXmm _ _ _ => s.udVex 128
  | .vpcmpeqwXmm _ _ _ => s.udVex 128
  | .vpcmpeqdXmm _ _ _ => s.udVex 128
  | .vpcmpeqbYmm _ _ _ => s.udVex 256
  | .vpcmpeqwYmm _ _ _ => s.udVex 256
  | .vpcmpeqdYmm _ _ _ => s.udVex 256
  | .vpcmpeqdK128 e _ rm => s.udEvexForm 32 128 e rm
  | .vpcmpeqdK256 e _ rm => s.udEvexForm 32 256 e rm
  | .vpcmpeqdK512 e _ rm => s.udEvexForm 32 512 e rm
  | .vpcmpeqbK128 e _ rm => s.udEvexForm 8 128 e rm
  | .vpcmpeqbK256 e _ rm => s.udEvexForm 8 256 e rm
  | .vpcmpeqbK512 e _ rm => s.udEvexForm 8 512 e rm
  | .vpcmpeqwK128 e _ rm => s.udEvexForm 16 128 e rm
  | .vpcmpeqwK256 e _ rm => s.udEvexForm 16 256 e rm
  | .vpcmpeqwK512 e _ rm => s.udEvexForm 16 512 e rm

/-! ### When a form completes (R212) -/

/-- A step over an instruction of `len` bytes is one the model takes: an admitted mode, alignment checking off, no single
step, no armed breakpoint, and code where code may be (R10, R25, R54, R194). -/
structure State.Admits (s : State) (len : Nat) : Prop where
  mode_admitted : s.mode = .mode64 ∨ s.mode = .mode32
  alignment_off : ¬ (s.am = true ∧ s.ac = true ∧ s.cpl = 3#2)
  no_single_step : s.tf = false
  no_breakpoint : s.breakpointArmed = false
  code_fits : ∀ j ≤ len, s.codeAddress (s.pc.toNat + j) = true

/-- The MMX forms execute (R176, R212). -/
structure State.MmxReady (s : State) : Prop where
  em_clear : s.em = false
  feature : s.config.features.mmx = true
  ts_clear : s.ts = false
  no_x87_pending : s.x87Pending = false

/-- The legacy XMM forms execute (R172, R212). -/
structure State.XmmReady (s : State) : Prop where
  em_clear : s.em = false
  osfxsr_set : s.osfxsr = true
  feature : s.config.features.sse2 = true
  ts_clear : s.ts = false

/-- The VEX forms of vector length `vl` execute (R173, R212): AVX at 128 bits, AVX2 at 256. -/
structure State.VexReady (s : State) (vl : Nat) : Prop where
  osxsave_set : s.osxsave = true
  xcr0_sse_avx : s.xcr0.getLsbD 1 = true ∧ s.xcr0.getLsbD 2 = true
  feature : (if vl = 128 then s.config.features.avx else s.config.features.avx2) = true
  width : vl ≤ s.config.maxVl.bits
  ts_clear : s.ts = false

/-- The EVEX form of element width `w` and vector length `vl` with this encoding and operand executes (R174, R212), the
vector registers it names among those the configuration has: all 32 with AVX512F, 0 to 15 without (R11; log 20). -/
structure State.EvexReady (s : State) (w vl : Nat) (e : EvexEnc) (rm : RmField) : Prop where
  osxsave_set : s.osxsave = true
  xcr0_sse_avx : s.xcr0.getLsbD 1 = true ∧ s.xcr0.getLsbD 2 = true
  xcr0_avx512 : s.xcr0.getLsbD 5 = true ∧ s.xcr0.getLsbD 6 = true ∧ s.xcr0.getLsbD 7 = true
  feature : (if w = 32 then s.config.features.avx512f else s.config.features.avx512bw) = true
  feature_vl : vl = 512 ∨ s.config.features.avx512vl = true
  width : vl ≤ s.config.maxVl.bits
  mask_width : vl / w ≤ s.config.maxKl
  ts_clear : s.ts = false
  source1_exists : s.config.features.avx512f = true ∨ e.src1.toNat < 16
  source2_exists : ∀ r, rm = .reg r → s.config.features.avx512f = true ∨ (e.src2 r).toNat < 16

/-! ### The invariant of a run -/

/-- What every step keeps: both memories in canonical form, no register bit beyond `MAXVL` or `MAX_KL` (R7, R8, R22, R23), no
vector register beyond the 16 there are without AVX512F (R11), a mode the spec admits (R10), and `pc` where code may be
(R25). -/
structure State.Inv (s : State) : Prop where
  mem_wf : s.mem.wf = true
  text_wf : s.text.wf = true
  mode_admitted : s.mode = .mode64 ∨ s.mode = .mode32
  v_fits : ∀ n : Fin 32, ∀ j : Nat, s.config.maxVl.bits ≤ j → (s.v[n]).getLsbD j = false
  v_exists : s.config.features.avx512f = false → ∀ n : Fin 32, 16 ≤ n.val → s.v[n] = 0#512
  k_fits : ∀ n : Fin 8, ∀ j : Nat, s.config.maxKl ≤ j → (s.k[n]).getLsbD j = false
  pc_ok : s.codeAddress s.pc.toNat = true

/-! ### Runs -/

/-- The outcome is a next state with the property. -/
def nextSatisfies (o : Host.Outcome State Fault Refusal) (p : State → Bool) : Bool :=
  match o with
  | .next t => p t
  | .fault _ => false
  | .refused _ => false

/-- The fault an outcome is, if it is one. -/
def faultOf (o : Host.Outcome State Fault Refusal) : Option Fault :=
  match o with
  | .next _ => none
  | .fault f => some f
  | .refused _ => none

/-- The reason an outcome refuses, if it does. -/
def refusalOf (o : Host.Outcome State Fault Refusal) : Option Refusal :=
  match o with
  | .next _ => none
  | .fault _ => none
  | .refused r => some r

end Sys2Proof.Machine
end

