-- ==== Sys2Proof/Certificates/Slice0/Obligations.lean ====
section
/-! DEFINITION. The statements for the provers. OBLIGATIONS.json says which rule or section each one comes from; where one
rests on a choice of the model its docstring names the log entry (notes/assumptions). -/

open Sys2Proof Sys2Proof.Machine

/-! ### Reset, launch and one step -/

/-- The state after reset meets the invariant of a run. The reset values are the model's choice (logs 2 and 3). -/
def Obligations.ResetMeetsInvariant : Prop := State.reset.Inv

/-- After reset every form is enabled and a step over any instruction is admitted: reset is the reference launch, the
model's choice (log 2). -/
def Obligations.ResetEnablesEveryForm : Prop :=
  State.reset.Admits maxLength ∧ State.reset.MmxReady ∧ State.reset.XmmReady ∧ State.reset.VexReady 128 ∧
    State.reset.VexReady 256 ∧
    ∀ w vl e rm, w ∈ [8, 16, 32] → vl ∈ [128, 256, 512] → State.reset.EvexReady w vl e rm

/-- When the launch is admitted and the bytes at `pc` decode to an instruction, a step is that instruction's meaning in the
same state, whether it completes, faults or is refused because the next `pc` leaves the code range: the step adds nothing
around it. -/
def Obligations.StepRunsDecodedInstruction : Prop :=
  ∀ (s : State) (i : Instr), s.Admits 0 → decode s.mode s.fetch = .form i → step s = exec i s

/-- When the program text holds the encoding of a well-formed instruction at `pc`, every byte where code may be, whatever
follows it and wherever the next `pc` is, a step is that instruction's meaning (R63). -/
def Obligations.StepRunsInstructionHeldAtPc : Prop :=
  ∀ (s : State) (i : Instr), i.ok s.mode = true → s.Admits 0 →
    (∀ k < i.length, s.codeAddress (s.pc.toNat + k) = true) →
    (∀ k < i.length, s.text.read (s.pc.toNat + k) = (encode i)[k]?) → step s = exec i s

/-- What a step does with bytes that are no form (R92): #UD with the state unchanged, or a refusal. Bytes among which no
instruction ends are the model's choice: too long where 15 stand at `pc` (log 25), else not held by the program text
(log 16). -/
def Obligations.StepOnOtherBytes : Prop :=
  ∀ s : State, s.Admits 0 →
    (decode s.mode s.fetch = .invalidOpcode → step s = .fault (.invalidOpcode s)) ∧
    (∀ r, decode s.mode s.fetch = .refused r → step s = .refused (.encoding r)) ∧
    (decode s.mode s.fetch = .notThisFamily → step s = .refused .notThisFamily) ∧
    (decode s.mode s.fetch = .truncated →
      (s.fetch.length < 15 → step s = .refused .noProgramText) ∧ (15 ≤ s.fetch.length → step s = .refused .tooLong))

/-- Launches the spec does not admit take no step: another mode (R10), alignment checking on (R54), single step or an armed
breakpoint (R194). -/
def Obligations.UnadmittedLaunchTakesNoStep : Prop :=
  ∀ s : State,
    ((s.mode ≠ .mode64 ∧ s.mode ≠ .mode32) ∨
      (s.cr0.getLsbD 18 = true ∧ s.eflags.getLsbD 18 = true ∧ s.cpl = 3#2) ∨
      s.eflags.getLsbD 8 = true ∨ s.breakpointArmed = true) →
    (∃ r, step s = .refused r) ∧ ∀ i, ∃ r, exec i s = .refused r

/-- An instruction one of whose bytes, or the `pc` after it, is not where code may be is refused, and so is a step that
decodes it (R25; the check comes before every other, log 10 and log 14). -/
def Obligations.CodeOutsideItsRangeIsRefused : Prop :=
  ∀ (s : State) (i : Instr) (j : Nat), s.Admits 0 → j ≤ i.length → s.codeAddress (s.pc.toNat + j) = false →
    exec i s = .refused .codeAddress ∧ (decode s.mode s.fetch = .form i → step s = .refused .codeAddress)

/-- Where code may be: below 2^32 in Mode32; in 64-bit mode on a processor with 48-bit linear addresses the addresses
whose bits 63 to 47 are all equal (R25, R57). -/
def Obligations.CodeAddressesAreCanonical : Prop :=
  ∀ (s : State) (a : Word64),
    (s.mode = .mode32 → (s.codeAddress a.toNat = true ↔ a.toNat < 2 ^ 32)) ∧
    (s.mode = .mode64 → s.config.linearBits = 48 →
      (s.codeAddress a.toNat = true ↔ a.extractLsb' 47 17 = 0#17 ∨ a.extractLsb' 47 17 = BitVec.allOnes 17)) ∧
    (∀ n, 2 ^ 64 ≤ n → s.codeAddress n = false)

/-- Every step keeps the invariant: both memories in canonical form, no register bit beyond `MAXVL` or `MAX_KL`, nothing in
vector registers 16 to 31 without AVX512F (R11; that they are held at all is log 20), an admitted mode, and `pc` where code
may be. -/
def Obligations.StepKeepsInvariant : Prop := ∀ s t : State, s.Inv → step s = .next t → t.Inv

/-- A run of the machine's own steps leaves memory and the program text as they were, byte for byte (R51). -/
def Obligations.RunLeavesMemoryUnchanged : Prop :=
  ∀ (n : Nat) (s t : State), core.run n s = .next t →
    (∀ a, t.mem.read a = s.mem.read a) ∧ (∀ a, t.text.read a = s.text.read a)

/-- What one step leaves as it was (R20, R24, R29, R30, R32, R36): everything but `pc` and the registers of the
destination's class. A step over an MMX form keeps every vector and opmask register; over a legacy XMM or a VEX form every
x87 register, the x87 status and tag words and every opmask register; over an EVEX form the x87 state and every vector
register. -/
def Obligations.StepKeepsRest : Prop :=
  ∀ s t : State, step s = .next t → s.SameRest t ∧
    ∃ i, decode s.mode s.fetch = .form i ∧
      (i.isMmx = true → t.v = s.v ∧ t.k = s.k) ∧
      (i.isMmx = false → i.isEvex = false → t.x87 = s.x87 ∧ t.x87sw = s.x87sw ∧ t.x87tw = s.x87tw ∧ t.k = s.k) ∧
      (i.isEvex = true → t.x87 = s.x87 ∧ t.x87sw = s.x87sw ∧ t.x87tw = s.x87tw ∧ t.v = s.v)

/-- A step that completes moves `pc` past the instruction it decoded, without wrapping; no form sets `pc` otherwise
(R25). -/
def Obligations.StepAdvancesPcByLength : Prop :=
  ∀ s t : State, step s = .next t →
    ∃ i, decode s.mode s.fetch = .form i ∧ t.pc.toNat = s.pc.toNat + (encode i).length

/-! ### Lane-wise equality (R110 to R116) -/

/-- Every lane of `EqLanes` is all ones where the lanes are equal and all zeros otherwise. -/
def Obligations.EqLanesMarksEqualLanes : Prop :=
  ∀ (w n : Nat) (a b : BitVec (w * n)) (j : Nat), j < n →
    lane w (eqLanes w a b) j = if lane w a j = lane w b j then BitVec.allOnes w else 0#w

/-- Bit `j` of `EqMask` is 1 exactly where lane `j` is equal, that is where lane `j` of `EqLanes` is all ones, that is
where it is nonzero. -/
def Obligations.EqMaskMarksEqualLanes : Prop :=
  ∀ (w n : Nat) (a b : BitVec (w * n)) (j : Nat), 0 < w → j < n →
    ((eqMask w a b).getLsbD j = true ↔ lane w a j = lane w b j) ∧
    (lane w (eqLanes w a b) j = BitVec.allOnes w ↔ (eqMask w a b).getLsbD j = true) ∧
    (lane w (eqLanes w a b) j ≠ 0#w ↔ (eqMask w a b).getLsbD j = true)

/-- The five laws: symmetry, reflexivity, no lane between all zeros and all ones, refinement across widths, and all ones
exactly for equal operands. -/
def Obligations.LaneEqualityLaws : Prop :=
  (∀ (w n : Nat) (a b : BitVec (w * n)), eqLanes w a b = eqLanes w b a ∧ eqMask w a b = eqMask w b a) ∧
  (∀ (w n : Nat) (a : BitVec (w * n)), 0 < w →
    eqLanes w a a = BitVec.allOnes (w * n) ∧ eqMask w a a = BitVec.allOnes (w * n / w)) ∧
  (∀ (w n : Nat) (a b : BitVec (w * n)) (j : Nat), j < n →
    lane w (eqLanes w a b) j = BitVec.allOnes w ∨ lane w (eqLanes w a b) j = 0#w) ∧
  (∀ (v c n : Nat) (a b : BitVec (v * c * n)) (j : Nat), 0 < v → 0 < c → j < n →
    (lane (v * c) a j = lane (v * c) b j ↔ ∀ i < c, lane v a (c * j + i) = lane v b (c * j + i)) ∧
    (lane (v * c) (eqLanes (v * c) a b) j = BitVec.allOnes (v * c) ↔
      ∀ i < c, lane v (eqLanes v a b) (c * j + i) = BitVec.allOnes v)) ∧
  (∀ (w n : Nat) (a b : BitVec (w * n)), 0 < w → (eqLanes w a b = BitVec.allOnes (w * n) ↔ a = b))

/-- A wide compare is the concatenation of narrower ones, at any split (R115). -/
def Obligations.EqLanesSplitsAnywhere : Prop :=
  ∀ (w n1 n2 : Nat) (aLo bLo : BitVec (w * n1)) (aHi bHi : BitVec (w * n2)),
    eqLanes w (aHi ++ aLo) (bHi ++ bLo) = eqLanes w aHi bHi ++ eqLanes w aLo bLo

/-- Equality is of bit patterns: lanes are equal exactly when all their bits agree, and exactly when they are equal as
unsigned, or as signed, integers; and a lane of the result, or a bit of the mask, depends on the same lane of the two inputs
and on nothing else (R113). -/
def Obligations.LaneEqualityIsOfBitPatterns : Prop :=
  ∀ (w n : Nat) (a b : BitVec (w * n)) (j : Nat), j < n →
    (lane w (eqLanes w a b) j = BitVec.allOnes w ↔
      ∀ k < w, a.getLsbD (w * j + k) = b.getLsbD (w * j + k)) ∧
    (lane w (eqLanes w a b) j = BitVec.allOnes w ↔ (lane w a j).toNat = (lane w b j).toNat) ∧
    (lane w (eqLanes w a b) j = BitVec.allOnes w ↔ (lane w a j).toInt = (lane w b j).toInt) ∧
    ∀ a' b' : BitVec (w * n), lane w a j = lane w a' j → lane w b j = lane w b' j →
      lane w (eqLanes w a b) j = lane w (eqLanes w a' b') j ∧
      (eqMask w a b).getLsbD j = (eqMask w a' b').getLsbD j

/-! ### What each form writes, that it completes, and what it leaves alone -/

/-- The three MMX forms complete with their result, whatever their second source is (R120 to R123). -/
def Obligations.MmxFormsComplete : Prop :=
  ∀ (s : State) (e : LegacyEnc) (reg : BitVec 3) (rm : RmField) (src : BitVec 64),
    s.Admits (legacyLength e rm) → s.MmxReady → s.MmxOperand e rm src →
    s.CompletesMmx (.pcmpeqbMm e reg rm) (legacyLength e rm) 8 reg src ∧
    s.CompletesMmx (.pcmpeqwMm e reg rm) (legacyLength e rm) 16 reg src ∧
    s.CompletesMmx (.pcmpeqdMm e reg rm) (legacyLength e rm) 32 reg src

/-- The three legacy XMM forms complete with their result and keep the upper bits of the destination (R130 to R133). -/
def Obligations.XmmFormsComplete : Prop :=
  ∀ (s : State) (e : LegacyEnc) (reg : BitVec 3) (rm : RmField) (src : BitVec 128),
    s.Admits (legacyLength e rm) → s.XmmReady → s.XmmOperand e rm src →
    s.CompletesXmm (.pcmpeqbXmm e reg rm) (legacyLength e rm) 8 (vecNum4 e.r reg) src ∧
    s.CompletesXmm (.pcmpeqwXmm e reg rm) (legacyLength e rm) 16 (vecNum4 e.r reg) src ∧
    s.CompletesXmm (.pcmpeqdXmm e reg rm) (legacyLength e rm) 32 (vecNum4 e.r reg) src

/-- The three VEX forms of 128 bits complete with their result and zero the rest of the destination (R140 to R143). -/
def Obligations.Vex128FormsComplete : Prop :=
  ∀ (s : State) (e : VexEnc) (reg : BitVec 3) (rm : RmField) (src : BitVec 128),
    s.Admits (vexLength e rm) → s.VexReady 128 → s.VexOperand 128 e rm src →
    s.CompletesVex (.vpcmpeqbXmm e reg rm) (vexLength e rm) 8 (vecNum4 e.vex.r reg) (s.vec 128 (0#1 ++ e.vex.vvvv)) src ∧
    s.CompletesVex (.vpcmpeqwXmm e reg rm) (vexLength e rm) 16 (vecNum4 e.vex.r reg) (s.vec 128 (0#1 ++ e.vex.vvvv)) src ∧
    s.CompletesVex (.vpcmpeqdXmm e reg rm) (vexLength e rm) 32 (vecNum4 e.vex.r reg) (s.vec 128 (0#1 ++ e.vex.vvvv)) src

/-- The three VEX forms of 256 bits complete with their result and zero the rest of the destination (R140, R144 to
R146). -/
def Obligations.Vex256FormsComplete : Prop :=
  ∀ (s : State) (e : VexEnc) (reg : BitVec 3) (rm : RmField) (src : BitVec 256),
    s.Admits (vexLength e rm) → s.VexReady 256 → s.VexOperand 256 e rm src →
    s.CompletesVex (.vpcmpeqbYmm e reg rm) (vexLength e rm) 8 (vecNum4 e.vex.r reg) (s.vec 256 (0#1 ++ e.vex.vvvv)) src ∧
    s.CompletesVex (.vpcmpeqwYmm e reg rm) (vexLength e rm) 16 (vecNum4 e.vex.r reg) (s.vec 256 (0#1 ++ e.vex.vvvv)) src ∧
    s.CompletesVex (.vpcmpeqdYmm e reg rm) (vexLength e rm) 32 (vecNum4 e.vex.r reg) (s.vec 256 (0#1 ++ e.vex.vvvv)) src

/-- The three EVEX VPCMPEQD forms complete with their mask, at every vector length, broadcast or not (R150 to R153). -/
def Obligations.EvexDoublewordFormsComplete : Prop :=
  ∀ (s : State) (e : EvexEnc) (reg : BitVec 3) (rm : RmField), s.Admits (evexLength e rm) →
    (∀ src : BitVec 128, s.EvexReady 32 128 e rm → s.EvexOperand 128 e rm src →
      s.CompletesEvex (.vpcmpeqdK128 e reg rm) (evexLength e rm) 32 reg e.aaa (s.vec 128 (bit1 e.v' ++ e.vvvv)) src) ∧
    (∀ src : BitVec 256, s.EvexReady 32 256 e rm → s.EvexOperand 256 e rm src →
      s.CompletesEvex (.vpcmpeqdK256 e reg rm) (evexLength e rm) 32 reg e.aaa (s.vec 256 (bit1 e.v' ++ e.vvvv)) src) ∧
    (∀ src : BitVec 512, s.EvexReady 32 512 e rm → s.EvexOperand 512 e rm src →
      s.CompletesEvex (.vpcmpeqdK512 e reg rm) (evexLength e rm) 32 reg e.aaa (s.vec 512 (bit1 e.v' ++ e.vvvv)) src)

/-- The three EVEX VPCMPEQB forms complete with their mask, at every vector length (R150, R154 to R156). -/
def Obligations.EvexByteFormsComplete : Prop :=
  ∀ (s : State) (e : EvexEnc) (reg : BitVec 3) (rm : RmField), s.Admits (evexLength e rm) →
    (∀ src : BitVec 128, s.EvexReady 8 128 e rm → s.EvexOperand 128 e rm src →
      s.CompletesEvex (.vpcmpeqbK128 e reg rm) (evexLength e rm) 8 reg e.aaa (s.vec 128 (bit1 e.v' ++ e.vvvv)) src) ∧
    (∀ src : BitVec 256, s.EvexReady 8 256 e rm → s.EvexOperand 256 e rm src →
      s.CompletesEvex (.vpcmpeqbK256 e reg rm) (evexLength e rm) 8 reg e.aaa (s.vec 256 (bit1 e.v' ++ e.vvvv)) src) ∧
    (∀ src : BitVec 512, s.EvexReady 8 512 e rm → s.EvexOperand 512 e rm src →
      s.CompletesEvex (.vpcmpeqbK512 e reg rm) (evexLength e rm) 8 reg e.aaa (s.vec 512 (bit1 e.v' ++ e.vvvv)) src)

/-- The three EVEX VPCMPEQW forms complete with their mask, at every vector length (R150, R157 to R159). -/
def Obligations.EvexWordFormsComplete : Prop :=
  ∀ (s : State) (e : EvexEnc) (reg : BitVec 3) (rm : RmField), s.Admits (evexLength e rm) →
    (∀ src : BitVec 128, s.EvexReady 16 128 e rm → s.EvexOperand 128 e rm src →
      s.CompletesEvex (.vpcmpeqwK128 e reg rm) (evexLength e rm) 16 reg e.aaa (s.vec 128 (bit1 e.v' ++ e.vvvv)) src) ∧
    (∀ src : BitVec 256, s.EvexReady 16 256 e rm → s.EvexOperand 256 e rm src →
      s.CompletesEvex (.vpcmpeqwK256 e reg rm) (evexLength e rm) 16 reg e.aaa (s.vec 256 (bit1 e.v' ++ e.vvvv)) src) ∧
    (∀ src : BitVec 512, s.EvexReady 16 512 e rm → s.EvexOperand 512 e rm src →
      s.CompletesEvex (.vpcmpeqwK512 e reg rm) (evexLength e rm) 16 reg e.aaa (s.vec 512 (bit1 e.v' ++ e.vvvv)) src)

/-- A register compared with itself gives all ones whatever it holds (the corner cases of R121, R131, R141 and R144), and
in an EVEX form the writemask itself (R150, and the corner cases of R151 and R154). -/
def Obligations.SameRegisterComparesEqual : Prop :=
  (∀ mk, mk ∈ [Instr.pcmpeqbMm, Instr.pcmpeqwMm, Instr.pcmpeqdMm] →
    ∀ s t e reg, exec (mk e reg (.reg reg)) s = .next t → t.mm reg = BitVec.allOnes 64) ∧
  (∀ mk, mk ∈ [Instr.pcmpeqbXmm, Instr.pcmpeqwXmm, Instr.pcmpeqdXmm] →
    ∀ s t e reg r, vecNum4 e.b r = vecNum4 e.r reg → exec (mk e reg (.reg r)) s = .next t →
      t.vec 128 (vecNum4 e.r reg) = BitVec.allOnes 128) ∧
  (∀ mk, mk ∈ [Instr.vpcmpeqbXmm, Instr.vpcmpeqwXmm, Instr.vpcmpeqdXmm] →
    ∀ s t e reg r, vecNum4 e.vex.b r = 0#1 ++ e.vex.vvvv → exec (mk e reg (.reg r)) s = .next t →
      t.vec 512 (vecNum4 e.vex.r reg) = (BitVec.allOnes 128).setWidth 512) ∧
  (∀ mk, mk ∈ [Instr.vpcmpeqbYmm, Instr.vpcmpeqwYmm, Instr.vpcmpeqdYmm] →
    ∀ s t e reg r, vecNum4 e.vex.b r = 0#1 ++ e.vex.vvvv → exec (mk e reg (.reg r)) s = .next t →
      t.vec 512 (vecNum4 e.vex.r reg) = (BitVec.allOnes 256).setWidth 512) ∧
  (∀ kl mk, (kl, mk) ∈ [(4, Instr.vpcmpeqdK128), (8, Instr.vpcmpeqdK256), (16, Instr.vpcmpeqdK512),
      (16, Instr.vpcmpeqbK128), (32, Instr.vpcmpeqbK256), (64, Instr.vpcmpeqbK512),
      (8, Instr.vpcmpeqwK128), (16, Instr.vpcmpeqwK256), (32, Instr.vpcmpeqwK512)] →
    ∀ s t e reg r, e.src2 r = e.src1 → exec (mk e reg (.reg r)) s = .next t → ∀ j,
      ((t.opmask reg).getLsbD j = true ↔ j < kl ∧ (e.aaa = 0#3 ∨ (s.opmask e.aaa).getLsbD j = true)))

/-- The destination may be the writemask, which is read before the destination is written, so that the instruction narrows
the mask; and k0 can be a destination like any other register (R160). -/
def Obligations.DestinationMayBeTheWritemask : Prop :=
  ∀ w vl mk, (w, vl, mk) ∈ [(32, 128, Instr.vpcmpeqdK128), (32, 256, Instr.vpcmpeqdK256), (32, 512, Instr.vpcmpeqdK512),
      (8, 128, Instr.vpcmpeqbK128), (8, 256, Instr.vpcmpeqbK256), (8, 512, Instr.vpcmpeqbK512),
      (16, 128, Instr.vpcmpeqwK128), (16, 256, Instr.vpcmpeqwK256), (16, 512, Instr.vpcmpeqwK512)] →
    ∀ (s : State) (e : EvexEnc) (rm : RmField) (src : BitVec vl),
      s.Admits (evexLength e rm) → s.EvexReady w vl e rm → s.EvexOperand vl e rm src → e.aaa ≠ 0#3 →
      (∃ t, exec (mk e e.aaa rm) s = .next t ∧
        t.opmask e.aaa =
          (eqMask w (s.vec vl e.src1) src &&& (s.opmask e.aaa).extractLsb' 0 (vl / w)).setWidth 64) ∧
      (∃ t, exec (mk e 0#3 rm) s = .next t ∧
        t.opmask 0#3 = (eqMask w (s.vec vl e.src1) src &&& (s.opmask e.aaa).extractLsb' 0 (vl / w)).setWidth 64)

/-- Of the opmask registers an EVEX form reads bits `KL-1:0` of the writemask it names and nothing else; without a
writemask it reads none, k0 included (R36, R86). -/
def Obligations.OnlyTheWritemaskIsRead : Prop :=
  ∀ kl mk, (kl, mk) ∈ [(4, Instr.vpcmpeqdK128), (8, Instr.vpcmpeqdK256), (16, Instr.vpcmpeqdK512),
      (16, Instr.vpcmpeqbK128), (32, Instr.vpcmpeqbK256), (64, Instr.vpcmpeqbK512),
      (8, Instr.vpcmpeqwK128), (16, Instr.vpcmpeqwK256), (32, Instr.vpcmpeqwK512)] →
    ∀ (s t : State) (e : EvexEnc) (reg : BitVec 3) (rm : RmField) (k' : Vector MaskWord 8),
      exec (mk e reg rm) s = .next t →
      (e.aaa = 0#3 ∨ ∀ j < kl, ({ s with k := k' }.opmask e.aaa).getLsbD j = (s.opmask e.aaa).getLsbD j) →
      ∃ t', exec (mk e reg rm) { s with k := k' } = .next t' ∧ t'.opmask reg = t.opmask reg

/-- For the same width, length and sources, bit `j` of the unmasked EVEX result is 1 exactly when lane `j` of the VEX
result is all ones; the EVEX form writes no vector register (R161). -/
def Obligations.EvexMaskMatchesVexLanes : Prop :=
  ∀ w vl mkVex mkEvex, (w, vl, mkVex, mkEvex) ∈
      [(8, 128, Instr.vpcmpeqbXmm, Instr.vpcmpeqbK128), (16, 128, Instr.vpcmpeqwXmm, Instr.vpcmpeqwK128),
       (32, 128, Instr.vpcmpeqdXmm, Instr.vpcmpeqdK128), (8, 256, Instr.vpcmpeqbYmm, Instr.vpcmpeqbK256),
       (16, 256, Instr.vpcmpeqwYmm, Instr.vpcmpeqwK256), (32, 256, Instr.vpcmpeqdYmm, Instr.vpcmpeqdK256)] →
    ∀ (s t t' : State) (e : VexEnc) (e' : EvexEnc) (reg reg' : BitVec 3) (rm rm' : RmField) (src : BitVec vl),
      s.vec vl (0#1 ++ e.vex.vvvv) = s.vec vl (bit1 e'.v' ++ e'.vvvv) → s.VexOperand vl e rm src →
      s.EvexOperand vl e' rm' src → e'.aaa = 0#3 →
      exec (mkVex e reg rm) s = .next t → exec (mkEvex e' reg' rm') s = .next t' →
      (∀ j < vl / w, ((t'.opmask reg').getLsbD j = true ↔
        lane w (t.vec vl (vecNum4 e.vex.r reg)) j = BitVec.allOnes w)) ∧
      ∀ n, t'.vec 512 n = s.vec 512 n

/-- Flags: every form leaves EFLAGS as it was, and writes nothing outside the MMX, vector and opmask files (with the x87 words
of R28) and `pc`; and no outcome depends on any flag but TF and AC, which are no status flags and only decide whether the
launch is admitted (R26). -/
def Obligations.FlagsAreNeitherReadNorWritten : Prop :=
  (∀ (i : Instr) (s t : State), exec i s = .next t →
    t.eflags = s.eflags ∧
    t = { s with x87 := t.x87, x87sw := t.x87sw, x87tw := t.x87tw, v := t.v, k := t.k, pc := t.pc }) ∧
  ∀ (i : Instr) (s : State) (f : BitVec 32), f.getLsbD 8 = s.eflags.getLsbD 8 → f.getLsbD 18 = s.eflags.getLsbD 18 →
    (∀ t, exec i s = .next t → exec i { s with eflags := f } = .next { t with eflags := f }) ∧
    (∀ fl, exec i s = .fault fl → ∃ fl', exec i { s with eflags := f } = .fault fl' ∧ fl'.vector = fl.vector ∧
      fl'.errorCode = fl.errorCode) ∧
    (∀ r, exec i s = .refused r → exec i { s with eflags := f } = .refused r)

/-- MXCSR is neither read nor written, and no SIMD floating-point exception (vector 19) is raised (R27). -/
def Obligations.MxcsrIsNeitherReadNorWritten : Prop :=
  (∀ (i : Instr) (s t : State), exec i s = .next t → t.mxcsr = s.mxcsr) ∧
  (∀ (i : Instr) (s : State) (m : BitVec 32),
    (∀ t, exec i s = .next t → exec i { s with mxcsr := m } = .next { t with mxcsr := m }) ∧
    (∀ f, exec i s = .fault f → ∃ f', exec i { s with mxcsr := m } = .fault f' ∧ f'.vector = f.vector ∧
      f'.errorCode = f.errorCode) ∧
    (∀ r, exec i s = .refused r → exec i { s with mxcsr := m } = .refused r)) ∧
  ∀ (s : State) (f : Fault), (step s = .fault f ∨ ∃ i, exec i s = .fault f) → f.vector ≠ 19

/-- A form whose operand is a register reads no memory, no general register and no segment register (R24, R29, R52). -/
def Obligations.RegisterFormsReadNoMemory : Prop :=
  ∀ (i : Instr) (s t : State) (r : BitVec 3), i.rm = .reg r → exec i s = .next t →
    ∀ (mem : Memory) (oracle : List (Query × Answer)) (x : Vector Word64 16) (segs : Vector SegReg 6),
      exec i { s with mem := mem, oracle := oracle, x := x, segs := segs } =
        .next { t with mem := mem, oracle := oracle, x := x, segs := segs }

/-- Of data memory a form reads the bytes of its operand and no other: 4 for a broadcast, whatever the vector length (R50,
R55). -/
def Obligations.OnlyOperandBytesAreRead : Prop :=
  ∀ (i : Instr) (s t : State) (q : Query) (mem : Memory), s.memoryQuery i = some q →
    (∀ a ∈ s.operandAddresses q, Memory.read mem a = s.mem.read a) → exec i s = .next t →
    exec i { s with mem := mem } = .next { t with mem := mem }

/-- No form is privileged: a register form has the same result at every privilege level, where alignment checking cannot be
on (R190). -/
def Obligations.PrivilegeLevelDoesNotMatter : Prop :=
  ∀ (i : Instr) (s t : State) (r : BitVec 3) (c : BitVec 2), i.rm = .reg r →
    (s.cr0.getLsbD 18 = false ∨ s.eflags.getLsbD 18 = false) → exec i s = .next t →
    exec i { s with cpl := c } = .next { t with cpl := c }

/-! ### Faults (R171 to R185) -/

/-- A fault is precise: the state it carries is the state before the instruction, in every register, in memory and in
`pc`; only CR2 can differ, and only after a page fault (R185; CR2 by R171, log 1). -/
def Obligations.FaultsLeaveStateUnchanged : Prop :=
  ∀ (s : State) (f : Fault), (step s = .fault f ∨ ∃ i, exec i s = .fault f) →
    f.state = { s with cr2 := f.state.cr2 } ∧ (f.vector ≠ 14 → f.state = s)

/-- The vector numbers and error codes of every fault (R171): no code for #UD, #NM and #MF, 0 for #SS and #GP, and for #PF
a code whose W/R and I/D bits are 0 and whose U/S bit says whether `CPL = 3`; no other vector. -/
def Obligations.FaultVectorsAndErrorCodes : Prop :=
  ∀ (s : State) (f : Fault), (step s = .fault f ∨ ∃ i, exec i s = .fault f) →
    (f.vector = 6 ∨ f.vector = 7 ∨ f.vector = 12 ∨ f.vector = 13 ∨ f.vector = 14 ∨ f.vector = 16) ∧
    (f.vector = 6 ∨ f.vector = 7 ∨ f.vector = 16 → f.errorCode = none) ∧
    (f.vector = 12 ∨ f.vector = 13 → f.errorCode = some 0#32) ∧
    (f.vector = 14 → ∃ c, f.errorCode = some c ∧ c.getLsbD 1 = false ∧ c.getLsbD 4 = false ∧
      (c.getLsbD 2 = true ↔ s.cpl = 3#2))

/-- The MMX forms raise #UD exactly when `CR0.EM = 1` or the MMX flag is 0 (R176). -/
def Obligations.MmxInvalidOpcodeConditions : Prop :=
  ∀ mk, mk ∈ [Instr.pcmpeqbMm, Instr.pcmpeqwMm, Instr.pcmpeqdMm] →
    ∀ (s : State) (e : LegacyEnc) (reg : BitVec 3) (rm : RmField), s.Admits (legacyLength e rm) →
      (exec (mk e reg rm) s = .fault (.invalidOpcode s) ↔
        s.cr0.getLsbD 2 = true ∨ s.config.features.mmx = false)

/-- The legacy XMM forms raise #UD exactly when `CR0.EM = 1`, `CR4.OSFXSR = 0` or the SSE2 flag is 0 (R172). -/
def Obligations.XmmInvalidOpcodeConditions : Prop :=
  ∀ mk, mk ∈ [Instr.pcmpeqbXmm, Instr.pcmpeqwXmm, Instr.pcmpeqdXmm] →
    ∀ (s : State) (e : LegacyEnc) (reg : BitVec 3) (rm : RmField), s.Admits (legacyLength e rm) →
      (exec (mk e reg rm) s = .fault (.invalidOpcode s) ↔
        s.cr0.getLsbD 2 = true ∨ s.cr4.getLsbD 9 = false ∨ s.config.features.sse2 = false)

/-- The VEX forms raise #UD exactly when `CR4.OSXSAVE = 0`, `XCR0[2:1]` is not 11b, the AVX (128 bits) or AVX2 (256 bits)
flag is 0, or a register is narrower than the form (R173; the last by log 5). -/
def Obligations.VexInvalidOpcodeConditions : Prop :=
  ∀ vl mk, (vl, mk) ∈ [(128, Instr.vpcmpeqbXmm), (128, Instr.vpcmpeqwXmm), (128, Instr.vpcmpeqdXmm),
      (256, Instr.vpcmpeqbYmm), (256, Instr.vpcmpeqwYmm), (256, Instr.vpcmpeqdYmm)] →
    ∀ (s : State) (e : VexEnc) (reg : BitVec 3) (rm : RmField), s.Admits (vexLength e rm) →
      (exec (mk e reg rm) s = .fault (.invalidOpcode s) ↔
        s.cr4.getLsbD 18 = false ∨ s.xcr0.getLsbD 1 = false ∨ s.xcr0.getLsbD 2 = false ∨
        (vl = 128 ∧ s.config.features.avx = false) ∨ (vl = 256 ∧ s.config.features.avx2 = false) ∨
        s.config.maxVl.bits < vl)

/-- The EVEX forms raise #UD exactly when `CR4.OSXSAVE = 0`, one of XCR0 bits 1, 2, 5, 6, 7 is 0, a flag the form needs is
0 (AVX512F or AVX512BW, and AVX512VL below 512 bits), a register is narrower than the form, or the form names one of the
registers 16 to 31 in a configuration without AVX512F, which has 16 (R174, R11; the last two are the model's choice, logs 5
and 20). -/
def Obligations.EvexInvalidOpcodeConditions : Prop :=
  ∀ w vl mk, (w, vl, mk) ∈ [(32, 128, Instr.vpcmpeqdK128), (32, 256, Instr.vpcmpeqdK256), (32, 512, Instr.vpcmpeqdK512),
      (8, 128, Instr.vpcmpeqbK128), (8, 256, Instr.vpcmpeqbK256), (8, 512, Instr.vpcmpeqbK512),
      (16, 128, Instr.vpcmpeqwK128), (16, 256, Instr.vpcmpeqwK256), (16, 512, Instr.vpcmpeqwK512)] →
    ∀ (s : State) (e : EvexEnc) (reg : BitVec 3) (rm : RmField), s.Admits (evexLength e rm) →
      (exec (mk e reg rm) s = .fault (.invalidOpcode s) ↔
        s.cr4.getLsbD 18 = false ∨ (∃ b ∈ [1, 2, 5, 6, 7], s.xcr0.getLsbD b = false) ∨
        (w = 32 ∧ s.config.features.avx512f = false) ∨ (w ≠ 32 ∧ s.config.features.avx512bw = false) ∨
        (vl ≠ 512 ∧ s.config.features.avx512vl = false) ∨ s.config.maxVl.bits < vl ∨ s.config.maxKl < vl / w ∨
        (s.config.features.avx512f = false ∧
          (16 ≤ (bit1 e.v' ++ e.vvvv).toNat ∨ ∃ r, rm = .reg r ∧ 16 ≤ (bit1 e.x ++ bit1 e.b ++ r).toNat)))

/-- Every one of the 21 forms raises #NM, and does nothing else, when `CR0.TS = 1` and no #UD condition holds; `CR0.TS` is
a constant of a run (R177). -/
def Obligations.DeviceNotAvailableWhenTaskSwitched : Prop :=
  ∀ (i : Instr) (s : State), s.Admits i.length → s.udInstr i = false →
    (s.cr0.getLsbD 3 = true → exec i s = .fault (.deviceNotAvailable s)) ∧
    (∀ s', exec i s = .fault (.deviceNotAvailable s') → s.cr0.getLsbD 3 = true) ∧
    (∀ t, exec i s = .next t → t.cr0 = s.cr0)

/-- #MF: exactly the MMX forms raise it, and exactly when an x87 exception is pending and nothing of higher priority holds
(R178, R184). -/
def Obligations.MathFaultOnlyInMmxForms : Prop :=
  ∀ (i : Instr) (s : State), s.Admits i.length →
    (∀ s', exec i s = .fault (.x87FloatingPoint s') →
      i.isMmx = true ∧ s.x87Pending = true ∧ s.udInstr i = false ∧ s.cr0.getLsbD 3 = false) ∧
    (i.isMmx = true → s.x87Pending = true → s.udInstr i = false → s.cr0.getLsbD 3 = false →
      exec i s = .fault (.x87FloatingPoint s))

/-- A misaligned operand of a legacy XMM form raises #GP(0), whatever `Translate` would answer: no read is made (R54,
R172, R184). -/
def Obligations.MisalignedXmmOperandFaults : Prop :=
  ∀ (i : Instr) (s : State), s.Admits i.length → s.udInstr i = false → s.ts = false → s.Misaligned i →
    exec i s = .fault (.generalProtection s)

/-- What `Translate` answers to the one question an instruction asks becomes its outcome, once #UD, #NM, #MF and the
alignment check have passed: #GP(0), #SS(0), or #PF with P, RSVD and PK from the answer, W/R and I/D 0, U/S from CPL and
the address in CR2; an operand in device memory is refused (R58, R60, R171; the page-fault bits by log 12). -/
def Obligations.TranslateFaultsAreTheInstructions : Prop :=
  ∀ (i : Instr) (s : State) (q : Query), s.Admits i.length → s.udInstr i = false → s.ts = false →
    (i.isMmx && s.x87Pending) = false → ¬ s.Misaligned i → s.memoryQuery i = some q →
    (s.translate q = .generalProtection → exec i s = .fault (.generalProtection s)) ∧
    (s.translate q = .stackSegment → exec i s = .fault (.stackSegment s)) ∧
    (∀ p r k a, s.translate q = .pageFault p r k a →
      ∃ c : BitVec 32, exec i s = .fault (.pageFault c { s with cr2 := a }) ∧
        c.getLsbD 0 = p ∧ c.getLsbD 1 = false ∧ (c.getLsbD 2 = true ↔ s.cpl = 3#2) ∧ c.getLsbD 3 = r ∧
        c.getLsbD 4 = false ∧ c.getLsbD 5 = k) ∧
    (s.translate q = .device → exec i s = .refused .deviceMemory)

/-- What cannot fault: a register form raises only #UD, #NM and, in MMX form, #MF; whether a form completes does not depend
on the values it compares, in registers or in memory: with other register contents, other bytes at the addresses memory
lists and other bytes in the answers of `Translate` it completes as well; and a fault leaves every destination unwritten
(R179). -/
def Obligations.WhatCannotFault : Prop :=
  (∀ (i : Instr) (s : State) (f : Fault) (r : BitVec 3), i.rm = .reg r → exec i s = .fault f →
    f.vector = 6 ∨ f.vector = 7 ∨ (f.vector = 16 ∧ i.isMmx = true)) ∧
  (∀ (i : Instr) (s t : State) (x87 : Vector X87Word 8) (v : Vector VecWord 32) (k : Vector MaskWord 8) (mem : Memory)
    (oracle : List (Query × Answer)),
    (∀ a, (Memory.read mem a).isSome = (s.mem.read a).isSome) →
    List.Forall₂ (fun e e' => e.1 = e'.1 ∧ e.2.SameButBytes e'.2) s.oracle oracle →
    exec i s = .next t →
    ∃ t', exec i { s with x87 := x87, v := v, k := k, mem := mem, oracle := oracle } = .next t') ∧
  (∀ (i : Instr) (s : State) (f : Fault), exec i s = .fault f →
    f.state.x87 = s.x87 ∧ f.state.v = s.v ∧ f.state.k = s.k)

/-! ### Memory operands -/

/-- A memory operand is assembled little-endian: byte `k` of the value is the byte at the address plus `k`, here through
the reference translation (R53; the reference translation is the model's, log 7). -/
def Obligations.MemoryReadsAreLittleEndian : Prop :=
  ∀ (s : State) (n : Nat) (g : Seg) (ea : Word64) (val : BitVec (8 * n)), s.oracle = [] → s.mode = .mode64 →
    s.readMemory (8 * n) g ea = .ok val →
    ∀ k < n, s.mem.read ((s.linear g ea).toNat + k) = some (lane 8 val k)

/-- In 64-bit mode the reference translation answers #SS(0) in the stack segment and #GP(0) in the others for an operand
that is not canonical, #PF for the first byte that memory does not hold, and the bytes otherwise (R172, R184; log 7). -/
def Obligations.ReferenceTranslationIn64BitMode : Prop :=
  ∀ (s : State) (q : Query), s.mode = .mode64 →
    ((∃ j < q.n, s.codeAddress ((s.linear q.seg q.ea).toNat + j) = false) →
      s.referenceTranslate q = if q.seg = .ss then .stackSegment else .generalProtection) ∧
    ((∀ j < q.n, s.codeAddress ((s.linear q.seg q.ea).toNat + j) = true) →
      (∀ j < q.n, s.mem.read ((s.linear q.seg q.ea).toNat + j) = none →
        (∀ i < j, s.mem.read ((s.linear q.seg q.ea).toNat + i) ≠ none) →
        s.referenceTranslate q =
          .pageFault false false false (BitVec.ofNat 64 ((s.linear q.seg q.ea).toNat + j))) ∧
      ((∀ j < q.n, s.mem.read ((s.linear q.seg q.ea).toNat + j) ≠ none) →
        ∃ bs, s.referenceTranslate q = .bytes bs ∧ bs.length = q.n ∧
          ∀ j < q.n, s.mem.read ((s.linear q.seg q.ea).toNat + j) = bs[j]?))

/-- In Mode32 the reference translation answers #GP(0) for a null selector, #SS(0) in the stack segment and #GP(0) in the
others beyond the segment limit, before any page fault; within the limit #PF for the first byte, at addresses modulo 2^32,
that memory does not hold, and the bytes otherwise (R172, R184; logs 7 and 8). -/
def Obligations.ReferenceTranslationInMode32 : Prop :=
  ∀ (s : State) (q : Query), s.mode = .mode32 →
    ((s.seg q.seg).null = true → s.referenceTranslate q = .generalProtection) ∧
    ((s.seg q.seg).null = false → (s.seg q.seg).limit.toNat + 1 < q.ea.toNat + q.n →
      s.referenceTranslate q = if q.seg = .ss then .stackSegment else .generalProtection) ∧
    ((s.seg q.seg).null = false → q.ea.toNat + q.n ≤ (s.seg q.seg).limit.toNat + 1 →
      (∀ j < q.n, s.mem.read (((s.linear q.seg q.ea).toNat + j) % 2 ^ 32) = none →
        (∀ i < j, s.mem.read (((s.linear q.seg q.ea).toNat + i) % 2 ^ 32) ≠ none) →
        s.referenceTranslate q =
          .pageFault false false false (BitVec.ofNat 64 (((s.linear q.seg q.ea).toNat + j) % 2 ^ 32))) ∧
      ((∀ j < q.n, s.mem.read (((s.linear q.seg q.ea).toNat + j) % 2 ^ 32) ≠ none) →
        ∃ bs, s.referenceTranslate q = .bytes bs ∧ bs.length = q.n ∧
          ∀ j < q.n, s.mem.read (((s.linear q.seg q.ea).toNat + j) % 2 ^ 32) = bs[j]?))

/-- The linear address: in 64-bit mode the effective address plus the base of FS or GS, and no base for the other segments;
in Mode32 plus the segment's base, modulo 2^32 (R29, R57). -/
def Obligations.LinearAddressAddsSegmentBase : Prop :=
  ∀ (s : State) (g : Seg) (ea : Word64),
    (s.mode = .mode64 → (g = .fs ∨ g = .gs) →
      (s.linear g ea).toNat = ((s.seg g).base.toNat + ea.toNat) % 2 ^ 64) ∧
    (s.mode = .mode64 → g ≠ .fs → g ≠ .gs → s.linear g ea = ea) ∧
    (s.mode = .mode32 → (s.linear g ea).toNat = ((s.seg g).base.toNat + ea.toNat) % 2 ^ 32)

/-- The effective address is base plus scaled index plus displacement modulo 2^A, every term sign-extended or truncated as
R75 says, in exact integers: `A` is 64 in 64-bit mode without 67 and 32 otherwise, an 8-bit displacement is scaled by `N`,
and index 0100b means no index. `pc_next` is `pc` plus the length. In each class the extension bits are those of its prefix
and 0 where there is none, and `N` is 1 in legacy and VEX forms, 16, 32 or 64 by vector length in EVEX forms, and 4 with the
broadcast bit, which only VPCMPEQD has (R75, R84). -/
def Obligations.EffectiveAddressIsASum : Prop :=
  (∀ (s : State) (p : AddressEnc) (pcNext : Word64) (A : Nat), s.mode = .mode64 ∨ s.mode = .mode32 →
    A = (if s.mode = .mode64 ∧ LegacyByte.addressSize ∉ p.pre then 64 else 32) →
    let reg : BitVec 4 → Int := fun n => ((s.gpr n).toNat % 2 ^ A : Nat)
    let disp : Disp → Int := fun d =>
      match d with
      | .none => 0
      | .disp8 d => d.toInt * (p.disp8N : Int)
      | .disp32 d => d.toInt
    let index : BitVec 2 → BitVec 3 → Int := fun sc ix =>
      if bit1 p.x ++ ix = (4#4 : BitVec 4) then 0 else reg (bit1 p.x ++ ix) * 2 ^ sc.toNat
    (∀ rm d, ((s.effectiveAddress p pcNext (.base rm d)).toNat : Int) =
      (reg (bit1 p.b ++ rm) + disp d) % 2 ^ A) ∧
    (∀ d, ((s.effectiveAddress p pcNext (.relative d)).toNat : Int) =
      ((if s.mode = .mode64 then (pcNext.toNat : Int) else 0) + d.toInt) % 2 ^ A) ∧
    (∀ sc ix b d, ((s.effectiveAddress p pcNext (.sib sc ix b d)).toNat : Int) =
      (reg (bit1 p.b ++ b) + index sc ix + disp d) % 2 ^ A) ∧
    (∀ sc ix d, ((s.effectiveAddress p pcNext (.sibNoBase sc ix d)).toNat : Int) =
      (index sc ix + d.toInt) % 2 ^ A)) ∧
  (∀ (s : State) (len : Nat), (s.pcNext len).toNat = (s.pc.toNat + len) % 2 ^ 64) ∧
  (∀ mk, mk ∈ [Instr.pcmpeqbMm, Instr.pcmpeqwMm, Instr.pcmpeqdMm, Instr.pcmpeqbXmm, Instr.pcmpeqwXmm,
      Instr.pcmpeqdXmm] →
    ∀ (pre : List LegacyByte) (q : Rex) (reg : BitVec 3) (rm : RmField),
      (mk ⟨pre, none⟩ reg rm).addressEnc = { pre := pre, x := false, b := false, disp8N := 1 } ∧
      (mk ⟨pre, some q⟩ reg rm).addressEnc = { pre := pre, x := q.x, b := q.b, disp8N := 1 }) ∧
  (∀ mk, mk ∈ [Instr.vpcmpeqbXmm, Instr.vpcmpeqwXmm, Instr.vpcmpeqdXmm, Instr.vpcmpeqbYmm, Instr.vpcmpeqwYmm,
      Instr.vpcmpeqdYmm] →
    ∀ (pre : List LegacyByte) (r x b w : Bool) (vvvv : BitVec 4) (reg : BitVec 3) (rm : RmField),
      (mk ⟨pre, .two r vvvv⟩ reg rm).addressEnc = { pre := pre, x := false, b := false, disp8N := 1 } ∧
      (mk ⟨pre, .three r x b w vvvv⟩ reg rm).addressEnc = { pre := pre, x := x, b := b, disp8N := 1 }) ∧
  (∀ n mk, (n, mk) ∈ [(16, Instr.vpcmpeqdK128), (32, Instr.vpcmpeqdK256), (64, Instr.vpcmpeqdK512)] →
    ∀ (e : EvexEnc) (reg : BitVec 3) (rm : RmField),
      (mk e reg rm).addressEnc = { pre := e.pre, x := e.x, b := e.b, disp8N := if e.bcst then 4 else n }) ∧
  (∀ n mk, (n, mk) ∈ [(16, Instr.vpcmpeqbK128), (32, Instr.vpcmpeqbK256), (64, Instr.vpcmpeqbK512),
      (16, Instr.vpcmpeqwK128), (32, Instr.vpcmpeqwK256), (64, Instr.vpcmpeqwK512)] →
    ∀ (e : EvexEnc) (reg : BitVec 3) (rm : RmField), e.bcst = false →
      (mk e reg rm).addressEnc = { pre := e.pre, x := e.x, b := e.b, disp8N := n })

/-- The segment of a memory operand: the override where there is one; else SS when the base register is number 4 or 5 with
`B = 0`, and DS otherwise (R75, R77). -/
def Obligations.SegmentOfAnOperand : Prop :=
  ∀ p : AddressEnc,
    (∀ (m : MemField) pre' post g, p.pre = pre' ++ LegacyByte.seg g :: post → (∀ g', LegacyByte.seg g' ∉ pre') →
      p.seg m = g) ∧
    ((∀ g, LegacyByte.seg g ∉ p.pre) →
      (∀ r d, p.seg (.base r d) = if p.b = false ∧ (r = 4#3 ∨ r = 5#3) then .ss else .ds) ∧
      (∀ sc ix r d, p.seg (.sib sc ix r d) = if p.b = false ∧ (r = 4#3 ∨ r = 5#3) then .ss else .ds) ∧
      (∀ d, p.seg (.relative d) = .ds) ∧ (∀ sc ix d, p.seg (.sibNoBase sc ix d) = .ds))

/-! ### Encodings (R70 to R93) -/

/-- Decode and encode agree: decoding the bytes of a well-formed instruction, whatever follows them, gives it back, with
every operand at every value the encoding admits, in every mode. -/
def Obligations.DecodeEncodeRoundTrip : Prop :=
  ∀ (m : Mode) (i : Instr) (rest : List Byte), i.ok m = true → decode m (encode i ++ rest) = .form i

/-- The other direction: what the decoder reads as a form is well-formed, and its bytes are that form's encoding. -/
def Obligations.DecodedBytesAreTheEncoding : Prop :=
  ∀ (m : Mode) (bs : List Byte) (i : Instr), decode m bs = .form i →
    i.ok m = true ∧ ∃ rest, bs = encode i ++ rest

/-- Lengths: the encoding of every instruction has the length `pc` advances by; an MMX form has 3 to 11 bytes, a legacy XMM
or a VEX form 4 to 12, an EVEX form 6 to 13 (R90). -/
def Obligations.InstructionLengthBounds : Prop :=
  (∀ i : Instr, (encode i).length = i.length) ∧
  (∀ (m : Mode) (e : LegacyEnc) (rm : RmField), e.ok m false rm = true →
    3 ≤ legacyLength e rm ∧ legacyLength e rm ≤ 11) ∧
  (∀ (m : Mode) (e : LegacyEnc) (rm : RmField), e.ok m true rm = true →
    4 ≤ legacyLength e rm ∧ legacyLength e rm ≤ 12) ∧
  (∀ (m : Mode) (e : VexEnc) (rm : RmField), e.ok m rm = true → 4 ≤ vexLength e rm ∧ vexLength e rm ≤ 12) ∧
  (∀ (m : Mode) (d : Bool) (e : EvexEnc) (rm : RmField), e.ok m d rm = true →
    6 ≤ evexLength e rm ∧ evexLength e rm ≤ 13)

/-- LOCK, F2 or F3 anywhere among the prefixes of a well-formed form raises #UD, and so do 66 and, in 64-bit mode, REX
anywhere before a VEX or EVEX prefix (R79, R81; R89 cases 1 to 3). -/
def Obligations.ForbiddenPrefixesAreInvalid : Prop :=
  ∀ (m : Mode) (i : Instr) (b : Byte) (p q rest : List Byte), i.ok m = true →
    encode i = p ++ q → p.length ≤ i.pre.length →
    (b ∈ [0xF0#8, 0xF2#8, 0xF3#8] ∨
      (i.isMmx = false ∧ i.isXmm = false ∧ (b = 0x66#8 ∨ (m = .mode64 ∧ b.extractLsb' 4 4 = 4#4)))) →
    decode m (p ++ b :: (q ++ rest)) = .invalidOpcode

/-- In 64-bit mode a whole EVEX encoding of one of the family's opcodes, in the map 0F and with the implied prefix 66, raises
#UD when reserved bits are wrong, W = 1 with opcode 76, z = 1, L'L = 11b, b = 1 with a register operand or with opcode 74
or 75, or R or R' is logical 1 (R89 cases 4 to 10). -/
def Obligations.ReservedEvexEncodingsAreInvalid : Prop :=
  ∀ (p0 p1 p2 op modrm : Byte) (tail rest : List Byte) (rm : RmField),
    p0.extractLsb' 0 2 = 1#2 → p1.extractLsb' 0 2 = 1#2 → op ∈ [0x74#8, 0x75#8, 0x76#8] →
    takeRm modrm tail = some (rm, rest) →
    (p0.extractLsb' 2 2 ≠ 0#2 ∨ p1.getLsbD 2 = false ∨ (op = 0x76#8 ∧ p1.getLsbD 7 = true) ∨ p2.getLsbD 7 = true ∨
      p2.extractLsb' 5 2 = 3#2 ∨ (p2.getLsbD 4 = true ∧ modrm.extractLsb' 6 2 = 3#2) ∨
      (p2.getLsbD 4 = true ∧ op ≠ 0x76#8) ∨ p0.getLsbD 7 = false ∨ p0.getLsbD 4 = false) →
    decode .mode64 (0x62#8 :: p0 :: p1 :: p2 :: op :: modrm :: tail) = .invalidOpcode

/-- In 64-bit mode no VEX encoding of the family's opcodes is reserved: with the map 0F and the implied prefix 66, both
values of `L` and of `W` and every `vvvv` decode to a form (R78, R82, R83, R89). -/
def Obligations.EveryVexEncodingIsAForm : Prop :=
  ∀ (p p0 p1 op modrm : Byte) (tail rest : List Byte) (rm : RmField), op ∈ [0x74#8, 0x75#8, 0x76#8] →
    takeRm modrm tail = some (rm, rest) →
    (p.extractLsb' 0 2 = 1#2 →
      ∃ i, decode .mode64 (0xC5#8 :: p :: op :: modrm :: tail) = .form i ∧ i.rm = rm ∧
        i.operandBytes = if p.getLsbD 2 then 32 else 16) ∧
    (p0.extractLsb' 0 5 = 1#5 → p1.extractLsb' 0 2 = 1#2 →
      ∃ i, decode .mode64 (0xC4#8 :: p0 :: p1 :: op :: modrm :: tail) = .form i ∧ i.rm = rm ∧
        i.operandBytes = if p1.getLsbD 2 then 32 else 16)

/-- In Mode32 the bytes C4, C5 and 62 begin no VEX or EVEX prefix unless bits 7:6 of the next byte are 11b, and a whole
encoding that does, with an extension bit at logical 1, is refused and not faulted (R91). -/
def Obligations.Mode32RefusesExtensionBits : Prop :=
  (∀ (b p : Byte) (tail : List Byte), b ∈ [0xC4#8, 0xC5#8, 0x62#8] → p.extractLsb' 6 2 ≠ 3#2 →
    decode .mode32 (b :: p :: tail) = .notThisFamily) ∧
  (∀ (p0 p1 op modrm : Byte) (tail rest : List Byte) (rm : RmField), op ∈ [0x74#8, 0x75#8, 0x76#8] →
    takeRm modrm tail = some (rm, rest) → p0.extractLsb' 6 2 = 3#2 → p0.extractLsb' 0 5 = 1#5 →
    p1.extractLsb' 0 2 = 1#2 → (p0.getLsbD 5 = false ∨ p1.getLsbD 6 = false) →
    decode .mode32 (0xC4#8 :: p0 :: p1 :: op :: modrm :: tail) = .refused .extensionBits) ∧
  (∀ (p0 p1 p2 op modrm : Byte) (tail rest : List Byte) (rm : RmField), op ∈ [0x74#8, 0x75#8, 0x76#8] →
    takeRm modrm tail = some (rm, rest) → p0.extractLsb' 6 2 = 3#2 → p0.extractLsb' 0 2 = 1#2 →
    p1.extractLsb' 0 2 = 1#2 →
    (p0.getLsbD 5 = false ∨ p0.getLsbD 4 = false ∨ p1.getLsbD 6 = false ∨ p2.getLsbD 3 = false) →
    decode .mode32 (0x62#8 :: p0 :: p1 :: p2 :: op :: modrm :: tail) = .refused .extensionBits)

/-- In Mode32 only registers 0 to 7 of every file can be named (R11, R91). -/
def Obligations.Mode32NamesEightRegisters : Prop :=
  (∀ (e : LegacyEnc) (xmm : Bool) (rm : RmField) (r : BitVec 3), e.ok .mode32 xmm rm = true →
    (vecNum4 e.r r).toNat < 8 ∧ (vecNum4 e.b r).toNat < 8 ∧ (num4 e.b r).toNat < 8 ∧ (num4 e.x r).toNat < 8) ∧
  (∀ (e : VexEnc) (rm : RmField) (r : BitVec 3), e.ok .mode32 rm = true →
    (vecNum4 e.vex.r r).toNat < 8 ∧ (vecNum4 e.vex.b r).toNat < 8 ∧ e.src1.toNat < 8 ∧
      (num4 e.vex.b r).toNat < 8 ∧ (num4 e.vex.x r).toNat < 8) ∧
  (∀ (e : EvexEnc) (dword : Bool) (rm : RmField) (r : BitVec 3), e.ok .mode32 dword rm = true →
    e.src1.toNat < 8 ∧ (e.src2 r).toNat < 8 ∧ (num4 e.b r).toNat < 8 ∧ (num4 e.x r).toNat < 8)

/-- What the rules call ignored changes nothing: REX.W in the legacy forms, VEX.W, and EVEX.W in the byte and word forms
(R76, R83); REX.X without a SIB byte (R76) and VEX.X with a register operand (R78); REX.R in every MMX form and all of REX in
an MMX form with a register operand (R21, R76); and which segment an override names, with a register operand (R77). -/
def Obligations.IgnoredBitsChangeNothing : Prop :=
  (∀ mk, mk ∈ [Instr.pcmpeqbMm, Instr.pcmpeqwMm, Instr.pcmpeqdMm] →
    ∀ (s : State) (pre : List LegacyByte) (reg : BitVec 3),
      (∀ (q q' : Rex) (r : BitVec 3),
        exec (mk ⟨pre, some q⟩ reg (.reg r)) s = exec (mk ⟨pre, some q'⟩ reg (.reg r)) s) ∧
      (∀ (q : Rex) (r' : Bool) (rm : RmField),
        exec (mk ⟨pre, some q⟩ reg rm) s = exec (mk ⟨pre, some { q with r := r' }⟩ reg rm) s)) ∧
  (∀ mk, mk ∈ [Instr.pcmpeqbMm, Instr.pcmpeqwMm, Instr.pcmpeqdMm, Instr.pcmpeqbXmm, Instr.pcmpeqwXmm,
      Instr.pcmpeqdXmm] →
    ∀ (s : State) (pre post : List LegacyByte) (rex : Option Rex) (q : Rex) (reg : BitVec 3) (rm : RmField),
      (∀ w', exec (mk ⟨pre, some q⟩ reg rm) s = exec (mk ⟨pre, some { q with w := w' }⟩ reg rm) s) ∧
      (∀ x', rm.hasSib = false →
        exec (mk ⟨pre, some q⟩ reg rm) s = exec (mk ⟨pre, some { q with x := x' }⟩ reg rm) s) ∧
      (∀ g g' r, exec (mk ⟨pre ++ .seg g :: post, rex⟩ reg (.reg r)) s =
        exec (mk ⟨pre ++ .seg g' :: post, rex⟩ reg (.reg r)) s)) ∧
  (∀ mk, mk ∈ [Instr.vpcmpeqbXmm, Instr.vpcmpeqwXmm, Instr.vpcmpeqdXmm, Instr.vpcmpeqbYmm, Instr.vpcmpeqwYmm,
      Instr.vpcmpeqdYmm] →
    ∀ (s : State) (pre post : List LegacyByte) (vex : VexPayload) (r x b w : Bool) (vvvv : BitVec 4) (reg : BitVec 3),
      (∀ w' rm, exec (mk ⟨pre, .three r x b w vvvv⟩ reg rm) s = exec (mk ⟨pre, .three r x b w' vvvv⟩ reg rm) s) ∧
      (∀ x' n, exec (mk ⟨pre, .three r x b w vvvv⟩ reg (.reg n)) s =
        exec (mk ⟨pre, .three r x' b w vvvv⟩ reg (.reg n)) s) ∧
      (∀ g g' n, exec (mk ⟨pre ++ .seg g :: post, vex⟩ reg (.reg n)) s =
        exec (mk ⟨pre ++ .seg g' :: post, vex⟩ reg (.reg n)) s)) ∧
  (∀ mk, mk ∈ [Instr.vpcmpeqbK128, Instr.vpcmpeqbK256, Instr.vpcmpeqbK512, Instr.vpcmpeqwK128, Instr.vpcmpeqwK256,
      Instr.vpcmpeqwK512] →
    ∀ (s : State) (e : EvexEnc) (w : Bool) (reg : BitVec 3) (rm : RmField),
      exec (mk { e with w := w } reg rm) s = exec (mk e reg rm) s) ∧
  (∀ mk, mk ∈ [Instr.vpcmpeqdK128, Instr.vpcmpeqdK256, Instr.vpcmpeqdK512, Instr.vpcmpeqbK128, Instr.vpcmpeqbK256,
      Instr.vpcmpeqbK512, Instr.vpcmpeqwK128, Instr.vpcmpeqwK256, Instr.vpcmpeqwK512] →
    ∀ (s : State) (e : EvexEnc) (pre post : List LegacyByte) (g g' : Seg) (reg r : BitVec 3),
      exec (mk { e with pre := pre ++ .seg g :: post } reg (.reg r)) s =
        exec (mk { e with pre := pre ++ .seg g' :: post } reg (.reg r)) s)

/-- A few words of the worked examples and of the test vectors decode to the instruction they stand for: one of each
encoding class. -/
def Obligations.WorkedWordsDecode : Prop :=
  decode .mode64 [0x0F#8, 0x74#8, 0xC1#8] = .form (.pcmpeqbMm ⟨[], none⟩ 0#3 (.reg 1#3)) ∧
  decode .mode64 [0x66#8, 0x44#8, 0x0F#8, 0x75#8, 0xC9#8] =
    .form (.pcmpeqwXmm ⟨[.operandSize], some ⟨false, true, false, false⟩⟩ 1#3 (.reg 1#3)) ∧
  decode .mode64 [0xC5#8, 0xF5#8, 0x74#8, 0x00#8] =
    .form (.vpcmpeqbYmm ⟨[], .two false 1#4⟩ 0#3 (.mem (.base 0#3 .none))) ∧
  decode .mode64 [0x62#8, 0xF1#8, 0x6D#8, 0x5A#8, 0x76#8, 0x08#8] =
    .form (.vpcmpeqdK512 ⟨[], false, false, false, false, 2#4, true, 2#3⟩ 1#3 (.mem (.base 0#3 .none)))
end

