-- ==== Sys2Proof/Laws/Compare.lean ====
section
/-! SUPPORT. Bit by bit, what the lane functions of Machine/Compare.lean are: each is unfolded here once. -/

namespace Sys2Proof.Machine

variable {w L : Nat}

@[simp] theorem getLsbD_lane (a : BitVec L) (j i : Nat) :
    (lane w a j).getLsbD i = (decide (i < w) && a.getLsbD (w * j + i)) := by
  simp [lane]

theorem laneEq_iff (a b : BitVec L) (j : Nat) : laneEq w a b j = true ↔ lane w a j = lane w b j := by
  simp [laneEq]

theorem laneEq_comm (a b : BitVec L) (j : Nat) : laneEq w a b j = laneEq w b a j := by
  simp [laneEq, eq_comm]

@[simp] theorem laneEq_self (a : BitVec L) (j : Nat) : laneEq w a a j = true := by
  simp [laneEq]

/-- A bit of `eqLanes` says whether the lane it lies in is equal. -/
theorem getLsbD_eqLanes (a b : BitVec L) (i : Nat) :
    (eqLanes w a b).getLsbD i = (decide (i < L) && decide (i / w < L / w) && laneEq w a b (i / w)) := by
  by_cases h : i < L <;> simp [eqLanes, BitVec.getLsbD_ofFnLE, h]

/-- A bit of `eqMask` says whether its lane is equal. -/
theorem getLsbD_eqMask (a b : BitVec L) (j : Nat) :
    (eqMask w a b).getLsbD j = (decide (j < L / w) && laneEq w a b j) := by
  by_cases h : j < L / w <;> simp [eqMask, BitVec.getLsbD_ofFnLE, h]

/-- A bit of a broadcast is the bit of the doubleword at its place in its lane. -/
theorem getLsbD_broadcast32 (t : BitVec 32) (i : Nat) :
    (broadcast32 L t).getLsbD i = (decide (i < L) && t.getLsbD (i % 32)) := by
  by_cases h : i < L <;> simp [broadcast32, BitVec.getLsbD_ofFnLE, h]

/-- Bit `i` of lane `j` lies in lane `j`. -/
theorem lane_div {i j : Nat} (hi : i < w) : (w * j + i) / w = j := by
  rw [Nat.mul_add_div (by omega), Nat.div_eq_of_lt hi, Nat.add_zero]

/-- Every bit of lane `j < L / w` is a bit of the value. -/
theorem lane_lt {i j : Nat} (hi : i < w) (hj : j < L / w) : w * j + i < L := by
  have h1 : w * (j + 1) ≤ w * (L / w) := Nat.mul_le_mul_left w hj
  have h2 : w * (L / w) ≤ L := Nat.mul_div_le L w
  have h3 : w * (j + 1) = w * j + w := Nat.mul_succ w j
  omega

end Sys2Proof.Machine
end

