-- ==== Sys2Proof/Laws/Decode.lean ====
section
/-! SUPPORT. Each part of an encoding read back from its bytes: prefix bytes, REX, ModR/M with SIB and displacement, and the
VEX and EVEX payloads. The round trip of whole instructions is assembled from these. -/

namespace Sys2Proof

/-! ### Bytes made of fields -/

theorem fields233_hi (a : BitVec 2) (b c : BitVec 3) : bitsAt 6 2 (fields233 a b c) = a := by
  revert a b c
  decide

theorem fields233_mid (a : BitVec 2) (b c : BitVec 3) : bitsAt 3 3 (fields233 a b c) = b := by
  revert a b c
  decide

theorem fields233_lo (a : BitVec 2) (b c : BitVec 3) : bitsAt 0 3 (fields233 a b c) = c := by
  revert a b c
  decide

/-- Every byte is the byte of its three fields. -/
theorem fields233_eta (x : Byte) : fields233 (bitsAt 6 2 x) (bitsAt 3 3 x) (bitsAt 0 3 x) = x := by
  revert x
  decide

/-- A 32-bit displacement is read back from its bytes. -/
theorem takeDisp32_bytes (d : BitVec 32) (rest : List Byte) : takeDisp32 (disp32Bytes d ++ rest) = some (d, rest) := by
  simp only [disp32Bytes, List.cons_append, List.nil_append, takeDisp32, Option.some.injEq, Prod.mk.injEq, and_true]
  refine BitVec.eq_of_getLsbD_eq fun i hi => ?_
  simp only [BitVec.getLsbD_append, BitVec.getLsbD_extractLsb']
  by_cases h1 : i < 8
  · simp [h1]
  · by_cases h2 : i - 8 < 8
    · simp [h1, h2, show 8 + (i - 8) = i by omega]
    · by_cases h3 : i - 8 - 8 < 8
      · simp [h1, h2, h3, show 16 + (i - 8 - 8) = i by omega]
      · simp [h1, h2, h3, show 24 + (i - 8 - 8 - 8) = i by omega, show i - 8 - 8 - 8 < 8 by omega]

/-- Four bytes are the bytes of the displacement they make. -/
theorem takeDisp32_eq_some {bs : List Byte} {d : BitVec 32} {rest : List Byte} (h : takeDisp32 bs = some (d, rest)) :
    bs = disp32Bytes d ++ rest := by
  match bs with
  | [] | [_] | [_, _] | [_, _, _] => simp [takeDisp32] at h
  | b0 :: b1 :: b2 :: b3 :: tl =>
    simp only [takeDisp32, Option.some.injEq, Prod.mk.injEq] at h
    obtain ⟨rfl, rfl⟩ := h
    have hb (i : Nat) : (b3 ++ b2 ++ b1 ++ b0).getLsbD i =
        if i < 8 then b0.getLsbD i else if i - 8 < 8 then b1.getLsbD (i - 8)
        else if i - 8 - 8 < 8 then b2.getLsbD (i - 8 - 8) else b3.getLsbD (i - 8 - 8 - 8) := by
      rw [BitVec.getLsbD_append, BitVec.getLsbD_append, BitVec.getLsbD_append]
    have e0 : BitVec.extractLsb' 0 8 (b3 ++ b2 ++ b1 ++ b0) = b0 := BitVec.eq_of_getLsbD_eq fun i hi => by
      rw [BitVec.getLsbD_extractLsb', hb]
      simp [hi]
    have e1 : BitVec.extractLsb' 8 8 (b3 ++ b2 ++ b1 ++ b0) = b1 := BitVec.eq_of_getLsbD_eq fun i hi => by
      rw [BitVec.getLsbD_extractLsb', hb]
      simp [hi]
    have e2 : BitVec.extractLsb' 16 8 (b3 ++ b2 ++ b1 ++ b0) = b2 := BitVec.eq_of_getLsbD_eq fun i hi => by
      rw [BitVec.getLsbD_extractLsb', hb]
      simp [hi, show ¬ 16 + i < 8 by omega, show ¬ 16 + i - 8 < 8 by omega, show 16 + i - 8 - 8 = i by omega]
    have e3 : BitVec.extractLsb' 24 8 (b3 ++ b2 ++ b1 ++ b0) = b3 := BitVec.eq_of_getLsbD_eq fun i hi => by
      rw [BitVec.getLsbD_extractLsb', hb]
      simp [hi, show ¬ 24 + i < 8 by omega, show ¬ 24 + i - 8 < 8 by omega, show ¬ 24 + i - 8 - 8 < 8 by omega,
        show 24 + i - 8 - 8 - 8 = i by omega]
    simp [disp32Bytes, e0, e1, e2, e3]

/-- A displacement is read back from its bytes. -/
theorem takeDisp_bytes (d : Disp) (rest : List Byte) : takeDisp d.mod (d.bytes ++ rest) = some (d, rest) := by
  cases d <;> simp [takeDisp, Disp.mod, Disp.bytes, takeDisp32_bytes]

theorem Disp.mod_ne_three (d : Disp) : d.mod ≠ 3#2 := by
  cases d <;> simp [Disp.mod]

theorem Disp.mod_eq_zero_iff (d : Disp) : d.mod = 0#2 ↔ d = .none := by
  cases d <;> simp [Disp.mod]

/-! ### ModR/M, SIB and displacement -/

/-- The `r/m` operand and ModRM.reg are read back from their bytes, whatever follows (R74, R75). -/
theorem takeRm_rmBytes (reg : BitVec 3) (rm : RmField) (h : rm.ok = true) (rest : List Byte) :
    ∃ modrm tl, rmBytes reg rm ++ rest = modrm :: tl ∧ bitsAt 3 3 modrm = reg ∧ takeRm modrm tl = some (rm, rest) := by
  cases rm with
  | reg r => exact ⟨_, _, rfl, fields233_mid _ _ _, by simp [takeRm, fields233_hi, fields233_lo]⟩
  | mem m =>
    cases m with
    | base r d =>
      refine ⟨_, _, rfl, fields233_mid _ _ _, ?_⟩
      simp only [RmField.ok, MemField.ok, Bool.and_eq_true, bne_iff_ne, ne_eq, Bool.not_eq_true',
        Bool.and_eq_false_iff, beq_eq_false_iff_ne] at h
      have h5 : ¬ (d.mod = 0#2 ∧ r = 5#3) := by
        rw [Disp.mod_eq_zero_iff]
        rintro ⟨rfl, rfl⟩
        simp at h
      simp only [takeRm, fields233_hi, fields233_lo, d.mod_ne_three, h.1, h5, if_false, List.append_eq,
        takeDisp_bytes, Option.map_some]
    | relative d =>
      refine ⟨_, _, rfl, fields233_mid _ _ _, ?_⟩
      simp [takeRm, fields233_hi, fields233_lo, takeDisp32_bytes]
    | sib sc ix b d =>
      refine ⟨_, _, rfl, fields233_mid _ _ _, ?_⟩
      simp only [RmField.ok, MemField.ok, Bool.not_eq_true', Bool.and_eq_false_iff, beq_eq_false_iff_ne] at h
      have h5 : ¬ (d.mod = 0#2 ∧ b = 5#3) := by
        rw [Disp.mod_eq_zero_iff]
        rintro ⟨rfl, rfl⟩
        simp at h
      simp only [takeRm, takeSib, fields233_hi, fields233_mid, fields233_lo, d.mod_ne_three, h5, if_false, if_true,
        List.append_eq, List.cons_append, takeDisp_bytes, Option.map_some]
    | sibNoBase sc ix d =>
      refine ⟨_, _, rfl, fields233_mid _ _ _, ?_⟩
      simp [takeRm, takeSib, fields233_hi, fields233_mid, fields233_lo, takeDisp32_bytes]

/-- The other direction: what is read as an `r/m` operand has the bytes of that operand, and is well-formed. -/
theorem takeDisp_eq_some {mod : BitVec 2} {bs : List Byte} {d : Disp} {rest : List Byte} (hmod : mod ≠ 3#2)
    (h : takeDisp mod bs = some (d, rest)) : d.mod = mod ∧ bs = d.bytes ++ rest := by
  simp only [takeDisp] at h
  split at h
  · rename_i h0
    simp only [Option.some.injEq, Prod.mk.injEq] at h
    obtain ⟨rfl, rfl⟩ := h
    exact ⟨h0.symm, rfl⟩
  · rename_i h0
    split at h
    · rename_i h1
      cases bs with
      | nil => simp at h
      | cons b tl =>
        simp only [Option.some.injEq, Prod.mk.injEq] at h
        obtain ⟨rfl, rfl⟩ := h
        exact ⟨h1.symm, rfl⟩
    · rename_i h1
      obtain ⟨⟨d', rest'⟩, hd, heq⟩ := Option.map_eq_some_iff.mp h
      simp only [Prod.mk.injEq] at heq
      obtain ⟨rfl, rfl⟩ := heq
      refine ⟨?_, takeDisp32_eq_some hd⟩
      have : ∀ m : BitVec 2, m ≠ 0#2 → m ≠ 1#2 → m ≠ 3#2 → m = 2#2 := by decide
      exact (this mod h0 h1 hmod).symm

/-- What is read as an `r/m` operand has the bytes of that operand, and is well-formed (R74, R75). -/
theorem takeRm_eq_some {modrm : Byte} {bs : List Byte} {rm : RmField} {rest : List Byte}
    (h : takeRm modrm bs = some (rm, rest)) :
    rm.ok = true ∧ modrm :: bs = rmBytes (bitsAt 3 3 modrm) rm ++ rest := by
  have heta := fields233_eta modrm
  simp only [takeRm] at h
  split at h
  · rename_i h3
    simp only [Option.some.injEq, Prod.mk.injEq] at h
    obtain ⟨rfl, rfl⟩ := h
    rw [h3] at heta
    exact ⟨rfl, by simp [rmBytes, heta]⟩
  · rename_i h3
    split at h
    · rename_i h4
      cases bs with
      | nil => simp at h
      | cons sib tl =>
        have hsib := fields233_eta sib
        obtain ⟨⟨m, rest'⟩, hm, heq⟩ := Option.map_eq_some_iff.mp h
        simp only [Prod.mk.injEq] at heq
        obtain ⟨rfl, rfl⟩ := heq
        simp only [takeSib] at hm
        split at hm
        · rename_i h5
          obtain ⟨⟨d, rest''⟩, hd, heq⟩ := Option.map_eq_some_iff.mp hm
          simp only [Prod.mk.injEq] at heq
          obtain ⟨rfl, rfl⟩ := heq
          rw [h4, h5.1] at heta
          rw [h5.2] at hsib
          exact ⟨rfl, by simp [rmBytes, heta, hsib, takeDisp32_eq_some hd]⟩
        · rename_i h5
          obtain ⟨⟨d, rest''⟩, hd, heq⟩ := Option.map_eq_some_iff.mp hm
          simp only [Prod.mk.injEq] at heq
          obtain ⟨rfl, rfl⟩ := heq
          obtain ⟨hmod, hbs⟩ := takeDisp_eq_some h3 hd
          rw [h4, ← hmod] at heta
          rw [← hmod, Disp.mod_eq_zero_iff] at h5
          refine ⟨?_, by simp [rmBytes, heta, hsib, hbs]⟩
          simp only [RmField.ok, MemField.ok, Bool.not_eq_true', Bool.and_eq_false_iff, beq_eq_false_iff_ne]
          by_cases h : d = .none
          · exact .inl fun hb => h5 ⟨h, hb⟩
          · exact .inr h
    · rename_i h4
      split at h
      · rename_i h5
        obtain ⟨⟨d, rest'⟩, hd, heq⟩ := Option.map_eq_some_iff.mp h
        simp only [Prod.mk.injEq] at heq
        obtain ⟨rfl, rfl⟩ := heq
        rw [h5.1, h5.2] at heta
        exact ⟨rfl, by simp [rmBytes, heta, takeDisp32_eq_some hd]⟩
      · rename_i h5
        obtain ⟨⟨d, rest'⟩, hd, heq⟩ := Option.map_eq_some_iff.mp h
        simp only [Prod.mk.injEq] at heq
        obtain ⟨rfl, rfl⟩ := heq
        obtain ⟨hmod, hbs⟩ := takeDisp_eq_some h3 hd
        rw [← hmod] at heta
        rw [← hmod, Disp.mod_eq_zero_iff] at h5
        refine ⟨?_, by simp [rmBytes, heta, hbs]⟩
        simp only [RmField.ok, MemField.ok, Bool.and_eq_true, bne_iff_ne, ne_eq, Bool.not_eq_true',
          Bool.and_eq_false_iff, beq_eq_false_iff_ne]
        refine ⟨h4, ?_⟩
        by_cases h : d = .none
        · exact .inl fun hb => h5 ⟨h, hb⟩
        · exact .inr h

/-! ### The bytes before an opcode -/

/-- Every byte that R77 admits is read as itself, in every mode. -/
theorem leadByteOf_encode (m : Mode) (p : LegacyByte) : leadByteOf m p.encode = some (.plain p) := by
  cases p with
  | seg g => cases g <;> rfl
  | addressSize => rfl
  | operandSize => rfl

/-- A REX byte is read back in 64-bit mode (R76). -/
theorem leadByteOf_rex (r : Rex) : leadByteOf .mode64 r.encode = some (.rex r) := by
  obtain ⟨w, r, x, b⟩ := r
  revert w r x b
  decide

/-- The bytes that open an opcode are no bytes before one. -/
theorem leadByteOf_opening (m : Mode) :
    leadByteOf m 0x0F#8 = none ∧ leadByteOf m 0xC5#8 = none ∧ leadByteOf m 0xC4#8 = none ∧
      leadByteOf m 0x62#8 = none := by
  cases m <;> decide

/-- Splitting at the first byte that is not before an opcode. -/
theorem splitLead_of_none {m : Mode} {b : Byte} (h : leadByteOf m b = none) (bs : List Byte) :
    splitLead m (b :: bs) = ([], b :: bs) := by
  simp [splitLead, h]

theorem splitLead_of_some {m : Mode} {b : Byte} {p : LeadByte} (h : leadByteOf m b = some p) (bs : List Byte) :
    splitLead m (b :: bs) = (p :: (splitLead m bs).1, (splitLead m bs).2) := by
  simp [splitLead, h]

/-- The admitted bytes of an encoding are split off in their order. -/
theorem splitLead_pre (m : Mode) (pre : List LegacyByte) (bs : List Byte) :
    splitLead m (pre.map LegacyByte.encode ++ bs) =
      (pre.map LeadByte.plain ++ (splitLead m bs).1, (splitLead m bs).2) := by
  induction pre with
  | nil => simp
  | cons p pre ih => simp [splitLead_of_some (leadByteOf_encode m p), ih]

theorem admitLead_plain (pre : List LegacyByte) : admitLead (pre.map LeadByte.plain) = some (pre, none) := by
  induction pre with
  | nil => rfl
  | cons p pre ih => simp [admitLead, ih]

theorem admitLead_rex (pre : List LegacyByte) (r : Rex) :
    admitLead (pre.map LeadByte.plain ++ [.rex r]) = some (pre, some r) := by
  induction pre with
  | nil => rfl
  | cons p pre ih => simp [admitLead, ih]

/-! ### VEX and EVEX payloads -/

/-- The two-byte VEX payload is read back, with its `L` and implied prefix (R78). -/
theorem vexTwo_encode (r l : Bool) (vvvv : BitVec 4) :
    vexTwo (inv1 r ++ ~~~vvvv ++ bit1 l ++ 1#2) = .two r vvvv ∧
      (inv1 r ++ ~~~vvvv ++ bit1 l ++ 1#2).getLsbD 2 = l ∧ bitsAt 0 2 (inv1 r ++ ~~~vvvv ++ bit1 l ++ 1#2) = 1#2 := by
  revert r l vvvv
  decide

/-- The three-byte VEX payload is read back (R78). -/
theorem vexThree_encode (r x b w l : Bool) (vvvv : BitVec 4) :
    vexThree (inv1 r ++ inv1 x ++ inv1 b ++ 1#5) (bit1 w ++ ~~~vvvv ++ bit1 l ++ 1#2) = .three r x b w vvvv ∧
      (bit1 w ++ ~~~vvvv ++ bit1 l ++ 1#2).getLsbD 2 = l ∧ bitsAt 0 2 (bit1 w ++ ~~~vvvv ++ bit1 l ++ 1#2) = 1#2 ∧
      bitsAt 0 5 (inv1 r ++ inv1 x ++ inv1 b ++ 1#5) = 1#5 := by
  revert r x b w l vvvv
  decide

/-- `P0` of an EVEX prefix is read back (R80, R88). -/
theorem evexP0_encode (x b : Bool) :
    (bit1 true ++ inv1 x ++ inv1 b ++ bit1 true ++ 0#2 ++ 1#2 : Byte).getLsbD 6 = !x ∧
      (bit1 true ++ inv1 x ++ inv1 b ++ bit1 true ++ 0#2 ++ 1#2 : Byte).getLsbD 5 = !b ∧
      bitsAt 0 2 (bit1 true ++ inv1 x ++ inv1 b ++ bit1 true ++ 0#2 ++ 1#2) = 1#2 ∧
      bitsAt 2 2 (bit1 true ++ inv1 x ++ inv1 b ++ bit1 true ++ 0#2 ++ 1#2) = 0#2 ∧
      evexRegExtended (bit1 true ++ inv1 x ++ inv1 b ++ bit1 true ++ 0#2 ++ 1#2) = false := by
  revert x b
  decide

/-- `P1` of an EVEX prefix is read back (R80). -/
theorem evexP1_encode (w : Bool) (vvvv : BitVec 4) :
    (bit1 w ++ ~~~vvvv ++ 1#1 ++ 1#2 : Byte).getLsbD 7 = w ∧ ~~~(bitsAt 3 4 (bit1 w ++ ~~~vvvv ++ 1#1 ++ 1#2)) = vvvv ∧
      (bit1 w ++ ~~~vvvv ++ 1#1 ++ 1#2 : Byte).getLsbD 2 = true ∧
      bitsAt 0 2 (bit1 w ++ ~~~vvvv ++ 1#1 ++ 1#2) = 1#2 := by
  revert w vvvv
  decide

/-- `P2` of an EVEX prefix is read back (R80). -/
theorem evexP2_encode (ll : BitVec 2) (bc v' : Bool) (aaa : BitVec 3) :
    (bit1 false ++ ll ++ bit1 bc ++ inv1 v' ++ aaa : Byte).getLsbD 3 = !v' ∧
      (bit1 false ++ ll ++ bit1 bc ++ inv1 v' ++ aaa : Byte).getLsbD 4 = bc ∧
      bitsAt 0 3 (bit1 false ++ ll ++ bit1 bc ++ inv1 v' ++ aaa) = aaa ∧
      bitsAt 5 2 (bit1 false ++ ll ++ bit1 bc ++ inv1 v' ++ aaa) = ll ∧
      (bit1 false ++ ll ++ bit1 bc ++ inv1 v' ++ aaa : Byte).getLsbD 7 = false := by
  revert ll bc v' aaa
  decide

/-! ### Lengths -/

theorem Disp.length_bytes (d : Disp) : d.bytes.length = d.length := by
  cases d <;> rfl

theorem RmField.length_rmBytes (reg : BitVec 3) (rm : RmField) : (rmBytes reg rm).length = rm.length := by
  cases rm with
  | reg r => rfl
  | mem m => cases m <;> simp [rmBytes, RmField.length, Disp.length_bytes, disp32Bytes] <;> omega

theorem length_encodeLegacy (el : Elem) (e : LegacyEnc) (reg : BitVec 3) (rm : RmField) :
    (encodeLegacy el e reg rm).length = legacyLength e rm := by
  simp [encodeLegacy, legacyLength, RmField.length_rmBytes]
  omega

theorem length_encodeVex (el : Elem) (l : Bool) (e : VexEnc) (reg : BitVec 3) (rm : RmField) :
    (encodeVex el l e reg rm).length = vexLength e rm := by
  obtain ⟨pre, vex⟩ := e
  cases vex <;> simp [encodeVex, vexLength, VexPayload.encode, RmField.length_rmBytes] <;> omega

theorem length_encodeEvex (el : Elem) (ll : BitVec 2) (e : EvexEnc) (reg : BitVec 3) (rm : RmField) :
    (encodeEvex el ll e reg rm).length = evexLength e rm := by
  simp [encodeEvex, evexLength, EvexEnc.payload, RmField.length_rmBytes]
  omega

end Sys2Proof
end

