-- ==== Sys2Proof/Laws/Memory.lean ====
section
/-! SUPPORT. What the memory operations do, and that each keeps the canonical form. -/

namespace Sys2Proof.Machine

/-- Read after write, at the address written and at any other. -/
theorem Memory.read_write (m : Memory) (a : Nat) (b : Byte) (a' : Nat) :
    (m.write a b).read a' = if a' = a then some b else m.read a' := by
  induction m with
  | nil => simp [Memory.write, Memory.read]
  | cons c rest ih =>
    simp only [Memory.write]
    split
    · simp [Memory.read]
    · split
      · rename_i h1 h2
        subst h2
        by_cases h : a' = c.1 <;> simp [Memory.read, h]
      · rename_i h1 h2
        simp only [Memory.read, ih]
        by_cases h : a' = c.1
        · simp [h, show c.1 ≠ a from fun e => h2 e.symm]
        · simp [h]

/-- Every address listed after a write was listed before or is the address written. -/
theorem Memory.mem_write {m : Memory} {a : Nat} {b : Byte} {c : Host.Cell} (h : c ∈ m.write a b) :
    c = (a, b) ∨ c ∈ m := by
  induction m with
  | nil => simpa [Memory.write] using h
  | cons d rest ih =>
    simp only [Memory.write] at h
    split at h
    · simpa using h
    · split at h
      · rcases List.mem_cons.mp h with h | h
        · exact .inl h
        · exact .inr (List.mem_cons_of_mem _ h)
      · rcases List.mem_cons.mp h with h | h
        · exact .inr (h ▸ List.mem_cons_self)
        · rcases ih h with h | h
          · exact .inl h
          · exact .inr (List.mem_cons_of_mem _ h)

theorem Memory.wf_iff (m : Memory) :
    m.wf = true ↔ m.Pairwise (fun a b => a.1 < b.1) ∧ ∀ c ∈ m, c.1 < 2 ^ 64 := by
  simp [Memory.wf]

/-- A write keeps the addresses strictly rising. -/
theorem Memory.pairwise_write {m : Memory} (h : m.Pairwise fun a b => a.1 < b.1) (a : Nat) (b : Byte) :
    (m.write a b).Pairwise fun a b => a.1 < b.1 := by
  induction m with
  | nil => simp [Memory.write]
  | cons c rest ih =>
    obtain ⟨hc, hr⟩ := List.pairwise_cons.mp h
    simp only [Memory.write]
    split
    · rename_i hlt
      refine List.pairwise_cons.mpr ⟨fun d hd => ?_, h⟩
      rcases List.mem_cons.mp hd with rfl | hd
      · exact hlt
      · exact hlt.trans (hc d hd)
    · split
      · rename_i heq
        exact List.pairwise_cons.mpr ⟨fun d hd => heq ▸ hc d hd, hr⟩
      · rename_i h1 h2
        refine List.pairwise_cons.mpr ⟨fun d hd => ?_, ih hr⟩
        rcases Memory.mem_write hd with rfl | hd
        · show c.1 < a
          omega
        · exact hc d hd

/-- A write of an address of the address space keeps the canonical form. -/
theorem Memory.wf_write {m : Memory} (h : m.wf = true) {a : Nat} (ha : a < 2 ^ 64) (b : Byte) :
    (m.write a b).wf = true := by
  obtain ⟨hp, hb⟩ := (Memory.wf_iff m).mp h
  refine (Memory.wf_iff _).mpr ⟨Memory.pairwise_write hp a b, fun c hc => ?_⟩
  rcases Memory.mem_write hc with rfl | hc
  · exact ha
  · exact hb c hc

/-- Loading bytes keeps the canonical form. -/
theorem Memory.wf_writeBytes {m : Memory} (h : m.wf = true) (a : Nat) (bs : List Byte) :
    (m.writeBytes a bs).wf = true := by
  induction bs generalizing m a with
  | nil => exact h
  | cons b bs ih =>
    refine ih ?_ (a + 1)
    split
    · rename_i ha
      exact Memory.wf_write h ha b
    · exact h

/-- The memory and the program text of the reset state have the canonical form. -/
theorem reset_memories_wf : State.reset.mem.wf = true ∧ State.reset.text.wf = true := by decide

/-- Loading bytes changes no address outside them. -/
theorem Memory.read_writeBytes_of_lt (m : Memory) (a : Nat) (bs : List Byte) {a' : Nat} (h : a' < a) :
    (m.writeBytes a bs).read a' = m.read a' := by
  induction bs generalizing m a with
  | nil => rfl
  | cons b bs ih =>
    simp only [Memory.writeBytes]
    rw [ih _ (a + 1) (by omega)]
    split
    · simp [Memory.read_write, show a' ≠ a by omega]
    · rfl

/-- What reading a list of addresses gives: all their bytes, or an address that holds none. -/
theorem Memory.readAll_eq_ok (m : Memory) (as : List Nat) (bs : List Byte) :
    m.readAll as = .ok bs ↔ as.map m.read = bs.map some := by
  induction as generalizing bs with
  | nil => cases bs <;> simp [Memory.readAll]
  | cons a rest ih =>
    simp only [Memory.readAll]
    cases hr : m.read a with
    | none => cases bs <;> simp [hr]
    | some b =>
      cases hrest : m.readAll rest with
      | error e =>
        cases bs with
        | nil => simp
        | cons b' bs' =>
          have := (ih bs').not.mp (by simp [hrest])
          simp [hr, this]
      | ok bs0 =>
        cases bs with
        | nil => simp
        | cons b' bs' =>
          have := ih bs'
          rw [hrest] at this
          simp [hr, ← this]

theorem Memory.length_readAll {m : Memory} {as : List Nat} {bs : List Byte} (h : m.readAll as = .ok bs) :
    bs.length = as.length := by
  have := congrArg List.length ((Memory.readAll_eq_ok m as bs).mp h)
  simpa using this.symm

/-- A failed read names an address of the list that holds no byte. -/
theorem Memory.readAll_error {m : Memory} {as : List Nat} {a : Nat} (h : m.readAll as = .error a) :
    a ∈ as ∧ m.read a = none := by
  induction as with
  | nil => simp [Memory.readAll] at h
  | cons a0 rest ih =>
    simp only [Memory.readAll] at h
    split at h
    · rename_i h0
      injection h with h
      subst h
      exact ⟨List.mem_cons_self, h0⟩
    · split at h
      · rename_i h0
        injection h with h
        subst h
        exact ⟨List.mem_cons_of_mem _ (ih h0).1, (ih h0).2⟩
      · cases h

/-- Where every address holds a byte, the bytes are read. -/
theorem Memory.readAll_of_held {m : Memory} {as : List Nat} (h : ∀ a ∈ as, m.read a ≠ none) :
    ∃ bs, m.readAll as = .ok bs := by
  induction as with
  | nil => exact ⟨[], rfl⟩
  | cons a rest ih =>
    obtain ⟨bs, hb⟩ := ih fun x hx => h x (.tail _ hx)
    cases hm : m.read a with
    | none => exact absurd hm (h a (.head _))
    | some b => exact ⟨b :: bs, by simp [Memory.readAll, hm, hb]⟩

/-- Otherwise the first address that holds none is the one reported. -/
theorem Memory.readAll_of_missing {m : Memory} {before after : List Nat} {a : Nat} (h : ∀ x ∈ before, m.read x ≠ none)
    (ha : m.read a = none) : m.readAll (before ++ a :: after) = .error a := by
  induction before with
  | nil => simp [Memory.readAll, ha]
  | cons x rest ih =>
    cases hm : m.read x with
    | none => exact absurd hm (h x (.head _))
    | some b => simp [Memory.readAll, hm, ih fun y hy => h y (.tail _ hy)]

theorem littleEndian_lt (bs : List Byte) : littleEndian bs < 256 ^ bs.length := by
  induction bs with
  | nil => simp [littleEndian]
  | cons b bs ih =>
    have hb := b.isLt
    simp only [littleEndian, List.length_cons, Nat.pow_succ]
    omega

end Sys2Proof.Machine
end

