-- ==== Sys2Proof/Laws/State.lean ====
section
/-! SUPPORT. What each update of State leaves in each field, and what the register reads give after a register write. -/

namespace Sys2Proof.Machine

variable (s : State)

/-! ### setMm -/

@[simp] theorem State.setMm_config (d : BitVec 3) (val : BitVec 64) : (s.setMm d val).config = s.config := rfl
@[simp] theorem State.setMm_mode (d : BitVec 3) (val : BitVec 64) : (s.setMm d val).mode = s.mode := rfl
@[simp] theorem State.setMm_x87 (d : BitVec 3) (val : BitVec 64) : (s.setMm d val).x87 = s.x87.set d.toNat (0xFFFF#16 ++ val) := rfl
@[simp] theorem State.setMm_x87sw (d : BitVec 3) (val : BitVec 64) : (s.setMm d val).x87sw = s.x87sw &&& 0xC7FF#16 := rfl
@[simp] theorem State.setMm_x87tw (d : BitVec 3) (val : BitVec 64) : (s.setMm d val).x87tw = 0#16 := rfl
@[simp] theorem State.setMm_x87Pending (d : BitVec 3) (val : BitVec 64) : (s.setMm d val).x87Pending = s.x87Pending := rfl
@[simp] theorem State.setMm_v (d : BitVec 3) (val : BitVec 64) : (s.setMm d val).v = s.v := rfl
@[simp] theorem State.setMm_k (d : BitVec 3) (val : BitVec 64) : (s.setMm d val).k = s.k := rfl
@[simp] theorem State.setMm_x (d : BitVec 3) (val : BitVec 64) : (s.setMm d val).x = s.x := rfl
@[simp] theorem State.setMm_pc (d : BitVec 3) (val : BitVec 64) : (s.setMm d val).pc = s.pc := rfl
@[simp] theorem State.setMm_eflags (d : BitVec 3) (val : BitVec 64) : (s.setMm d val).eflags = s.eflags := rfl
@[simp] theorem State.setMm_mxcsr (d : BitVec 3) (val : BitVec 64) : (s.setMm d val).mxcsr = s.mxcsr := rfl
@[simp] theorem State.setMm_cr0 (d : BitVec 3) (val : BitVec 64) : (s.setMm d val).cr0 = s.cr0 := rfl
@[simp] theorem State.setMm_cr2 (d : BitVec 3) (val : BitVec 64) : (s.setMm d val).cr2 = s.cr2 := rfl
@[simp] theorem State.setMm_cr4 (d : BitVec 3) (val : BitVec 64) : (s.setMm d val).cr4 = s.cr4 := rfl
@[simp] theorem State.setMm_xcr0 (d : BitVec 3) (val : BitVec 64) : (s.setMm d val).xcr0 = s.xcr0 := rfl
@[simp] theorem State.setMm_cpl (d : BitVec 3) (val : BitVec 64) : (s.setMm d val).cpl = s.cpl := rfl
@[simp] theorem State.setMm_segs (d : BitVec 3) (val : BitVec 64) : (s.setMm d val).segs = s.segs := rfl
@[simp] theorem State.setMm_breakpointArmed (d : BitVec 3) (val : BitVec 64) : (s.setMm d val).breakpointArmed = s.breakpointArmed := rfl
@[simp] theorem State.setMm_oracle (d : BitVec 3) (val : BitVec 64) : (s.setMm d val).oracle = s.oracle := rfl
@[simp] theorem State.setMm_mem (d : BitVec 3) (val : BitVec 64) : (s.setMm d val).mem = s.mem := rfl
@[simp] theorem State.setMm_text (d : BitVec 3) (val : BitVec 64) : (s.setMm d val).text = s.text := rfl

/-! ### setXmm -/

@[simp] theorem State.setXmm_config (n : BitVec 5) (val : BitVec 128) : (s.setXmm n val).config = s.config := rfl
@[simp] theorem State.setXmm_mode (n : BitVec 5) (val : BitVec 128) : (s.setXmm n val).mode = s.mode := rfl
@[simp] theorem State.setXmm_x87 (n : BitVec 5) (val : BitVec 128) : (s.setXmm n val).x87 = s.x87 := rfl
@[simp] theorem State.setXmm_x87sw (n : BitVec 5) (val : BitVec 128) : (s.setXmm n val).x87sw = s.x87sw := rfl
@[simp] theorem State.setXmm_x87tw (n : BitVec 5) (val : BitVec 128) : (s.setXmm n val).x87tw = s.x87tw := rfl
@[simp] theorem State.setXmm_x87Pending (n : BitVec 5) (val : BitVec 128) : (s.setXmm n val).x87Pending = s.x87Pending := rfl
@[simp] theorem State.setXmm_v (n : BitVec 5) (val : BitVec 128) : (s.setXmm n val).v = s.v.set n.toNat (s.v[n.toNat].extractLsb' 128 384 ++ val) := rfl
@[simp] theorem State.setXmm_k (n : BitVec 5) (val : BitVec 128) : (s.setXmm n val).k = s.k := rfl
@[simp] theorem State.setXmm_x (n : BitVec 5) (val : BitVec 128) : (s.setXmm n val).x = s.x := rfl
@[simp] theorem State.setXmm_pc (n : BitVec 5) (val : BitVec 128) : (s.setXmm n val).pc = s.pc := rfl
@[simp] theorem State.setXmm_eflags (n : BitVec 5) (val : BitVec 128) : (s.setXmm n val).eflags = s.eflags := rfl
@[simp] theorem State.setXmm_mxcsr (n : BitVec 5) (val : BitVec 128) : (s.setXmm n val).mxcsr = s.mxcsr := rfl
@[simp] theorem State.setXmm_cr0 (n : BitVec 5) (val : BitVec 128) : (s.setXmm n val).cr0 = s.cr0 := rfl
@[simp] theorem State.setXmm_cr2 (n : BitVec 5) (val : BitVec 128) : (s.setXmm n val).cr2 = s.cr2 := rfl
@[simp] theorem State.setXmm_cr4 (n : BitVec 5) (val : BitVec 128) : (s.setXmm n val).cr4 = s.cr4 := rfl
@[simp] theorem State.setXmm_xcr0 (n : BitVec 5) (val : BitVec 128) : (s.setXmm n val).xcr0 = s.xcr0 := rfl
@[simp] theorem State.setXmm_cpl (n : BitVec 5) (val : BitVec 128) : (s.setXmm n val).cpl = s.cpl := rfl
@[simp] theorem State.setXmm_segs (n : BitVec 5) (val : BitVec 128) : (s.setXmm n val).segs = s.segs := rfl
@[simp] theorem State.setXmm_breakpointArmed (n : BitVec 5) (val : BitVec 128) : (s.setXmm n val).breakpointArmed = s.breakpointArmed := rfl
@[simp] theorem State.setXmm_oracle (n : BitVec 5) (val : BitVec 128) : (s.setXmm n val).oracle = s.oracle := rfl
@[simp] theorem State.setXmm_mem (n : BitVec 5) (val : BitVec 128) : (s.setXmm n val).mem = s.mem := rfl
@[simp] theorem State.setXmm_text (n : BitVec 5) (val : BitVec 128) : (s.setXmm n val).text = s.text := rfl

/-! ### setVec -/

@[simp] theorem State.setVec_config {L : Nat} (n : BitVec 5) (val : BitVec L) : (s.setVec n val).config = s.config := rfl
@[simp] theorem State.setVec_mode {L : Nat} (n : BitVec 5) (val : BitVec L) : (s.setVec n val).mode = s.mode := rfl
@[simp] theorem State.setVec_x87 {L : Nat} (n : BitVec 5) (val : BitVec L) : (s.setVec n val).x87 = s.x87 := rfl
@[simp] theorem State.setVec_x87sw {L : Nat} (n : BitVec 5) (val : BitVec L) : (s.setVec n val).x87sw = s.x87sw := rfl
@[simp] theorem State.setVec_x87tw {L : Nat} (n : BitVec 5) (val : BitVec L) : (s.setVec n val).x87tw = s.x87tw := rfl
@[simp] theorem State.setVec_x87Pending {L : Nat} (n : BitVec 5) (val : BitVec L) : (s.setVec n val).x87Pending = s.x87Pending := rfl
@[simp] theorem State.setVec_v {L : Nat} (n : BitVec 5) (val : BitVec L) : (s.setVec n val).v = s.v.set n.toNat (val.setWidth 512) := rfl
@[simp] theorem State.setVec_k {L : Nat} (n : BitVec 5) (val : BitVec L) : (s.setVec n val).k = s.k := rfl
@[simp] theorem State.setVec_x {L : Nat} (n : BitVec 5) (val : BitVec L) : (s.setVec n val).x = s.x := rfl
@[simp] theorem State.setVec_pc {L : Nat} (n : BitVec 5) (val : BitVec L) : (s.setVec n val).pc = s.pc := rfl
@[simp] theorem State.setVec_eflags {L : Nat} (n : BitVec 5) (val : BitVec L) : (s.setVec n val).eflags = s.eflags := rfl
@[simp] theorem State.setVec_mxcsr {L : Nat} (n : BitVec 5) (val : BitVec L) : (s.setVec n val).mxcsr = s.mxcsr := rfl
@[simp] theorem State.setVec_cr0 {L : Nat} (n : BitVec 5) (val : BitVec L) : (s.setVec n val).cr0 = s.cr0 := rfl
@[simp] theorem State.setVec_cr2 {L : Nat} (n : BitVec 5) (val : BitVec L) : (s.setVec n val).cr2 = s.cr2 := rfl
@[simp] theorem State.setVec_cr4 {L : Nat} (n : BitVec 5) (val : BitVec L) : (s.setVec n val).cr4 = s.cr4 := rfl
@[simp] theorem State.setVec_xcr0 {L : Nat} (n : BitVec 5) (val : BitVec L) : (s.setVec n val).xcr0 = s.xcr0 := rfl
@[simp] theorem State.setVec_cpl {L : Nat} (n : BitVec 5) (val : BitVec L) : (s.setVec n val).cpl = s.cpl := rfl
@[simp] theorem State.setVec_segs {L : Nat} (n : BitVec 5) (val : BitVec L) : (s.setVec n val).segs = s.segs := rfl
@[simp] theorem State.setVec_breakpointArmed {L : Nat} (n : BitVec 5) (val : BitVec L) : (s.setVec n val).breakpointArmed = s.breakpointArmed := rfl
@[simp] theorem State.setVec_oracle {L : Nat} (n : BitVec 5) (val : BitVec L) : (s.setVec n val).oracle = s.oracle := rfl
@[simp] theorem State.setVec_mem {L : Nat} (n : BitVec 5) (val : BitVec L) : (s.setVec n val).mem = s.mem := rfl
@[simp] theorem State.setVec_text {L : Nat} (n : BitVec 5) (val : BitVec L) : (s.setVec n val).text = s.text := rfl

/-! ### setOpmask -/

@[simp] theorem State.setOpmask_config {KL : Nat} (n : BitVec 3) (val : BitVec KL) : (s.setOpmask n val).config = s.config := rfl
@[simp] theorem State.setOpmask_mode {KL : Nat} (n : BitVec 3) (val : BitVec KL) : (s.setOpmask n val).mode = s.mode := rfl
@[simp] theorem State.setOpmask_x87 {KL : Nat} (n : BitVec 3) (val : BitVec KL) : (s.setOpmask n val).x87 = s.x87 := rfl
@[simp] theorem State.setOpmask_x87sw {KL : Nat} (n : BitVec 3) (val : BitVec KL) : (s.setOpmask n val).x87sw = s.x87sw := rfl
@[simp] theorem State.setOpmask_x87tw {KL : Nat} (n : BitVec 3) (val : BitVec KL) : (s.setOpmask n val).x87tw = s.x87tw := rfl
@[simp] theorem State.setOpmask_x87Pending {KL : Nat} (n : BitVec 3) (val : BitVec KL) : (s.setOpmask n val).x87Pending = s.x87Pending := rfl
@[simp] theorem State.setOpmask_v {KL : Nat} (n : BitVec 3) (val : BitVec KL) : (s.setOpmask n val).v = s.v := rfl
@[simp] theorem State.setOpmask_k {KL : Nat} (n : BitVec 3) (val : BitVec KL) : (s.setOpmask n val).k = s.k.set n.toNat (val.setWidth 64) := rfl
@[simp] theorem State.setOpmask_x {KL : Nat} (n : BitVec 3) (val : BitVec KL) : (s.setOpmask n val).x = s.x := rfl
@[simp] theorem State.setOpmask_pc {KL : Nat} (n : BitVec 3) (val : BitVec KL) : (s.setOpmask n val).pc = s.pc := rfl
@[simp] theorem State.setOpmask_eflags {KL : Nat} (n : BitVec 3) (val : BitVec KL) : (s.setOpmask n val).eflags = s.eflags := rfl
@[simp] theorem State.setOpmask_mxcsr {KL : Nat} (n : BitVec 3) (val : BitVec KL) : (s.setOpmask n val).mxcsr = s.mxcsr := rfl
@[simp] theorem State.setOpmask_cr0 {KL : Nat} (n : BitVec 3) (val : BitVec KL) : (s.setOpmask n val).cr0 = s.cr0 := rfl
@[simp] theorem State.setOpmask_cr2 {KL : Nat} (n : BitVec 3) (val : BitVec KL) : (s.setOpmask n val).cr2 = s.cr2 := rfl
@[simp] theorem State.setOpmask_cr4 {KL : Nat} (n : BitVec 3) (val : BitVec KL) : (s.setOpmask n val).cr4 = s.cr4 := rfl
@[simp] theorem State.setOpmask_xcr0 {KL : Nat} (n : BitVec 3) (val : BitVec KL) : (s.setOpmask n val).xcr0 = s.xcr0 := rfl
@[simp] theorem State.setOpmask_cpl {KL : Nat} (n : BitVec 3) (val : BitVec KL) : (s.setOpmask n val).cpl = s.cpl := rfl
@[simp] theorem State.setOpmask_segs {KL : Nat} (n : BitVec 3) (val : BitVec KL) : (s.setOpmask n val).segs = s.segs := rfl
@[simp] theorem State.setOpmask_breakpointArmed {KL : Nat} (n : BitVec 3) (val : BitVec KL) : (s.setOpmask n val).breakpointArmed = s.breakpointArmed := rfl
@[simp] theorem State.setOpmask_oracle {KL : Nat} (n : BitVec 3) (val : BitVec KL) : (s.setOpmask n val).oracle = s.oracle := rfl
@[simp] theorem State.setOpmask_mem {KL : Nat} (n : BitVec 3) (val : BitVec KL) : (s.setOpmask n val).mem = s.mem := rfl
@[simp] theorem State.setOpmask_text {KL : Nat} (n : BitVec 3) (val : BitVec KL) : (s.setOpmask n val).text = s.text := rfl

/-! ### advance -/

@[simp] theorem State.advance_config (len : Nat) : (s.advance len).config = s.config := rfl
@[simp] theorem State.advance_mode (len : Nat) : (s.advance len).mode = s.mode := rfl
@[simp] theorem State.advance_x87 (len : Nat) : (s.advance len).x87 = s.x87 := rfl
@[simp] theorem State.advance_x87sw (len : Nat) : (s.advance len).x87sw = s.x87sw := rfl
@[simp] theorem State.advance_x87tw (len : Nat) : (s.advance len).x87tw = s.x87tw := rfl
@[simp] theorem State.advance_x87Pending (len : Nat) : (s.advance len).x87Pending = s.x87Pending := rfl
@[simp] theorem State.advance_v (len : Nat) : (s.advance len).v = s.v := rfl
@[simp] theorem State.advance_k (len : Nat) : (s.advance len).k = s.k := rfl
@[simp] theorem State.advance_x (len : Nat) : (s.advance len).x = s.x := rfl
@[simp] theorem State.advance_pc (len : Nat) : (s.advance len).pc = s.pc + BitVec.ofNat 64 len := rfl
@[simp] theorem State.advance_eflags (len : Nat) : (s.advance len).eflags = s.eflags := rfl
@[simp] theorem State.advance_mxcsr (len : Nat) : (s.advance len).mxcsr = s.mxcsr := rfl
@[simp] theorem State.advance_cr0 (len : Nat) : (s.advance len).cr0 = s.cr0 := rfl
@[simp] theorem State.advance_cr2 (len : Nat) : (s.advance len).cr2 = s.cr2 := rfl
@[simp] theorem State.advance_cr4 (len : Nat) : (s.advance len).cr4 = s.cr4 := rfl
@[simp] theorem State.advance_xcr0 (len : Nat) : (s.advance len).xcr0 = s.xcr0 := rfl
@[simp] theorem State.advance_cpl (len : Nat) : (s.advance len).cpl = s.cpl := rfl
@[simp] theorem State.advance_segs (len : Nat) : (s.advance len).segs = s.segs := rfl
@[simp] theorem State.advance_breakpointArmed (len : Nat) : (s.advance len).breakpointArmed = s.breakpointArmed := rfl
@[simp] theorem State.advance_oracle (len : Nat) : (s.advance len).oracle = s.oracle := rfl
@[simp] theorem State.advance_mem (len : Nat) : (s.advance len).mem = s.mem := rfl
@[simp] theorem State.advance_text (len : Nat) : (s.advance len).text = s.text := rfl

/-! ### loadText -/

@[simp] theorem State.loadText_config (bs : List Byte) : (s.loadText bs).config = s.config := rfl
@[simp] theorem State.loadText_mode (bs : List Byte) : (s.loadText bs).mode = s.mode := rfl
@[simp] theorem State.loadText_x87 (bs : List Byte) : (s.loadText bs).x87 = s.x87 := rfl
@[simp] theorem State.loadText_x87sw (bs : List Byte) : (s.loadText bs).x87sw = s.x87sw := rfl
@[simp] theorem State.loadText_x87tw (bs : List Byte) : (s.loadText bs).x87tw = s.x87tw := rfl
@[simp] theorem State.loadText_x87Pending (bs : List Byte) : (s.loadText bs).x87Pending = s.x87Pending := rfl
@[simp] theorem State.loadText_v (bs : List Byte) : (s.loadText bs).v = s.v := rfl
@[simp] theorem State.loadText_k (bs : List Byte) : (s.loadText bs).k = s.k := rfl
@[simp] theorem State.loadText_x (bs : List Byte) : (s.loadText bs).x = s.x := rfl
@[simp] theorem State.loadText_pc (bs : List Byte) : (s.loadText bs).pc = s.pc := rfl
@[simp] theorem State.loadText_eflags (bs : List Byte) : (s.loadText bs).eflags = s.eflags := rfl
@[simp] theorem State.loadText_mxcsr (bs : List Byte) : (s.loadText bs).mxcsr = s.mxcsr := rfl
@[simp] theorem State.loadText_cr0 (bs : List Byte) : (s.loadText bs).cr0 = s.cr0 := rfl
@[simp] theorem State.loadText_cr2 (bs : List Byte) : (s.loadText bs).cr2 = s.cr2 := rfl
@[simp] theorem State.loadText_cr4 (bs : List Byte) : (s.loadText bs).cr4 = s.cr4 := rfl
@[simp] theorem State.loadText_xcr0 (bs : List Byte) : (s.loadText bs).xcr0 = s.xcr0 := rfl
@[simp] theorem State.loadText_cpl (bs : List Byte) : (s.loadText bs).cpl = s.cpl := rfl
@[simp] theorem State.loadText_segs (bs : List Byte) : (s.loadText bs).segs = s.segs := rfl
@[simp] theorem State.loadText_breakpointArmed (bs : List Byte) : (s.loadText bs).breakpointArmed = s.breakpointArmed := rfl
@[simp] theorem State.loadText_oracle (bs : List Byte) : (s.loadText bs).oracle = s.oracle := rfl
@[simp] theorem State.loadText_mem (bs : List Byte) : (s.loadText bs).mem = s.mem := rfl
@[simp] theorem State.loadText_text (bs : List Byte) : (s.loadText bs).text = s.text.writeBytes s.pc.toNat bs := rfl

/-! ### Reads after writes -/

@[simp] theorem State.mm_setMm (d : BitVec 3) (val : BitVec 64) : (s.setMm d val).mm d = val := by
  simp only [State.mm, State.setMm_x87, Vector.getElem_set_self]
  ext i hi
  rw [BitVec.getElem_setWidth]
  exact (BitVec.getLsbD_append ..).trans (by simp [hi])

@[simp] theorem State.mm_setMm_of_ne {d d' : BitVec 3} (h : d' ≠ d) (val : BitVec 64) :
    (s.setMm d val).mm d' = s.mm d' := by
  have hne : d.toNat ≠ d'.toNat := fun he => h (BitVec.eq_of_toNat_eq he.symm)
  simp [State.mm, Vector.getElem_set_ne _ _ hne]

/-- The 16 bits above a written MMX register are ones (R28). -/
theorem State.x87_setMm_high (d : BitVec 3) (val : BitVec 64) :
    ((s.setMm d val).x87[d.toNat]).extractLsb' 64 16 = 0xFFFF#16 := by
  simp only [State.setMm_x87, Vector.getElem_set_self]
  ext i hi
  simp only [BitVec.getElem_extractLsb', BitVec.getLsbD_append, show ¬ 64 + i < 64 by omega, if_false,
    show 64 + i - 64 = i by omega, BitVec.getLsbD_eq_getElem hi]

@[simp] theorem State.vec_setVec {L : Nat} (hL : L ≤ 512) (n : BitVec 5) (val : BitVec L) :
    (s.setVec n val).vec L n = val := by
  simp only [State.vec, State.setVec_v, Vector.getElem_set_self]
  ext i hi
  simp [hi]
  omega

theorem State.v_setVec_of_ne {L : Nat} {n n' : BitVec 5} (h : n' ≠ n) (val : BitVec L) :
    (s.setVec n val).v[n'.toNat] = s.v[n'.toNat] := by
  have hne : n.toNat ≠ n'.toNat := fun he => h (BitVec.eq_of_toNat_eq he.symm)
  simp [Vector.getElem_set_ne _ _ hne]

@[simp] theorem State.vec_setXmm (n : BitVec 5) (val : BitVec 128) : (s.setXmm n val).vec 128 n = val := by
  simp only [State.vec, State.setXmm_v, Vector.getElem_set_self]
  ext i hi
  rw [BitVec.getElem_setWidth]
  exact (BitVec.getLsbD_append ..).trans (by simp [hi])

/-- The bits of a vector register above the 128 that a legacy form writes are kept (R130). -/
theorem State.v_setXmm_high (n : BitVec 5) (val : BitVec 128) (j : Nat) (hj : 128 ≤ j) :
    ((s.setXmm n val).v[n.toNat]).getLsbD j = (s.v[n.toNat]).getLsbD j := by
  simp only [State.setXmm_v, Vector.getElem_set_self, BitVec.getLsbD_append, BitVec.getLsbD_extractLsb']
  have h1 : ¬ j < 128 := by omega
  have h2 : 128 + (j - 128) = j := by omega
  by_cases h : j < 512
  · simp [h1, h2, show j - 128 < 384 by omega]
  · simp [h1, h2, show ¬ j - 128 < 384 by omega, BitVec.getLsbD_of_ge _ _ (Nat.le_of_not_lt h)]

theorem State.v_setXmm_of_ne {n n' : BitVec 5} (h : n' ≠ n) (val : BitVec 128) :
    (s.setXmm n val).v[n'.toNat] = s.v[n'.toNat] := by
  have hne : n.toNat ≠ n'.toNat := fun he => h (BitVec.eq_of_toNat_eq he.symm)
  simp [Vector.getElem_set_ne _ _ hne]

@[simp] theorem State.opmask_setOpmask {KL : Nat} (n : BitVec 3) (val : BitVec KL) :
    (s.setOpmask n val).opmask n = val.setWidth 64 := by
  simp [State.opmask]

@[simp] theorem State.opmask_setOpmask_of_ne {KL : Nat} {n n' : BitVec 3} (h : n' ≠ n) (val : BitVec KL) :
    (s.setOpmask n val).opmask n' = s.opmask n' := by
  have hne : n.toNat ≠ n'.toNat := fun he => h (BitVec.eq_of_toNat_eq he.symm)
  simp [State.opmask, Vector.getElem_set_ne _ _ hne]

/-! ### Accessors that a register write does not change -/

@[simp] theorem State.setMm_em (d : BitVec 3) (val : BitVec 64) : (s.setMm d val).em = s.em := rfl
@[simp] theorem State.setMm_ts (d : BitVec 3) (val : BitVec 64) : (s.setMm d val).ts = s.ts := rfl
@[simp] theorem State.setMm_am (d : BitVec 3) (val : BitVec 64) : (s.setMm d val).am = s.am := rfl
@[simp] theorem State.setMm_osfxsr (d : BitVec 3) (val : BitVec 64) : (s.setMm d val).osfxsr = s.osfxsr := rfl
@[simp] theorem State.setMm_osxsave (d : BitVec 3) (val : BitVec 64) : (s.setMm d val).osxsave = s.osxsave := rfl
@[simp] theorem State.setMm_tf (d : BitVec 3) (val : BitVec 64) : (s.setMm d val).tf = s.tf := rfl
@[simp] theorem State.setMm_ac (d : BitVec 3) (val : BitVec 64) : (s.setMm d val).ac = s.ac := rfl
@[simp] theorem State.setMm_avxEnabled (d : BitVec 3) (val : BitVec 64) : (s.setMm d val).avxEnabled = s.avxEnabled := rfl
@[simp] theorem State.setMm_avx512Enabled (d : BitVec 3) (val : BitVec 64) : (s.setMm d val).avx512Enabled = s.avx512Enabled := rfl
@[simp] theorem State.setMm_udMmx (d : BitVec 3) (val : BitVec 64) : (s.setMm d val).udMmx = s.udMmx := rfl
@[simp] theorem State.setMm_udXmm (d : BitVec 3) (val : BitVec 64) : (s.setMm d val).udXmm = s.udXmm := rfl
@[simp] theorem State.setMm_launchRefusal (d : BitVec 3) (val : BitVec 64) : (s.setMm d val).launchRefusal = s.launchRefusal := rfl
@[simp] theorem State.setXmm_em (n : BitVec 5) (val : BitVec 128) : (s.setXmm n val).em = s.em := rfl
@[simp] theorem State.setXmm_ts (n : BitVec 5) (val : BitVec 128) : (s.setXmm n val).ts = s.ts := rfl
@[simp] theorem State.setXmm_am (n : BitVec 5) (val : BitVec 128) : (s.setXmm n val).am = s.am := rfl
@[simp] theorem State.setXmm_osfxsr (n : BitVec 5) (val : BitVec 128) : (s.setXmm n val).osfxsr = s.osfxsr := rfl
@[simp] theorem State.setXmm_osxsave (n : BitVec 5) (val : BitVec 128) : (s.setXmm n val).osxsave = s.osxsave := rfl
@[simp] theorem State.setXmm_tf (n : BitVec 5) (val : BitVec 128) : (s.setXmm n val).tf = s.tf := rfl
@[simp] theorem State.setXmm_ac (n : BitVec 5) (val : BitVec 128) : (s.setXmm n val).ac = s.ac := rfl
@[simp] theorem State.setXmm_avxEnabled (n : BitVec 5) (val : BitVec 128) : (s.setXmm n val).avxEnabled = s.avxEnabled := rfl
@[simp] theorem State.setXmm_avx512Enabled (n : BitVec 5) (val : BitVec 128) : (s.setXmm n val).avx512Enabled = s.avx512Enabled := rfl
@[simp] theorem State.setXmm_udMmx (n : BitVec 5) (val : BitVec 128) : (s.setXmm n val).udMmx = s.udMmx := rfl
@[simp] theorem State.setXmm_udXmm (n : BitVec 5) (val : BitVec 128) : (s.setXmm n val).udXmm = s.udXmm := rfl
@[simp] theorem State.setXmm_launchRefusal (n : BitVec 5) (val : BitVec 128) : (s.setXmm n val).launchRefusal = s.launchRefusal := rfl
@[simp] theorem State.setVec_em {L : Nat} (n : BitVec 5) (val : BitVec L) : (s.setVec n val).em = s.em := rfl
@[simp] theorem State.setVec_ts {L : Nat} (n : BitVec 5) (val : BitVec L) : (s.setVec n val).ts = s.ts := rfl
@[simp] theorem State.setVec_am {L : Nat} (n : BitVec 5) (val : BitVec L) : (s.setVec n val).am = s.am := rfl
@[simp] theorem State.setVec_osfxsr {L : Nat} (n : BitVec 5) (val : BitVec L) : (s.setVec n val).osfxsr = s.osfxsr := rfl
@[simp] theorem State.setVec_osxsave {L : Nat} (n : BitVec 5) (val : BitVec L) : (s.setVec n val).osxsave = s.osxsave := rfl
@[simp] theorem State.setVec_tf {L : Nat} (n : BitVec 5) (val : BitVec L) : (s.setVec n val).tf = s.tf := rfl
@[simp] theorem State.setVec_ac {L : Nat} (n : BitVec 5) (val : BitVec L) : (s.setVec n val).ac = s.ac := rfl
@[simp] theorem State.setVec_avxEnabled {L : Nat} (n : BitVec 5) (val : BitVec L) : (s.setVec n val).avxEnabled = s.avxEnabled := rfl
@[simp] theorem State.setVec_avx512Enabled {L : Nat} (n : BitVec 5) (val : BitVec L) : (s.setVec n val).avx512Enabled = s.avx512Enabled := rfl
@[simp] theorem State.setVec_udMmx {L : Nat} (n : BitVec 5) (val : BitVec L) : (s.setVec n val).udMmx = s.udMmx := rfl
@[simp] theorem State.setVec_udXmm {L : Nat} (n : BitVec 5) (val : BitVec L) : (s.setVec n val).udXmm = s.udXmm := rfl
@[simp] theorem State.setVec_launchRefusal {L : Nat} (n : BitVec 5) (val : BitVec L) : (s.setVec n val).launchRefusal = s.launchRefusal := rfl
@[simp] theorem State.setOpmask_em {KL : Nat} (n : BitVec 3) (val : BitVec KL) : (s.setOpmask n val).em = s.em := rfl
@[simp] theorem State.setOpmask_ts {KL : Nat} (n : BitVec 3) (val : BitVec KL) : (s.setOpmask n val).ts = s.ts := rfl
@[simp] theorem State.setOpmask_am {KL : Nat} (n : BitVec 3) (val : BitVec KL) : (s.setOpmask n val).am = s.am := rfl
@[simp] theorem State.setOpmask_osfxsr {KL : Nat} (n : BitVec 3) (val : BitVec KL) : (s.setOpmask n val).osfxsr = s.osfxsr := rfl
@[simp] theorem State.setOpmask_osxsave {KL : Nat} (n : BitVec 3) (val : BitVec KL) : (s.setOpmask n val).osxsave = s.osxsave := rfl
@[simp] theorem State.setOpmask_tf {KL : Nat} (n : BitVec 3) (val : BitVec KL) : (s.setOpmask n val).tf = s.tf := rfl
@[simp] theorem State.setOpmask_ac {KL : Nat} (n : BitVec 3) (val : BitVec KL) : (s.setOpmask n val).ac = s.ac := rfl
@[simp] theorem State.setOpmask_avxEnabled {KL : Nat} (n : BitVec 3) (val : BitVec KL) : (s.setOpmask n val).avxEnabled = s.avxEnabled := rfl
@[simp] theorem State.setOpmask_avx512Enabled {KL : Nat} (n : BitVec 3) (val : BitVec KL) : (s.setOpmask n val).avx512Enabled = s.avx512Enabled := rfl
@[simp] theorem State.setOpmask_udMmx {KL : Nat} (n : BitVec 3) (val : BitVec KL) : (s.setOpmask n val).udMmx = s.udMmx := rfl
@[simp] theorem State.setOpmask_udXmm {KL : Nat} (n : BitVec 3) (val : BitVec KL) : (s.setOpmask n val).udXmm = s.udXmm := rfl
@[simp] theorem State.setOpmask_launchRefusal {KL : Nat} (n : BitVec 3) (val : BitVec KL) : (s.setOpmask n val).launchRefusal = s.launchRefusal := rfl
@[simp] theorem State.advance_em (len : Nat) : (s.advance len).em = s.em := rfl
@[simp] theorem State.advance_ts (len : Nat) : (s.advance len).ts = s.ts := rfl
@[simp] theorem State.advance_am (len : Nat) : (s.advance len).am = s.am := rfl
@[simp] theorem State.advance_osfxsr (len : Nat) : (s.advance len).osfxsr = s.osfxsr := rfl
@[simp] theorem State.advance_osxsave (len : Nat) : (s.advance len).osxsave = s.osxsave := rfl
@[simp] theorem State.advance_tf (len : Nat) : (s.advance len).tf = s.tf := rfl
@[simp] theorem State.advance_ac (len : Nat) : (s.advance len).ac = s.ac := rfl
@[simp] theorem State.advance_avxEnabled (len : Nat) : (s.advance len).avxEnabled = s.avxEnabled := rfl
@[simp] theorem State.advance_avx512Enabled (len : Nat) : (s.advance len).avx512Enabled = s.avx512Enabled := rfl
@[simp] theorem State.advance_udMmx (len : Nat) : (s.advance len).udMmx = s.udMmx := rfl
@[simp] theorem State.advance_udXmm (len : Nat) : (s.advance len).udXmm = s.udXmm := rfl
@[simp] theorem State.advance_launchRefusal (len : Nat) : (s.advance len).launchRefusal = s.launchRefusal := rfl
@[simp] theorem State.loadText_em (bs : List Byte) : (s.loadText bs).em = s.em := rfl
@[simp] theorem State.loadText_ts (bs : List Byte) : (s.loadText bs).ts = s.ts := rfl
@[simp] theorem State.loadText_am (bs : List Byte) : (s.loadText bs).am = s.am := rfl
@[simp] theorem State.loadText_osfxsr (bs : List Byte) : (s.loadText bs).osfxsr = s.osfxsr := rfl
@[simp] theorem State.loadText_osxsave (bs : List Byte) : (s.loadText bs).osxsave = s.osxsave := rfl
@[simp] theorem State.loadText_tf (bs : List Byte) : (s.loadText bs).tf = s.tf := rfl
@[simp] theorem State.loadText_ac (bs : List Byte) : (s.loadText bs).ac = s.ac := rfl
@[simp] theorem State.loadText_avxEnabled (bs : List Byte) : (s.loadText bs).avxEnabled = s.avxEnabled := rfl
@[simp] theorem State.loadText_avx512Enabled (bs : List Byte) : (s.loadText bs).avx512Enabled = s.avx512Enabled := rfl
@[simp] theorem State.loadText_udMmx (bs : List Byte) : (s.loadText bs).udMmx = s.udMmx := rfl
@[simp] theorem State.loadText_udXmm (bs : List Byte) : (s.loadText bs).udXmm = s.udXmm := rfl
@[simp] theorem State.loadText_launchRefusal (bs : List Byte) : (s.loadText bs).launchRefusal = s.launchRefusal := rfl

end Sys2Proof.Machine
end

