-- ==== Sys2Proof/Laws/Ops.lean ====
section
/-! SUPPORT. What the shared operations can answer, once each: the refusal of a step, the checks of a form, taking an
exception, reading memory, and the frame every form executes in. -/

namespace Sys2Proof.Machine

variable (s : State)

/-! ### When a step is taken -/

theorem Mode.admitted_iff (m : Mode) : m.admitted = true ↔ m = .mode64 ∨ m = .mode32 := by
  cases m <;> simp [Mode.admitted]

theorem State.launchRefusal_eq_none_iff :
    s.launchRefusal = none ↔ (s.mode = .mode64 ∨ s.mode = .mode32) ∧ ¬ (s.am = true ∧ s.ac = true ∧ s.cpl = 3#2) ∧
      s.tf = false ∧ s.breakpointArmed = false := by
  rw [← Mode.admitted_iff]
  simp only [State.launchRefusal]
  cases s.mode.admitted <;> cases s.am <;> cases s.ac <;> cases s.tf <;> cases s.breakpointArmed <;>
    by_cases hc : s.cpl = 3#2 <;> simp [hc]

theorem State.codeFits_iff (len : Nat) :
    s.codeFits len = true ↔ ∀ j ≤ len, s.codeAddress (s.pc.toNat + j) = true := by
  simp [State.codeFits]

/-- A step over `len` bytes is taken exactly in the states that `State.Admits` names. -/
theorem State.stepRefusal_eq_none_iff (len : Nat) : s.stepRefusal len = none ↔ s.Admits len := by
  have hl := s.launchRefusal_eq_none_iff
  have hc := s.codeFits_iff len
  constructor
  · intro h
    simp only [State.stepRefusal] at h
    split at h
    · cases h
    · rename_i h0
      split at h
      · rename_i h1
        obtain ⟨a, b, c, d⟩ := hl.mp h0
        exact ⟨a, b, c, d, hc.mp h1⟩
      · cases h
  · intro h
    have h0 := hl.mpr ⟨h.mode_admitted, h.alignment_off, h.no_single_step, h.no_breakpoint⟩
    simp [State.stepRefusal, h0, hc.mpr h.code_fits]

theorem State.launchRefusal_of_admits {len : Nat} (h : s.Admits len) : s.launchRefusal = none :=
  (s.launchRefusal_eq_none_iff).mpr ⟨h.mode_admitted, h.alignment_off, h.no_single_step, h.no_breakpoint⟩

theorem State.codeAddress_lt {a : Nat} (h : s.codeAddress a = true) : a < 2 ^ 64 := by
  simp only [State.codeAddress] at h
  split at h
  · simp at h
    omega
  · simp at h
    omega

/-- Where code fits, the next `pc` does not wrap. -/
theorem State.pc_advance_toNat {len : Nat} (h : s.Admits len) :
    (s.advance len).pc.toNat = s.pc.toNat + len := by
  have h1 := s.codeAddress_lt (h.code_fits len (Nat.le_refl _))
  simp only [State.advance_pc, BitVec.toNat_add, BitVec.toNat_ofNat]
  omega

/-! ### The checks of a form -/

theorem State.formStop_eq_none_iff (len : Nat) (ud mf : Bool) :
    s.formStop len ud mf = none ↔ s.Admits len ∧ ud = false ∧ s.ts = false ∧ mf = false := by
  rw [← State.stepRefusal_eq_none_iff]
  simp only [State.formStop]
  cases s.stepRefusal len <;> cases ud <;> cases s.ts <;> cases mf <;> simp

/-- In an admitted state the checks come in the order of R184. -/
theorem State.formStop_of_admits {len : Nat} (h : s.Admits len) (ud mf : Bool) :
    s.formStop len ud mf =
      if ud then some (.exception .invalidOpcode)
      else if s.ts then some (.exception .deviceNotAvailable)
      else if mf then some (.exception .x87FloatingPoint)
      else none := by
  simp [State.formStop, (s.stepRefusal_eq_none_iff len).mpr h]

theorem State.udMmx_eq_false_iff :
    s.udMmx = false ↔ s.em = false ∧ s.config.features.mmx = true := by
  simp [State.udMmx]

theorem State.udXmm_eq_false_iff :
    s.udXmm = false ↔ s.em = false ∧ s.osfxsr = true ∧ s.config.features.sse2 = true := by
  simp [State.udXmm, and_assoc]

theorem State.avxEnabled_iff :
    s.avxEnabled = true ↔ s.xcr0.getLsbD 1 = true ∧ s.xcr0.getLsbD 2 = true := by
  simp only [State.avxEnabled, beq_iff_eq]
  constructor
  · intro h
    have h0 := congrArg (fun v => v.getLsbD 0) h
    have h1 := congrArg (fun v => v.getLsbD 1) h
    simp at h0 h1
    exact ⟨h0, h1⟩
  · rintro ⟨h0, h1⟩
    refine BitVec.eq_of_getLsbD_eq fun i hi => ?_
    have : i = 0 ∨ i = 1 := by omega
    rcases this with rfl | rfl
    · simp [h0]
    · simp [h1]

theorem State.avx512Enabled_iff :
    s.avx512Enabled = true ↔ s.xcr0.getLsbD 5 = true ∧ s.xcr0.getLsbD 6 = true ∧ s.xcr0.getLsbD 7 = true := by
  simp only [State.avx512Enabled, beq_iff_eq]
  constructor
  · intro h
    have h0 := congrArg (fun v => v.getLsbD 0) h
    have h1 := congrArg (fun v => v.getLsbD 1) h
    have h2 := congrArg (fun v => v.getLsbD 2) h
    simp at h0 h1 h2
    exact ⟨h0, h1, h2⟩
  · rintro ⟨h0, h1, h2⟩
    refine BitVec.eq_of_getLsbD_eq fun i hi => ?_
    have : i = 0 ∨ i = 1 ∨ i = 2 := by omega
    rcases this with rfl | rfl | rfl
    · simp [h0]
    · simp [h1]
    · simp [h2]

/-- An MMX form has no #UD, #NM or #MF cause exactly when it is ready. -/
theorem State.mmxReady_iff :
    s.MmxReady ↔ s.udMmx = false ∧ s.ts = false ∧ s.x87Pending = false := by
  rw [s.udMmx_eq_false_iff]
  exact ⟨fun h => ⟨⟨h.em_clear, h.feature⟩, h.ts_clear, h.no_x87_pending⟩,
    fun h => ⟨h.1.1, h.1.2, h.2.1, h.2.2⟩⟩

/-- A legacy XMM form has no #UD or #NM cause exactly when it is ready. -/
theorem State.xmmReady_iff : s.XmmReady ↔ s.udXmm = false ∧ s.ts = false := by
  rw [s.udXmm_eq_false_iff]
  exact ⟨fun h => ⟨⟨h.em_clear, h.osfxsr_set, h.feature⟩, h.ts_clear⟩, fun h => ⟨h.1.1, h.1.2.1, h.1.2.2, h.2⟩⟩

/-- A VEX form has no #UD or #NM cause exactly when it is ready. -/
theorem State.vexReady_iff (vl : Nat) : s.VexReady vl ↔ s.udVex vl = false ∧ s.ts = false := by
  have hud : s.udVex vl = false ↔ s.osxsave = true ∧ s.avxEnabled = true ∧
      (if vl = 128 then s.config.features.avx else s.config.features.avx2) = true ∧ vl ≤ s.config.maxVl.bits := by
    simp [State.udVex, Config.hasVex, and_assoc]
  rw [hud, s.avxEnabled_iff]
  exact ⟨fun h => ⟨⟨h.osxsave_set, h.xcr0_sse_avx, h.feature, h.width⟩, h.ts_clear⟩,
    fun h => ⟨h.1.1, h.1.2.1, h.1.2.2.1, h.1.2.2.2, h.2⟩⟩

/-- The vector registers an EVEX form names exist exactly when each is below 16 or AVX512F is there. -/
theorem EvexEnc.registersExist_iff (c : Config) (e : EvexEnc) (rm : RmField) :
    e.registersExist c rm = true ↔ (c.features.avx512f = true ∨ e.src1.toNat < 16) ∧
      ∀ r, rm = .reg r → c.features.avx512f = true ∨ (e.src2 r).toNat < 16 := by
  cases rm <;> simp [EvexEnc.registersExist, Config.hasVecReg]

/-- An EVEX form has no #UD or #NM cause exactly when it is ready. -/
theorem State.evexReady_iff (w vl : Nat) (e : EvexEnc) (rm : RmField) :
    s.EvexReady w vl e rm ↔ s.udEvexForm w vl e rm = false ∧ s.ts = false := by
  have hud : s.udEvex w vl = false ↔ s.osxsave = true ∧ s.avxEnabled = true ∧ s.avx512Enabled = true ∧
      (if w = 32 then s.config.features.avx512f else s.config.features.avx512bw) = true ∧
      (vl = 512 ∨ s.config.features.avx512vl = true) ∧ vl ≤ s.config.maxVl.bits ∧ vl / w ≤ s.config.maxKl := by
    simp [State.udEvex, Config.hasEvex, and_assoc, or_iff_not_imp_left]
  have hform : s.udEvexForm w vl e rm = false ↔ s.udEvex w vl = false ∧ e.registersExist s.config rm = true := by
    simp [State.udEvexForm]
  rw [hform, EvexEnc.registersExist_iff, hud, s.avxEnabled_iff, s.avx512Enabled_iff]
  exact ⟨fun h => ⟨⟨⟨h.osxsave_set, h.xcr0_sse_avx, h.xcr0_avx512, h.feature, h.feature_vl, h.width, h.mask_width⟩,
      h.source1_exists, h.source2_exists⟩, h.ts_clear⟩,
    fun ⟨⟨⟨h1, h2, h3, h4, h5, h6, h7⟩, h8, h9⟩, h10⟩ => ⟨h1, h2, h3, h4, h5, h6, h7, h10, h8, h9⟩⟩

/-! ### Taking an exception -/

/-- Taking an exception ends the run; the state it leaves is the state before but for CR2. -/
theorem raise_eq (e : Exception) :
    ∃ f : Fault, raise e s = .fault f ∧ f.state = { s with cr2 := f.state.cr2 } := by
  cases e <;> exact ⟨_, rfl, rfl⟩

theorem raise_ne_next (e : Exception) (t : State) : raise e s ≠ .next t := by
  cases e <;> simp [raise]

theorem raise_ne_refused (e : Exception) (r : Refusal) : raise e s ≠ .refused r := by
  cases e <;> simp [raise]

theorem Stop.outcome_ne_next (stop : Stop) (t : State) : stop.outcome s ≠ .next t := by
  cases stop with
  | exception e => exact raise_ne_next s e t
  | refusal r => simp [Stop.outcome]

/-- A stop that is a fault is an exception taken. -/
theorem Stop.outcome_fault {stop : Stop} {f : Fault} (h : stop.outcome s = .fault f) :
    ∃ e, stop = .exception e ∧ raise e s = .fault f := by
  cases stop with
  | exception e => exact ⟨e, rfl, h⟩
  | refusal r => simp [Stop.outcome] at h

/-! ### The frame every form executes in -/

section
variable {L : Nat} (len : Nat) (ud mf : Bool) (src : Except Stop (BitVec L)) (write : BitVec L → State)

/-- A form completes exactly when no check stops it and its second source can be read. -/
theorem State.execute_eq_next_iff (t : State) :
    s.execute len ud mf src write = .next t ↔
      s.formStop len ud mf = none ∧ ∃ val, src = .ok val ∧ t = (write val).advance len := by
  simp only [State.execute]
  cases s.formStop len ud mf with
  | some stop => simp [Stop.outcome_ne_next]
  | none =>
    cases src with
    | error stop => simp [Stop.outcome_ne_next]
    | ok val => simp [eq_comm]

theorem State.execute_of_ready (h : s.Admits len) (hud : ud = false) (hts : s.ts = false) (hmf : mf = false)
    {val : BitVec L} (hsrc : src = .ok val) : s.execute len ud mf src write = .next ((write val).advance len) :=
  (s.execute_eq_next_iff len ud mf src write _).mpr
    ⟨(s.formStop_eq_none_iff len ud mf).mpr ⟨h, hud, hts, hmf⟩, val, hsrc, rfl⟩

/-- A form faults by the exception that its checks or its second source give. -/
theorem State.execute_eq_fault_iff (f : Fault) :
    s.execute len ud mf src write = .fault f ↔
      (∃ e, s.formStop len ud mf = some (.exception e) ∧ raise e s = .fault f) ∨
      (s.formStop len ud mf = none ∧ ∃ e, src = .error (.exception e) ∧ raise e s = .fault f) := by
  simp only [State.execute]
  cases s.formStop len ud mf with
  | some stop => cases stop <;> simp [Stop.outcome]
  | none =>
    cases src with
    | error stop => cases stop <;> simp [Stop.outcome]
    | ok val => simp

/-- A form is refused by its checks or by its second source. -/
theorem State.execute_eq_refused_iff (r : Refusal) :
    s.execute len ud mf src write = .refused r ↔
      s.formStop len ud mf = some (.refusal r) ∨ (s.formStop len ud mf = none ∧ src = .error (.refusal r)) := by
  simp only [State.execute]
  cases s.formStop len ud mf with
  | some stop => cases stop <;> simp [Stop.outcome, raise_ne_refused]
  | none =>
    cases src with
    | error stop => cases stop <;> simp [Stop.outcome, raise_ne_refused]
    | ok val => simp

end

/-! ### Reading memory -/

/-- What reading a memory operand can give, by the answer of `Translate`. -/
theorem State.readMemory_eq (L : Nat) (g : Seg) (ea : Word64) :
    (∃ bs, s.translate ⟨g, ea, L / 8, s.cpl, s.mode⟩ = .bytes bs ∧
      s.readMemory L g ea = .ok (BitVec.ofNat L (littleEndian bs))) ∨
    (s.translate ⟨g, ea, L / 8, s.cpl, s.mode⟩ = .generalProtection ∧
      s.readMemory L g ea = .error (.exception .generalProtection)) ∨
    (s.translate ⟨g, ea, L / 8, s.cpl, s.mode⟩ = .stackSegment ∧
      s.readMemory L g ea = .error (.exception .stackSegment)) ∨
    (∃ p r k addr, s.translate ⟨g, ea, L / 8, s.cpl, s.mode⟩ = .pageFault p r k addr ∧
      s.readMemory L g ea = .error (.exception (.pageFault p r k addr))) ∨
    (s.translate ⟨g, ea, L / 8, s.cpl, s.mode⟩ = .device ∧ s.readMemory L g ea = .error (.refusal .deviceMemory)) := by
  simp only [State.readMemory]
  cases s.translate ⟨g, ea, L / 8, s.cpl, s.mode⟩ <;> simp

/-- An answer of bytes has as many as were asked for. -/
theorem State.length_of_translate {q : Query} {bs : List Byte} (h : s.translate q = .bytes bs) : bs.length = q.n := by
  simp only [State.translate] at h
  split at h
  · rename_i e he
    have := List.find?_some he
    simp [h, Answer.fits] at this
    exact this.2
  · simp only [State.referenceTranslate] at h
    split at h
    · rename_i a ha
      simp only [State.segmentFault] at ha
      subst h
      repeat' split at ha
      all_goals simp_all
    · split at h
      · rename_i bs' hbs
        injection h with h
        subst h
        simpa [State.operandAddresses] using Memory.length_readAll hbs
      · cases h

end Sys2Proof.Machine
end

