-- ==== Sys2Proof/Laws/Exec.lean ====
section
/-! SUPPORT. What an instruction can do, said once: every meaning is the frame of Machine/Ops.lean around one register
write. Claims over all instructions are derived from here. -/

namespace Sys2Proof.Machine

/-- The register writes an instruction can make of a state, by its class; `i` is an instruction whose form the configuration
has. -/
inductive RegisterWrite (i : Instr) (s : State) : State → Prop where
  /-- An MMX register, with the x87 side effects (R120). -/
  | mm (hm : i.isMmx = true) (he : i.isEvex = false) (d : BitVec 3) (val : BitVec 64) : RegisterWrite i s (s.setMm d val)
  /-- The low 128 bits of one of the first 16 vector registers (R130). -/
  | xmm (hm : i.isMmx = false) (he : i.isEvex = false) (n : BitVec 5) (hn : n.toNat < 16) (val : BitVec 128) :
      RegisterWrite i s (s.setXmm n val)
  /-- One of the first 16 vector registers, whole (R140). -/
  | vec (hm : i.isMmx = false) (he : i.isEvex = false) (vl : Nat) (h : s.config.hasVex vl = true) (n : BitVec 5)
      (hn : n.toNat < 16) (val : BitVec vl) :
      RegisterWrite i s (s.setVec n val)
  /-- A whole opmask register (R150). -/
  | opmask (hm : i.isMmx = false) (he : i.isEvex = true) (w vl : Nat) (h : s.config.hasEvex w vl = true) (n : BitVec 3) (val : BitVec (vl / w)) :
      RegisterWrite i s (s.setOpmask n val)

theorem State.hasVex_of_udVex {s : State} {vl : Nat} (h : s.udVex vl = false) : s.config.hasVex vl = true := by
  simp [State.udVex] at h
  exact h.2

theorem State.hasEvex_of_udEvexForm {s : State} {w vl : Nat} {e : EvexEnc} {rm : RmField}
    (h : s.udEvexForm w vl e rm = false) : s.config.hasEvex w vl = true := by
  simp [State.udEvexForm, State.udEvex] at h
  exact h.1.2

/-- A legacy or VEX encoding names vector registers 0 to 15 alone (R11). -/
theorem vecNum4_lt (hi : Bool) (lo : BitVec 3) : (vecNum4 hi lo).toNat < 16 := by
  revert hi lo
  decide

/-- Every instruction executes in the one frame, with its own length and #UD conditions, and writes one register. -/
theorem exec_shape (i : Instr) (s : State) :
    ∃ (L : Nat) (src : Except Stop (BitVec L)) (write : BitVec L → State),
      exec i s = s.execute i.length (s.udInstr i) (i.isMmx && s.x87Pending) src write ∧
        ∀ val, s.udInstr i = false → RegisterWrite i s (write val) := by
  cases i
  case pcmpeqbMm e reg rm | pcmpeqwMm e reg rm | pcmpeqdMm e reg rm =>
    exact ⟨_, _, _, rfl, fun val _ => .mm rfl rfl _ _⟩
  case pcmpeqbXmm e reg rm | pcmpeqwXmm e reg rm | pcmpeqdXmm e reg rm =>
    exact ⟨_, _, _, rfl, fun val _ => .xmm rfl rfl _ (vecNum4_lt _ _) _⟩
  case vpcmpeqbXmm e reg rm | vpcmpeqwXmm e reg rm | vpcmpeqdXmm e reg rm | vpcmpeqbYmm e reg rm |
      vpcmpeqwYmm e reg rm | vpcmpeqdYmm e reg rm =>
    exact ⟨_, _, _, rfl, fun val h => .vec rfl rfl _ (State.hasVex_of_udVex h) _ (vecNum4_lt _ _) _⟩
  all_goals exact ⟨_, _, _, rfl, fun val h => .opmask rfl rfl _ _ (State.hasEvex_of_udEvexForm h) _ _⟩

/-- When an instruction completes: no check stopped it, one register was written, and `pc` moved past it. -/
theorem exec_next {i : Instr} {s t : State} (h : exec i s = .next t) :
    s.Admits i.length ∧ s.udInstr i = false ∧ s.ts = false ∧ (i.isMmx && s.x87Pending) = false ∧
      ∃ u, RegisterWrite i s u ∧ t = u.advance i.length := by
  obtain ⟨L, src, write, he, hw⟩ := exec_shape i s
  rw [he] at h
  obtain ⟨hs, val, -, ht⟩ := (s.execute_eq_next_iff _ _ _ src write t).mp h
  obtain ⟨ha, hud, hts, hmf⟩ := (s.formStop_eq_none_iff _ _ _).mp hs
  exact ⟨ha, hud, hts, hmf, _, hw val hud, ht⟩

/-- An instruction faults by taking one exception in the state it started in. -/
theorem exec_fault {i : Instr} {s : State} {f : Fault} (h : exec i s = .fault f) : ∃ e, raise e s = .fault f := by
  obtain ⟨L, src, write, he, -⟩ := exec_shape i s
  rw [he] at h
  rcases (s.execute_eq_fault_iff _ _ _ src write f).mp h with ⟨e, -, hr⟩ | ⟨-, e, -, hr⟩ <;> exact ⟨e, hr⟩

/-- What one step can answer with a next state: a decoded instruction completed. -/
theorem step_next {s t : State} (h : step s = .next t) :
    ∃ i, decode s.mode s.fetch = .form i ∧ exec i s = .next t := by
  simp only [step] at h
  split at h
  · cases h
  · split at h
    · rename_i i hd
      exact ⟨i, hd, h⟩
    · exact absurd h (raise_ne_next s _ t)
    · cases h
    · cases h
    · split at h <;> cases h

/-- What one step can fault with: an exception taken in the state it started in. -/
theorem step_fault {s : State} {f : Fault} (h : step s = .fault f) : ∃ e, raise e s = .fault f := by
  simp only [step] at h
  split at h
  · cases h
  · split at h
    · exact exec_fault h
    · exact ⟨_, h⟩
    · cases h
    · cases h
    · split at h <;> cases h

/-- In an admitted state a step is what the decoder's answer says. -/
theorem step_of_launch {s : State} (h : s.launchRefusal = none) :
    step s = match decode s.mode s.fetch with
      | .form i => exec i s
      | .invalidOpcode => raise .invalidOpcode s
      | .refused r => .refused (.encoding r)
      | .notThisFamily => .refused .notThisFamily
      | .truncated => if s.fetch.length = maxLength then .refused .tooLong else .refused .noProgramText := by
  cases hd : decode s.mode s.fetch <;> simp only [step, h, hd]

/-- A register write keeps everything but the registers of its class. -/
theorem RegisterWrite.frame {i : Instr} {s u : State} (h : RegisterWrite i s u) :
    u = { s with x87 := u.x87, x87sw := u.x87sw, x87tw := u.x87tw, v := u.v, k := u.k } := by
  cases h <;> rfl

end Sys2Proof.Machine
end

