-- ==== Sys2Proof/Laws/Operands.lean ====
section
/-! SUPPORT. The second source of each class of forms, by the predicates of Safety.lean: when an operand is what the rules
say it is, the operation that reads it answers that value. -/

namespace Sys2Proof.Machine

/-! ### Bytes and values -/

/-- Byte `k` of a list is byte `k` of the number it stands for. -/
theorem getElem?_eq_littleEndian (bs : List Byte) (k : Nat) (hk : k < bs.length) :
    bs[k]? = some (BitVec.ofNat 8 (littleEndian bs >>> (8 * k))) := by
  induction bs generalizing k with
  | nil => simp at hk
  | cons b bs ih =>
    cases k with
    | zero =>
      simp only [List.getElem?_cons_zero, littleEndian, Nat.mul_zero, Nat.shiftRight_zero, Option.some.injEq]
      apply BitVec.eq_of_toNat_eq
      simp
      omega
    | succ k =>
      simp only [List.length_cons, Nat.add_lt_add_iff_right] at hk
      rw [List.getElem?_cons_succ, ih k hk, littleEndian, show 8 * (k + 1) = 8 + 8 * k by omega, Nat.shiftRight_add]
      have : (b.toNat + 256 * littleEndian bs) >>> 8 = littleEndian bs := by
        rw [Nat.shiftRight_eq_div_pow]
        omega
      rw [this]

/-- The number that `n` bytes stand for is their little-endian value (R53). -/
theorem isLittleEndian_ofNat {n : Nat} {bs : List Byte} (h : bs.length = n) :
    IsLittleEndian (BitVec.ofNat (8 * n) (littleEndian bs)) bs := by
  intro k hk
  rw [getElem?_eq_littleEndian bs k (by omega)]
  congr 1
  refine BitVec.eq_of_getLsbD_eq fun i hi => ?_
  rw [getLsbD_lane, BitVec.getLsbD_ofNat, BitVec.getLsbD_ofNat, Nat.testBit_shiftRight]
  simp [hi, show 8 * k + i < 8 * n by omega]

/-- A list of bytes stands for one value. -/
theorem IsLittleEndian.unique {L : Nat} (hL : L % 8 = 0) {a b : BitVec L} {bs : List Byte} (ha : IsLittleEndian a bs)
    (hb : IsLittleEndian b bs) : a = b := by
  refine BitVec.eq_of_getLsbD_eq fun i hi => ?_
  have h := ha (i / 8) (by omega)
  rw [hb (i / 8) (by omega)] at h
  have hbit := congrArg (fun v => v.getLsbD (i % 8)) (Option.some.inj h)
  simp only [getLsbD_lane, show 8 * (i / 8) + i % 8 = i by omega, show i % 8 < 8 by omega, decide_true,
    Bool.true_and] at hbit
  exact hbit.symm

/-- A value whose doubleword lanes are all `d` is the broadcast of `d`. -/
theorem broadcast32_eq {L : Nat} (hL : L % 32 = 0) {a : BitVec L} {d : BitVec 32} (h : ∀ j < L / 32, lane 32 a j = d) :
    broadcast32 L d = a := by
  refine BitVec.eq_of_getLsbD_eq fun i hi => ?_
  have hbit := congrArg (fun v => v.getLsbD (i % 32)) (h (i / 32) (by omega))
  simp only [getLsbD_lane, show 32 * (i / 32) + i % 32 = i by omega, show i % 32 < 32 by omega, decide_true,
    Bool.true_and] at hbit
  rw [getLsbD_broadcast32, ← hbit]
  simp [hi]

/-- The lanes of `eqLanes` (R111). -/
theorem isEqLanes_eqLanes {w L : Nat} (a b : BitVec L) : IsEqLanes w (eqLanes w a b) a b := by
  intro j hj
  refine BitVec.eq_of_getLsbD_eq fun i hi => ?_
  rw [getLsbD_lane, getLsbD_eqLanes, lane_div hi]
  by_cases h : lane w a j = lane w b j
  · simp [h, hi, hj, lane_lt hi hj, (laneEq_iff a b j).mpr h]
  · have : laneEq w a b j = false := by simpa [laneEq] using h
    simp [h, this]

/-! ### Operands -/

variable (s : State)

/-- Reading a memory operand that `Translate` answers with bytes gives their little-endian value. -/
theorem State.readOperand_of_bytes {n : Nat} {p : AddressEnc} {len : Nat} {m : MemField} {bs : List Byte}
    {src : BitVec (8 * n)} (h : s.translate (s.operandQuery p len m n) = .bytes bs) (hs : IsLittleEndian src bs) :
    s.readOperand (8 * n) p len m = .ok src := by
  have hl := s.length_of_translate h
  simp only [State.readOperand, State.readMemory, State.operandQuery, show 8 * n / 8 = n by omega] at h ⊢
  rw [h]
  exact congrArg _ (IsLittleEndian.unique (by omega) (isLittleEndian_ofNat hl) hs)

theorem State.mmxSource_of_operand {e : LegacyEnc} {rm : RmField} {src : BitVec 64} (h : s.MmxOperand e rm src) :
    s.mmxSource e rm = .ok src := by
  cases rm with
  | reg r => exact congrArg _ (show src = s.mm r from h).symm
  | mem m =>
    obtain ⟨bs, h1, h2⟩ := h
    exact s.readOperand_of_bytes (n := 8) h1 h2

theorem State.xmmSource_of_operand {e : LegacyEnc} {rm : RmField} {src : BitVec 128} (h : s.XmmOperand e rm src) :
    s.xmmSource e rm = .ok src := by
  cases rm with
  | reg r => exact congrArg _ (show src = s.vec 128 (vecNum4 e.b r) from h).symm
  | mem m =>
    obtain ⟨h0, bs, h1, h2⟩ := h
    simp only [State.xmmSource, h0, if_true]
    exact s.readOperand_of_bytes (n := 16) h1 h2

theorem State.vexSource_of_operand {n : Nat} {e : VexEnc} {rm : RmField} {src : BitVec (8 * n)}
    (h : s.VexOperand (8 * n) e rm src) : s.vexSource (8 * n) e rm = .ok src := by
  cases rm with
  | reg r => exact congrArg _ (show src = s.vec (8 * n) (vecNum4 e.vex.b r) from h).symm
  | mem m =>
    obtain ⟨bs, h1, h2⟩ := h
    rw [show 8 * n / 8 = n by omega] at h1
    exact s.readOperand_of_bytes h1 h2

theorem State.evexSource_of_operand {n : Nat} {e : EvexEnc} {rm : RmField} {src : BitVec (8 * (4 * n))}
    (h : s.EvexOperand (8 * (4 * n)) e rm src) : s.evexSource (8 * (4 * n)) e rm = .ok src := by
  cases rm with
  | reg r => exact congrArg _ (show src = s.vec (8 * (4 * n)) (e.src2 r) from h).symm
  | mem m =>
    simp only [State.EvexOperand] at h
    simp only [State.evexSource]
    split at h
    · rename_i hb
      obtain ⟨bs, d, h1, h2, h3⟩ := h
      rw [if_pos hb, s.readOperand_of_bytes (n := 4) h1 h2]
      exact congrArg _ (broadcast32_eq (by omega) h3)
    · rename_i hb
      obtain ⟨bs, h1, h2⟩ := h
      rw [show 8 * (4 * n) / 8 = 4 * n by omega] at h1
      rw [if_neg hb]
      exact s.readOperand_of_bytes h1 h2

end Sys2Proof.Machine
end

