-- ==== Sys2Proof/Laws/PerInstr.lean ====
section
/-! SUPPORT. Statements about every instruction as data, one lemma per constructor of Instr. -/

namespace Sys2Proof.Laws.EncodingLength

/-- The length the rules count (R90) is the number of bytes the encoder writes. -/
def Statement (i : Instr) : Prop := (encode i).length = i.length

theorem pcmpeqbMm (e : LegacyEnc) (reg : BitVec 3) (rm : RmField) : Statement (.pcmpeqbMm e reg rm) := length_encodeLegacy _ e reg rm

theorem pcmpeqbXmm (e : LegacyEnc) (reg : BitVec 3) (rm : RmField) : Statement (.pcmpeqbXmm e reg rm) := length_encodeLegacy _ e reg rm

theorem pcmpeqwMm (e : LegacyEnc) (reg : BitVec 3) (rm : RmField) : Statement (.pcmpeqwMm e reg rm) := length_encodeLegacy _ e reg rm

theorem pcmpeqwXmm (e : LegacyEnc) (reg : BitVec 3) (rm : RmField) : Statement (.pcmpeqwXmm e reg rm) := length_encodeLegacy _ e reg rm

theorem pcmpeqdMm (e : LegacyEnc) (reg : BitVec 3) (rm : RmField) : Statement (.pcmpeqdMm e reg rm) := length_encodeLegacy _ e reg rm

theorem pcmpeqdXmm (e : LegacyEnc) (reg : BitVec 3) (rm : RmField) : Statement (.pcmpeqdXmm e reg rm) := length_encodeLegacy _ e reg rm

theorem vpcmpeqbXmm (e : VexEnc) (reg : BitVec 3) (rm : RmField) : Statement (.vpcmpeqbXmm e reg rm) := length_encodeVex _ _ e reg rm

theorem vpcmpeqwXmm (e : VexEnc) (reg : BitVec 3) (rm : RmField) : Statement (.vpcmpeqwXmm e reg rm) := length_encodeVex _ _ e reg rm

theorem vpcmpeqdXmm (e : VexEnc) (reg : BitVec 3) (rm : RmField) : Statement (.vpcmpeqdXmm e reg rm) := length_encodeVex _ _ e reg rm

theorem vpcmpeqbYmm (e : VexEnc) (reg : BitVec 3) (rm : RmField) : Statement (.vpcmpeqbYmm e reg rm) := length_encodeVex _ _ e reg rm

theorem vpcmpeqwYmm (e : VexEnc) (reg : BitVec 3) (rm : RmField) : Statement (.vpcmpeqwYmm e reg rm) := length_encodeVex _ _ e reg rm

theorem vpcmpeqdYmm (e : VexEnc) (reg : BitVec 3) (rm : RmField) : Statement (.vpcmpeqdYmm e reg rm) := length_encodeVex _ _ e reg rm

theorem vpcmpeqdK128 (e : EvexEnc) (reg : BitVec 3) (rm : RmField) : Statement (.vpcmpeqdK128 e reg rm) := length_encodeEvex _ _ e reg rm

theorem vpcmpeqdK256 (e : EvexEnc) (reg : BitVec 3) (rm : RmField) : Statement (.vpcmpeqdK256 e reg rm) := length_encodeEvex _ _ e reg rm

theorem vpcmpeqdK512 (e : EvexEnc) (reg : BitVec 3) (rm : RmField) : Statement (.vpcmpeqdK512 e reg rm) := length_encodeEvex _ _ e reg rm

theorem vpcmpeqbK128 (e : EvexEnc) (reg : BitVec 3) (rm : RmField) : Statement (.vpcmpeqbK128 e reg rm) := length_encodeEvex _ _ e reg rm

theorem vpcmpeqbK256 (e : EvexEnc) (reg : BitVec 3) (rm : RmField) : Statement (.vpcmpeqbK256 e reg rm) := length_encodeEvex _ _ e reg rm

theorem vpcmpeqbK512 (e : EvexEnc) (reg : BitVec 3) (rm : RmField) : Statement (.vpcmpeqbK512 e reg rm) := length_encodeEvex _ _ e reg rm

theorem vpcmpeqwK128 (e : EvexEnc) (reg : BitVec 3) (rm : RmField) : Statement (.vpcmpeqwK128 e reg rm) := length_encodeEvex _ _ e reg rm

theorem vpcmpeqwK256 (e : EvexEnc) (reg : BitVec 3) (rm : RmField) : Statement (.vpcmpeqwK256 e reg rm) := length_encodeEvex _ _ e reg rm

theorem vpcmpeqwK512 (e : EvexEnc) (reg : BitVec 3) (rm : RmField) : Statement (.vpcmpeqwK512 e reg rm) := length_encodeEvex _ _ e reg rm

end Sys2Proof.Laws.EncodingLength
end

