-- ==== Sys2Proof/Tests/Slice0.lean ====
section
/-! SUPPORT. The model's own tests: the well-formedness smoke, words written out from the spec's encodings, single steps with
the results that spec/95_test_vectors.md and the rules' examples give, and for every statement a witness that its hypotheses
can be met. -/

namespace Sys2Proof.Tests

set_option Elab.async false

open Sys2Proof.Machine

/-! ### Helpers -/

/-- Bytes from numbers. -/
def bytes (ns : List Nat) : List Byte := ns.map (BitVec.ofNat 8)

/-- The state with a value in MMX register `n`. -/
def putMm (n : BitVec 3) (val : Nat) (s : State) : State := { s with x87 := s.x87.set n.toNat (BitVec.ofNat 80 val) }

/-- The state with a value in vector register `n`. -/
def putV (n : BitVec 5) (val : Nat) (s : State) : State := { s with v := s.v.set n.toNat (BitVec.ofNat 512 val) }

/-- The state with a value in opmask register `n`. -/
def putK (n : BitVec 3) (val : Nat) (s : State) : State := { s with k := s.k.set n.toNat (BitVec.ofNat 64 val) }

/-- The state with a value in general register `n`. -/
def putX (n : BitVec 4) (val : Nat) (s : State) : State := { s with x := s.x.set n.toNat (BitVec.ofNat 64 val) }

/-- The state with bytes in data memory from an address on. -/
def putMem (a : Nat) (ns : List Nat) (s : State) : State := { s with mem := s.mem.writeBytes a (bytes ns) }

/-- One step over an instruction given by its bytes. -/
def stepOver (ns : List Nat) (s : State) : Host.Outcome State Fault Refusal := step (s.loadText (bytes ns))

/-- The instruction the decoder reads in 64-bit mode. -/
def reads64 (ns : List Nat) : DecodeResult := decode .mode64 (bytes ns)

/-- The vector and error code of an outcome that is a fault, and whether it leaves the state it started in. -/
def faultIs (o : Host.Outcome State Fault Refusal) (v : Nat) (code : Option (BitVec 32)) (s : State) : Bool :=
  match faultOf o with
  | some f => f.vector == v && f.errorCode == code && f.state == s
  | none => false

/-- The operands `A` and `B` of spec/95_test_vectors.md in vector registers `p` and `q`. -/
def withAB (p q : BitVec 5) : State :=
  putV p 0x00112233445566778899AABBCCDDEEFF (putV q 0x00112233445566FF8899AABB00DDEEFF State.reset)

/-- The 256-bit operands `a` and `b` of spec/95_test_vectors.md in vector registers 1 and 2. -/
def withWide : State :=
  putV 1 0x0123456789ABCDEFFEDCBA987654321000112233445566778899AABBCCDDEEFF
    (putV 2 0x0123456789ABCDEEFEDCBA987654321000112233445566FF8899AABB00DDEEFF State.reset)

/-- The 512-bit operands `S1` and `S2` of spec/44_evex_forms.md in vector registers 2 and 3. -/
def withS : State :=
  putV 2 0x0F0F0F0F0E0E0E0E0D0D0D0D0C0C0C0C0B0B0B0B0A0A0A0A09090909080808080707070706060606050505050404040403030303020202020101010100000000
    (putV 3 0x0F0E0F0F0E0E0E0E0D0D0D0D0C0C0C0C0B0B0B0B0A0A0A0A09090909080908080707070706060606050505050404040403020303020202020101010100000000 State.reset)

/-- The operands of the MMX vectors in MM0 and MM1. -/
def withMm : State := putMm 0 0x1122334455667788 (putMm 1 0x1122FF4455AA7788 State.reset)

/-- A step over `len` bytes is admitted. -/
theorem admits {s : State} {len : Nat} (h : s.stepRefusal len = none) : s.Admits len :=
  (s.stepRefusal_eq_none_iff len).mp h

/-! ### Well-formedness smoke: one ill-formed term for each check, refused -/

theorem test_ok_refuses_two_segments :
    Instr.ok .mode64 (.pcmpeqbMm ⟨[.seg .fs, .seg .gs], none⟩ 0#3 (.reg 1#3)) = false := by decide

theorem test_ok_refuses_two_67 :
    Instr.ok .mode64 (.pcmpeqbMm ⟨[.addressSize, .addressSize], none⟩ 0#3 (.reg 1#3)) = false := by decide

theorem test_ok_refuses_two_66 :
    Instr.ok .mode64 (.pcmpeqbXmm ⟨[.operandSize, .operandSize], none⟩ 0#3 (.reg 1#3)) = false := by decide

theorem test_ok_refuses_base_100 :
    Instr.ok .mode64 (.pcmpeqbMm ⟨[], none⟩ 0#3 (.mem (.base 4#3 .none))) = false := by decide

theorem test_ok_refuses_base_101_without_disp :
    Instr.ok .mode64 (.pcmpeqbMm ⟨[], none⟩ 0#3 (.mem (.base 5#3 .none))) = false := by decide

theorem test_ok_refuses_sib_base_101_without_disp :
    Instr.ok .mode64 (.pcmpeqbMm ⟨[], none⟩ 0#3 (.mem (.sib 0#2 0#3 5#3 .none))) = false := by decide

theorem test_ok_refuses_16_bit_addresses :
    Instr.ok .mode32 (.pcmpeqbMm ⟨[.addressSize], none⟩ 0#3 (.mem (.base 0#3 .none))) = false := by decide

theorem test_ok_refuses_66_in_mmx : Instr.ok .mode64 (.pcmpeqbMm ⟨[.operandSize], none⟩ 0#3 (.reg 1#3)) = false := by decide

theorem test_ok_refuses_no_66_in_xmm : Instr.ok .mode64 (.pcmpeqbXmm ⟨[], none⟩ 0#3 (.reg 1#3)) = false := by decide

theorem test_ok_refuses_rex_in_mode32 :
    Instr.ok .mode32 (.pcmpeqbMm ⟨[], some ⟨false, false, false, false⟩⟩ 0#3 (.reg 1#3)) = false := by decide

theorem test_ok_refuses_66_before_vex :
    Instr.ok .mode64 (.vpcmpeqbXmm ⟨[.operandSize], .two false 0#4⟩ 0#3 (.reg 1#3)) = false := by decide

theorem test_ok_refuses_vex2_extension_in_mode32 :
    Instr.ok .mode32 (.vpcmpeqbXmm ⟨[], .two false 8#4⟩ 0#3 (.reg 1#3)) = false := by decide

theorem test_ok_refuses_vex3_extension_in_mode32 :
    Instr.ok .mode32 (.vpcmpeqbXmm ⟨[], .three false false true false 0#4⟩ 0#3 (.reg 1#3)) = false := by decide

theorem test_ok_refuses_66_before_evex :
    Instr.ok .mode64 (.vpcmpeqbK128 ⟨[.operandSize], false, false, false, false, 0#4, false, 0#3⟩ 0#3 (.reg 1#3)) =
      false := by decide

theorem test_ok_refuses_evex_extension_in_mode32 :
    Instr.ok .mode32 (.vpcmpeqbK128 ⟨[], false, false, true, false, 0#4, false, 0#3⟩ 0#3 (.reg 1#3)) = false := by decide

theorem test_ok_refuses_broadcast_of_register :
    Instr.ok .mode64 (.vpcmpeqdK128 ⟨[], false, false, false, false, 0#4, true, 0#3⟩ 0#3 (.reg 1#3)) = false := by decide

theorem test_ok_refuses_broadcast_of_bytes :
    Instr.ok .mode64 (.vpcmpeqbK128 ⟨[], false, false, false, false, 0#4, true, 0#3⟩ 0#3 (.mem (.base 0#3 .none))) =
      false := by decide

theorem test_ok_refuses_w_in_evex_dword :
    Instr.ok .mode64 (.vpcmpeqdK128 ⟨[], false, false, false, true, 0#4, false, 0#3⟩ 0#3 (.reg 1#3)) = false := by decide

/-! ### Words written out from the spec's encodings, one for every constructor -/

/-- `0F 74 C1` (R121). -/
theorem test_decode_pcmpeqbMm : decode .mode64 (bytes [0x0F, 0x74, 0xC1]) =
    .form (.pcmpeqbMm ⟨[], none⟩ 0#3 (.reg 1#3)) := by decide

/-- `0F 75 C1` (R122). -/
theorem test_decode_pcmpeqwMm : decode .mode64 (bytes [0x0F, 0x75, 0xC1]) =
    .form (.pcmpeqwMm ⟨[], none⟩ 0#3 (.reg 1#3)) := by decide

/-- `0F 76 7B 08` (M7). -/
theorem test_decode_pcmpeqdMm : decode .mode64 (bytes [0x0F, 0x76, 0x7B, 0x08]) =
    .form (.pcmpeqdMm ⟨[], none⟩ 7#3 (.mem (.base 3#3 (.disp8 8#8)))) := by decide

/-- `64 66 0F 74 08` (S11). -/
theorem test_decode_pcmpeqbXmm : decode .mode64 (bytes [0x64, 0x66, 0x0F, 0x74, 0x08]) =
    .form (.pcmpeqbXmm ⟨[.seg .fs, .operandSize], none⟩ 1#3 (.mem (.base 0#3 .none))) := by decide

/-- `66 44 0F 75 C9` (R132). -/
theorem test_decode_pcmpeqwXmm : decode .mode64 (bytes [0x66, 0x44, 0x0F, 0x75, 0xC9]) =
    .form (.pcmpeqwXmm ⟨[.operandSize], some ⟨false, true, false, false⟩⟩ 1#3 (.reg 1#3)) := by decide

/-- `66 0F 76 2D 00 01 00 00` (S10). -/
theorem test_decode_pcmpeqdXmm : decode .mode64 (bytes [0x66, 0x0F, 0x76, 0x2D, 0x00, 0x01, 0x00, 0x00]) =
    .form (.pcmpeqdXmm ⟨[.operandSize], none⟩ 5#3 (.mem (.relative 0x100#32))) := by decide

/-- `C4 C1 01 74 C0` (X13). -/
theorem test_decode_vpcmpeqbXmm : decode .mode64 (bytes [0xC4, 0xC1, 0x01, 0x74, 0xC0]) =
    .form (.vpcmpeqbXmm ⟨[], .three false false true false 15#4⟩ 0#3 (.reg 0#3)) := by decide

/-- `C5 F1 75 00` (X14). -/
theorem test_decode_vpcmpeqwXmm : decode .mode64 (bytes [0xC5, 0xF1, 0x75, 0x00]) =
    .form (.vpcmpeqwXmm ⟨[], .two false 1#4⟩ 0#3 (.mem (.base 0#3 .none))) := by decide

/-- `C4 41 01 76 C1` (R143). -/
theorem test_decode_vpcmpeqdXmm : decode .mode64 (bytes [0xC4, 0x41, 0x01, 0x76, 0xC1]) =
    .form (.vpcmpeqdXmm ⟨[], .three true false true false 15#4⟩ 0#3 (.reg 1#3)) := by decide

/-- `C4 01 2D 74 4C 48 FC` (X15). -/
theorem test_decode_vpcmpeqbYmm : decode .mode64 (bytes [0xC4, 0x01, 0x2D, 0x74, 0x4C, 0x48, 0xFC]) =
    .form (.vpcmpeqbYmm ⟨[], .three true true true false 10#4⟩ 1#3 (.mem (.sib 1#2 1#3 0#3 (.disp8 0xFC#8)))) := by decide

/-- `C5 DD 75 DD` (R145). -/
theorem test_decode_vpcmpeqwYmm : decode .mode64 (bytes [0xC5, 0xDD, 0x75, 0xDD]) =
    .form (.vpcmpeqwYmm ⟨[], .two false 4#4⟩ 3#3 (.reg 5#3)) := by decide

/-- `C5 FD 76 C0` (X9). -/
theorem test_decode_vpcmpeqdYmm : decode .mode64 (bytes [0xC5, 0xFD, 0x76, 0xC0]) =
    .form (.vpcmpeqdYmm ⟨[], .two false 0#4⟩ 0#3 (.reg 0#3)) := by decide

/-- `62 F1 75 18 76 65 FF` (E8). -/
theorem test_decode_vpcmpeqdK128 : decode .mode64 (bytes [0x62, 0xF1, 0x75, 0x18, 0x76, 0x65, 0xFF]) =
    .form (.vpcmpeqdK128 ⟨[], false, false, false, false, 1#4, true, 0#3⟩ 4#3 (.mem (.base 5#3 (.disp8 0xFF#8)))) := by decide

/-- `62 F1 5D 24 76 58 02` (R84). -/
theorem test_decode_vpcmpeqdK256 : decode .mode64 (bytes [0x62, 0xF1, 0x5D, 0x24, 0x76, 0x58, 0x02]) =
    .form (.vpcmpeqdK256 ⟨[], false, false, true, false, 4#4, false, 4#3⟩ 3#3 (.mem (.base 0#3 (.disp8 2#8)))) := by decide

/-- `62 91 05 40 76 C6` (E12). -/
theorem test_decode_vpcmpeqdK512 : decode .mode64 (bytes [0x62, 0x91, 0x05, 0x40, 0x76, 0xC6]) =
    .form (.vpcmpeqdK512 ⟨[], true, true, true, false, 15#4, false, 0#3⟩ 0#3 (.reg 6#3)) := by decide

/-- `62 F1 75 00 74 6A 01` (R154). -/
theorem test_decode_vpcmpeqbK128 : decode .mode64 (bytes [0x62, 0xF1, 0x75, 0x00, 0x74, 0x6A, 0x01]) =
    .form (.vpcmpeqbK128 ⟨[], false, false, true, false, 1#4, false, 0#3⟩ 5#3 (.mem (.base 2#3 (.disp8 1#8)))) := by decide

/-- `62 F1 6D 28 74 CB` (R155). -/
theorem test_decode_vpcmpeqbK256 : decode .mode64 (bytes [0x62, 0xF1, 0x6D, 0x28, 0x74, 0xCB]) =
    .form (.vpcmpeqbK256 ⟨[], false, false, false, false, 2#4, false, 0#3⟩ 1#3 (.reg 3#3)) := by decide

/-- `62 F1 ED 4A 74 CB` (E16). -/
theorem test_decode_vpcmpeqbK512 : decode .mode64 (bytes [0x62, 0xF1, 0xED, 0x4A, 0x74, 0xCB]) =
    .form (.vpcmpeqbK512 ⟨[], false, false, false, true, 2#4, false, 2#3⟩ 1#3 (.reg 3#3)) := by decide

/-- `62 F1 6D 08 75 CB` (R157). -/
theorem test_decode_vpcmpeqwK128 : decode .mode64 (bytes [0x62, 0xF1, 0x6D, 0x08, 0x75, 0xCB]) =
    .form (.vpcmpeqwK128 ⟨[], false, false, false, false, 2#4, false, 0#3⟩ 1#3 (.reg 3#3)) := by decide

/-- `62 91 6D 2A 75 CF` (R158). -/
theorem test_decode_vpcmpeqwK256 : decode .mode64 (bytes [0x62, 0x91, 0x6D, 0x2A, 0x75, 0xCF]) =
    .form (.vpcmpeqwK256 ⟨[], true, true, false, false, 2#4, false, 2#3⟩ 1#3 (.reg 7#3)) := by decide

/-- `62 F1 0D 47 75 7E 02` (R159). -/
theorem test_decode_vpcmpeqwK512 : decode .mode64 (bytes [0x62, 0xF1, 0x0D, 0x47, 0x75, 0x7E, 0x02]) =
    .form (.vpcmpeqwK512 ⟨[], false, false, true, false, 14#4, false, 7#3⟩ 7#3 (.mem (.base 6#3 (.disp8 2#8)))) := by decide

/-! ### Bytes the decoder answers otherwise -/

/-- `F0 0F 74 00` (M15). -/
theorem test_decode_lock : decode .mode64 (bytes [0xF0, 0x0F, 0x74, 0x00]) = .invalidOpcode := by decide

/-- `66 F3 0F 74 C1` (S17). -/
theorem test_decode_rep : decode .mode64 (bytes [0x66, 0xF3, 0x0F, 0x74, 0xC1]) = .invalidOpcode := by decide

/-- `66 C5 F1 74 C2` (X20). -/
theorem test_decode_66_before_vex : decode .mode64 (bytes [0x66, 0xC5, 0xF1, 0x74, 0xC2]) = .invalidOpcode := by decide

/-- `48 C5 F1 74 C2` (X20). -/
theorem test_decode_rex_before_vex : decode .mode64 (bytes [0x48, 0xC5, 0xF1, 0x74, 0xC2]) = .invalidOpcode := by decide

/-- `62 F1 ED 4A 76 CB` (E17). -/
theorem test_decode_evex_w : decode .mode64 (bytes [0x62, 0xF1, 0xED, 0x4A, 0x76, 0xCB]) = .invalidOpcode := by decide

/-- `62 F1 6D CA 76 CB` (E18). -/
theorem test_decode_evex_z : decode .mode64 (bytes [0x62, 0xF1, 0x6D, 0xCA, 0x76, 0xCB]) = .invalidOpcode := by decide

/-- `62 F1 6D 6A 76 CB` (E19). -/
theorem test_decode_evex_length_3 : decode .mode64 (bytes [0x62, 0xF1, 0x6D, 0x6A, 0x76, 0xCB]) = .invalidOpcode := by decide

/-- `62 F1 6D 5A 76 CB` (E20). -/
theorem test_decode_broadcast_register : decode .mode64 (bytes [0x62, 0xF1, 0x6D, 0x5A, 0x76, 0xCB]) = .invalidOpcode := by decide

/-- `62 F1 6D 5A 74 08` (E21). -/
theorem test_decode_broadcast_bytes : decode .mode64 (bytes [0x62, 0xF1, 0x6D, 0x5A, 0x74, 0x08]) = .invalidOpcode := by decide

/-- `62 71 6D 4A 76 CB` (E22). -/
theorem test_decode_evex_r : decode .mode64 (bytes [0x62, 0x71, 0x6D, 0x4A, 0x76, 0xCB]) = .invalidOpcode := by decide

/-- `62 F5 6D 4A 76 CB` (E23). -/
theorem test_decode_evex_reserved : decode .mode64 (bytes [0x62, 0xF5, 0x6D, 0x4A, 0x76, 0xCB]) = .invalidOpcode := by decide

/-- `66 66 0F 74 C1` (R77). -/
theorem test_decode_repeated_66 : decode .mode64 (bytes [0x66, 0x66, 0x0F, 0x74, 0xC1]) = .refused .leadBytes := by decide

/-- `48 66 0F 74 C1` (R77). -/
theorem test_decode_rex_before_66 : decode .mode64 (bytes [0x48, 0x66, 0x0F, 0x74, 0xC1]) = .refused .leadBytes := by decide

/-- `67 0F 74 00` (R75). -/
theorem test_decode_16_bit_address : decode .mode32 (bytes [0x67, 0x0F, 0x74, 0x00]) = .refused .addressSize16 := by decide

/-- `C4 C1 71 74 C2` (R91). -/
theorem test_decode_extension_in_mode32 : decode .mode32 (bytes [0xC4, 0xC1, 0x71, 0x74, 0xC2]) = .refused .extensionBits := by decide

/-- `C5 31 74 C2` (R91). -/
theorem test_decode_lds : decode .mode32 (bytes [0xC5, 0x31, 0x74, 0xC2]) = .notThisFamily := by decide

/-- `44 0F 74 C1` (R76). -/
theorem test_decode_rex_byte_in_mode32 : decode .mode32 (bytes [0x44, 0x0F, 0x74, 0xC1]) = .notThisFamily := by decide

/-- `0F 77 C1` (R92). -/
theorem test_decode_other_opcode : decode .mode64 (bytes [0x0F, 0x77, 0xC1]) = .notThisFamily := by decide

/-! ### One step, one instruction -/

/-- M1, R121. -/
theorem test_step_pcmpeqbMm :
    nextSatisfies (stepOver [0x0F, 0x74, 0xC1] (withMm)) (fun t => t.mm 0 == 0xFFFF00FFFF00FFFF#64 && t.mm 1 == 0x1122FF4455AA7788#64 && t.pc == 0xFFF3#64) = true := by
  decide +kernel

/-- M9 with the x87 side effects of R28. -/
theorem test_step_pcmpeqbMm_x87 :
    nextSatisfies (stepOver [0x44, 0x0F, 0x74, 0xC1] ({ withMm with x87sw := 0xFFFF#16, x87tw := 0xFFFF#16 })) (fun t => t.x87Reg 0 == 0xFFFFFFFF00FFFF00FFFF#80 && t.x87sw == 0xC7FF#16 && t.x87tw == 0#16 && t.pc == 0xFFF4#64) = true := by
  decide +kernel

/-- M2, R122. -/
theorem test_step_pcmpeqwMm :
    nextSatisfies (stepOver [0x0F, 0x75, 0xC1] (withMm)) (fun t => t.mm 0 == 0xFFFF00000000FFFF#64) = true := by
  decide +kernel

/-- M6: an unaligned operand. -/
theorem test_step_pcmpeqwMm_memory :
    nextSatisfies (stepOver [0x0F, 0x75, 0x00] (putX 0 0x2001 (putMem 0x2001 [0x88, 0x77, 0x00, 0x55, 0x44, 0x33, 0x22, 0x11] withMm))) (fun t => t.mm 0 == 0xFFFFFFFF0000FFFF#64) = true := by
  decide +kernel

/-- M4, R123. -/
theorem test_step_pcmpeqdMm :
    nextSatisfies (stepOver [0x0F, 0x76, 0xC1] (putMm 1 0x0000000055667788 withMm)) (fun t => t.mm 0 == 0x00000000FFFFFFFF#64) = true := by
  decide +kernel

/-- S1, R131: the upper bits are kept. -/
theorem test_step_pcmpeqbXmm :
    nextSatisfies (stepOver [0x66, 0x0F, 0x74, 0xC1] (putV 0 0xABCD00112233445566778899AABBCCDDEEFF (withAB 2 1))) (fun t => t.vec 512 0 == 0xABCDFFFFFFFFFFFFFF00FFFFFFFF00FFFFFF#512 && t.pc == 0xFFF4#64) = true := by
  decide +kernel

/-- S7. -/
theorem test_step_pcmpeqbXmm_memory :
    nextSatisfies (stepOver [0x66, 0x0F, 0x74, 0x11] (putX 1 0x4000 (putMem 0x4000 [0xFF, 0xEE, 0xDD, 0x00, 0xBB, 0xAA, 0x99, 0x88, 0xFF, 0x66, 0x55, 0x44, 0x33, 0x22, 0x11, 0x00] (withAB 2 1)))) (fun t => t.vec 128 2 == 0xFFFFFFFFFFFFFF00FFFFFFFF00FFFFFF#128) = true := by
  decide +kernel

/-- S5, R132. -/
theorem test_step_pcmpeqwXmm :
    nextSatisfies (stepOver [0x66, 0x44, 0x0F, 0x75, 0xC9] (withAB 9 1)) (fun t => t.vec 128 9 == 0xFFFFFFFFFFFF0000FFFFFFFF0000FFFF#128 && t.pc == 0xFFF5#64) = true := by
  decide +kernel

/-- S6, R133. -/
theorem test_step_pcmpeqdXmm :
    nextSatisfies (stepOver [0x66, 0x41, 0x0F, 0x76, 0xCA] (withAB 1 10)) (fun t => t.vec 128 1 == 0xFFFFFFFF00000000FFFFFFFF00000000#128) = true := by
  decide +kernel

/-- X1, R141: the upper bits are zeroed. -/
theorem test_step_vpcmpeqbXmm :
    nextSatisfies (stepOver [0xC5, 0xF1, 0x74, 0xC2] (putV 0 (2 ^ 512 - 1) (withAB 1 2))) (fun t => t.vec 512 0 == 0xFFFFFFFFFFFFFF00FFFFFFFF00FFFFFF#512 && t.pc == 0xFFF4#64) = true := by
  decide +kernel

/-- X4, R142. -/
theorem test_step_vpcmpeqwXmm :
    nextSatisfies (stepOver [0xC5, 0xF1, 0x75, 0xC2] (withAB 1 2)) (fun t => t.vec 512 0 == 0xFFFFFFFFFFFF0000FFFFFFFF0000FFFF#512) = true := by
  decide +kernel

/-- X5, R143. -/
theorem test_step_vpcmpeqdXmm :
    nextSatisfies (stepOver [0xC5, 0xF1, 0x76, 0xC2] (withAB 1 2)) (fun t => t.vec 512 0 == 0xFFFFFFFF00000000FFFFFFFF00000000#512) = true := by
  decide +kernel

/-- X6, R144. -/
theorem test_step_vpcmpeqbYmm :
    nextSatisfies (stepOver [0xC5, 0xF5, 0x74, 0xC2] (putV 0 (2 ^ 512 - 1) withWide)) (fun t => t.vec 512 0 == 0xFFFFFFFFFFFFFF00FFFFFFFFFFFFFFFFFFFFFFFFFFFFFF00FFFFFFFF00FFFFFF#512) = true := by
  decide +kernel

/-- X7, R145. -/
theorem test_step_vpcmpeqwYmm :
    nextSatisfies (stepOver [0xC5, 0xF5, 0x75, 0xC2] (withWide)) (fun t => t.vec 512 0 == 0xFFFFFFFFFFFF0000FFFFFFFFFFFFFFFFFFFFFFFFFFFF0000FFFFFFFF0000FFFF#512) = true := by
  decide +kernel

/-- X8, R146. -/
theorem test_step_vpcmpeqdYmm :
    nextSatisfies (stepOver [0xC5, 0xF5, 0x76, 0xC2] (withWide)) (fun t => t.vec 512 0 == 0xFFFFFFFF00000000FFFFFFFFFFFFFFFFFFFFFFFF00000000FFFFFFFF00000000#512) = true := by
  decide +kernel

/-- R151. -/
theorem test_step_vpcmpeqdK128 :
    nextSatisfies (stepOver [0x62, 0xF1, 0x6D, 0x0A, 0x76, 0xCB] (putK 1 (2 ^ 64 - 1) (putK 2 0xFFFFFFFFFFFFFFFA withS))) (fun t => t.opmask 1 == 2#64 && t.pc == 0xFFF6#64) = true := by
  decide +kernel

/-- E8: four bytes are read. -/
theorem test_step_vpcmpeqdK128_broadcast :
    nextSatisfies (stepOver [0x62, 0xF1, 0x75, 0x18, 0x76, 0x65, 0xFF] (putV 1 0x00112233CCDDEEFF8899AABBCCDDEEFF (putX 5 0x7004 (putMem 0x7000 [0xFF, 0xEE, 0xDD, 0xCC] State.reset)))) (fun t => t.opmask 4 == 5#64) = true := by
  decide +kernel

/-- R152. -/
theorem test_step_vpcmpeqdK256 :
    nextSatisfies (stepOver [0x62, 0xF1, 0x6D, 0x28, 0x76, 0xCB] (withS)) (fun t => t.opmask 1 == 0xF7#64) = true := by
  decide +kernel

/-- R153. -/
theorem test_step_vpcmpeqdK512 :
    nextSatisfies (stepOver [0x62, 0xF1, 0x6D, 0x4A, 0x76, 0xCB] (putK 2 0xFF withS)) (fun t => t.opmask 1 == 0xF7#64) = true := by
  decide +kernel

/-- E13: the destination is the writemask. -/
theorem test_step_vpcmpeqdK512_aliased :
    nextSatisfies (stepOver [0x62, 0xF1, 0x7D, 0x49, 0x76, 0xC8] (putK 1 0x8000040000020020 State.reset)) (fun t => t.opmask 1 == 0x20#64) = true := by
  decide +kernel

/-- R154. -/
theorem test_step_vpcmpeqbK128 :
    nextSatisfies (stepOver [0x62, 0xF1, 0x6D, 0x08, 0x74, 0xCB] (putK 1 (2 ^ 64 - 1) withS)) (fun t => t.opmask 1 == 0xBFFF#64) = true := by
  decide +kernel

/-- R155. -/
theorem test_step_vpcmpeqbK256 :
    nextSatisfies (stepOver [0x62, 0xF1, 0x6D, 0x28, 0x74, 0xCB] (withS)) (fun t => t.opmask 1 == 0xFFFFBFFF#64) = true := by
  decide +kernel

/-- R156. -/
theorem test_step_vpcmpeqbK512 :
    nextSatisfies (stepOver [0x62, 0xF1, 0x6D, 0x4A, 0x74, 0xCB] (putK 2 0xFFFFFFFF withS)) (fun t => t.opmask 1 == 0xFFFFBFFF#64) = true := by
  decide +kernel

/-- R157. -/
theorem test_step_vpcmpeqwK128 :
    nextSatisfies (stepOver [0x62, 0xF1, 0x6D, 0x08, 0x75, 0xCB] (withS)) (fun t => t.opmask 1 == 0x7F#64) = true := by
  decide +kernel

/-- R158. -/
theorem test_step_vpcmpeqwK256 :
    nextSatisfies (stepOver [0x62, 0xF1, 0x6D, 0x28, 0x75, 0xCB] (withS)) (fun t => t.opmask 1 == 0xFF7F#64) = true := by
  decide +kernel

/-- R159. -/
theorem test_step_vpcmpeqwK512 :
    nextSatisfies (stepOver [0x62, 0xF1, 0x6D, 0x4A, 0x75, 0xCB] (putK 2 0xFFFFFFFF withS)) (fun t => t.opmask 1 == 0x7FFDFF7F#64) = true := by
  decide +kernel

/-! ### One step that faults -/

/-- M12: #UD before #NM. -/
theorem test_fault_em_before_ts :
    faultIs (stepOver [0x0F, 0x74, 0xC1] ({ withMm with cr0 := 0xC#64 })) 6 none
      ({ { withMm with cr0 := 0xC#64 } with text := (({ withMm with cr0 := 0xC#64 }).loadText (bytes [0x0F, 0x74, 0xC1])).text }) = true := by
  decide +kernel

/-- E27. -/
theorem test_fault_ts :
    faultIs (stepOver [0x62, 0xF1, 0x6D, 0x08, 0x76, 0xCB] ({ withS with cr0 := 0x8#64 })) 7 none
      ({ { withS with cr0 := 0x8#64 } with text := (({ withS with cr0 := 0x8#64 }).loadText (bytes [0x62, 0xF1, 0x6D, 0x08, 0x76, 0xCB])).text }) = true := by
  decide +kernel

/-- M13. -/
theorem test_fault_x87_pending :
    faultIs (stepOver [0x0F, 0x74, 0xC1] ({ withMm with x87Pending := true })) 16 none
      ({ { withMm with x87Pending := true } with text := (({ withMm with x87Pending := true }).loadText (bytes [0x0F, 0x74, 0xC1])).text }) = true := by
  decide +kernel

/-- S8. -/
theorem test_fault_misaligned :
    faultIs (stepOver [0x66, 0x0F, 0x74, 0x11] (putX 1 0x4008 (withAB 2 1))) 13 (some 0#32)
      ({ putX 1 0x4008 (withAB 2 1) with text := ((putX 1 0x4008 (withAB 2 1)).loadText (bytes [0x66, 0x0F, 0x74, 0x11])).text }) = true := by
  decide +kernel

/-- X16. -/
theorem test_fault_osxsave_clear :
    faultIs (stepOver [0xC5, 0xF1, 0x74, 0xC2] ({ withAB 1 2 with cr4 := 0x200#64 })) 6 none
      ({ { withAB 1 2 with cr4 := 0x200#64 } with text := (({ withAB 1 2 with cr4 := 0x200#64 }).loadText (bytes [0xC5, 0xF1, 0x74, 0xC2])).text }) = true := by
  decide +kernel

/-- E26. -/
theorem test_fault_xcr0_avx512_clear :
    faultIs (stepOver [0x62, 0xF1, 0x6D, 0x08, 0x76, 0xCB] ({ withS with xcr0 := 0x7#64 })) 6 none
      ({ { withS with xcr0 := 0x7#64 } with text := (({ withS with xcr0 := 0x7#64 }).loadText (bytes [0x62, 0xF1, 0x6D, 0x08, 0x76, 0xCB])).text }) = true := by
  decide +kernel

/-- M17: a page fault records the address in CR2 and leaves the rest; `CPL = 3` sets U/S. -/
theorem test_fault_page :
    (match faultOf (stepOver [0x0F, 0x74, 0x00] (putX 0 0x77 { withMm with cpl := 3#2 })) with
      | some f => f.vector == 14 && f.errorCode == some 4#32 && f.state.cr2 == 0x77#64 && f.state.pc == 0xFFF0#64 &&
          f.state.mm 0 == 0x1122334455667788#64
      | none => false) = true := by
  decide +kernel

/-- A processor with AVX512BW and without AVX512F, whose vector registers are V0 to V15 (R11, log 20). -/
def withoutAvx512f : State :=
  { State.reset with config := { Config.reference with features := ⟨true, true, true, true, false, true, true⟩ } }

/-- There VPCMPEQB k1, xmm15, xmm3 runs (62 F1 05 08 74 CB), and with xmm16 or as VPCMPEQD it is #UD (log 20, R2). -/
theorem test_registers_without_avx512f :
    nextSatisfies (stepOver [0x62, 0xF1, 0x05, 0x08, 0x74, 0xCB] withoutAvx512f) (fun t => t.opmask 1 == 0xFFFF#64) = true ∧
      (faultOf (stepOver [0x62, 0xF1, 0x7D, 0x00, 0x74, 0xCB] withoutAvx512f)).map Fault.vector = some 6 ∧
      (faultOf (stepOver [0x62, 0xB1, 0x05, 0x08, 0x74, 0xCB] withoutAvx512f)).map Fault.vector = some 6 ∧
      (faultOf (stepOver [0x62, 0xF1, 0x05, 0x08, 0x76, 0xCB] withoutAvx512f)).map Fault.vector = some 6 := by
  decide +kernel

/-- Twelve LOCK prefixes make fifteen bytes and #UD (R89 case 1); one more makes the instruction too long (log 25). -/
theorem test_too_long :
    (faultOf (step (State.reset.loadText (List.replicate 12 0xF0#8 ++ bytes [0x0F, 0x74, 0xC1])))).map Fault.vector =
        some 6 ∧
      refusalOf (step (State.reset.loadText (List.replicate 13 0xF0#8 ++ bytes [0x0F, 0x74, 0xC1]))) = some .tooLong := by
  decide +kernel

/-- R84's example: `62 F1 5D 24 76 58 02` (N = 32) and `62 F1 5D 34 76 58 10` (N = 4) both read at RAX + 64. -/
theorem test_compressed_displacement :
    [[0x62, 0xF1, 0x5D, 0x24, 0x76, 0x58, 0x02], [0x62, 0xF1, 0x5D, 0x34, 0x76, 0x58, 0x10]].map (fun ns =>
        (reads64 ns).instr?.bind fun i => ((putX 0 0x1000 State.reset).memoryQuery i).map fun q => (q.ea, q.n)) =
      [some (0x1040#64, 32), some (0x1040#64, 4)] := by
  decide +kernel

/-- Straight after reset nothing is loaded. -/
theorem test_reset_has_no_program : refusalOf (step State.reset) = some .noProgramText := by decide

/-- A word of the opcode table is decoded and is what the next step runs (row 1 with register operands). -/
theorem test_table_word :
    decodeTableWord 24 0x0F74C1 = some (.pcmpeqbMm ⟨[], none⟩ 0#3 (.reg 1#3)) ∧
      nextSatisfies (step (State.reset.withFetchWord 24 0x0F74C1)) (fun t => t.mm 0 == BitVec.allOnes 64) = true := by
  constructor <;> decide +kernel

/-! ### Witnesses: for every statement with hypotheses, a state and operands that meet them together -/

/-- An outcome that is a next state with the property. -/
theorem exists_next {o : Host.Outcome State Fault Refusal} {p : State → Bool} (h : nextSatisfies o p = true) :
    ∃ t, o = .next t ∧ p t = true := by
  cases o with
  | next t => exact ⟨t, rfl, h⟩
  | fault f => cases h
  | refused r => cases h

/-- An outcome that completes. -/
theorem completes {o : Host.Outcome State Fault Refusal} (h : nextSatisfies o (fun _ => true) = true) :
    ∃ t, o = .next t := (exists_next h).imp fun _ h => h.1

/-- An outcome that is a fault of a vector. -/
theorem faults {o : Host.Outcome State Fault Refusal} {v : Nat} (h : (faultOf o).map Fault.vector = some v) :
    ∃ f, o = .fault f ∧ f.vector = v := by
  cases o with
  | next t => cases h
  | fault f => exact ⟨f, rfl, by simpa [faultOf] using h⟩
  | refused r => cases h

/-- PCMPEQB mm0, mm1. -/
def anMmx : Instr := .pcmpeqbMm ⟨[], none⟩ 0#3 (.reg 1#3)

/-- PCMPEQB mm0, [rax]. -/
def anMmxLoad : Instr := .pcmpeqbMm ⟨[], none⟩ 0#3 (.mem (.base 0#3 .none))

/-- PCMPEQB xmm0, [rax]. -/
def anXmmLoad : Instr := .pcmpeqbXmm ⟨[.operandSize], none⟩ 0#3 (.mem (.base 0#3 .none))

/-- No prefix, no writemask, source register 2. -/
def plainEvex : EvexEnc := ⟨[], false, false, false, false, 2#4, false, 0#3⟩

/-- As `plainEvex`, with the broadcast bit. -/
def broadcastEvex : EvexEnc := ⟨[], false, false, false, false, 2#4, true, 0#3⟩

/-- Sixty-four bytes at 4000H, where RAX points. -/
def withMem : State := putX 0 0x4000 (putMem 0x4000 ((List.range 64).map (· + 1)) State.reset)

/-- The state in Mode32, with code at 1000H. -/
def inMode32 (s : State) : State := { s with mode := .mode32, pc := 0x1000#64 }

theorem reset_mmxReady : State.reset.MmxReady := (State.mmxReady_iff _).mpr (by decide)

theorem reset_xmmReady : State.reset.XmmReady := (State.xmmReady_iff _).mpr (by decide)

theorem reset_vexReady : State.reset.VexReady 128 ∧ State.reset.VexReady 256 :=
  ⟨(State.vexReady_iff _ _).mpr (by decide), (State.vexReady_iff _ _).mpr (by decide)⟩

theorem withMem_ready :
    withMem.MmxReady ∧ withMem.XmmReady ∧ withMem.VexReady 128 ∧ withMem.VexReady 256 :=
  ⟨(State.mmxReady_iff _).mpr (by decide +kernel), (State.xmmReady_iff _).mpr (by decide +kernel),
    (State.vexReady_iff _ _).mpr (by decide +kernel), (State.vexReady_iff _ _).mpr (by decide +kernel)⟩

/-- PCMPEQB mm0, mm1 in the last three canonical bytes of the lower half: the next `pc` is outside. -/
def atEdge : State := { State.reset with pc := 0x00007FFFFFFFFFFD#64 }.loadText (bytes [0x0F, 0x74, 0xC1])

/-- An instruction whose next `pc` is in the code range, and one whose next `pc` is not. -/
theorem witness_StepRunsDecodedInstruction :
    (∃ (s : State) (i : Instr), s.Admits 0 ∧ s.codeFits i.length = true ∧ decode s.mode s.fetch = .form i) ∧
      ∃ (s : State) (i : Instr), s.Admits 0 ∧ s.codeFits i.length = false ∧ decode s.mode s.fetch = .form i :=
  ⟨⟨State.reset.loadText (bytes [0x0F, 0x74, 0xC1]), anMmx, admits (by decide +kernel), by decide +kernel,
      by decide +kernel⟩,
    ⟨atEdge, anMmx, admits (by decide +kernel), by decide +kernel, by decide +kernel⟩⟩

/-- The same two. -/
theorem witness_StepRunsInstructionHeldAtPc :
    ∀ s ∈ [State.reset.loadText (bytes [0x0F, 0x74, 0xC1]), atEdge], ∃ i : Instr, i.ok s.mode = true ∧ s.Admits 0 ∧
      (∀ k < i.length, s.codeAddress (s.pc.toNat + k) = true) ∧
      ∀ k < i.length, s.text.read (s.pc.toNat + k) = (encode i)[k]? := by
  intro s hs
  simp only [List.mem_cons, List.not_mem_nil, or_false] at hs
  rcases hs with rfl | rfl <;>
    exact ⟨anMmx, by decide +kernel, admits (by decide +kernel), by decide +kernel, by decide +kernel⟩

theorem witness_StepOnOtherBytes :
    (∃ s : State, s.Admits 0 ∧ decode s.mode s.fetch = .invalidOpcode) ∧
      (∃ s : State, s.Admits 0 ∧ decode s.mode s.fetch = .refused .leadBytes) ∧
      (∃ s : State, s.Admits 0 ∧ decode s.mode s.fetch = .notThisFamily) ∧
      (∃ s : State, s.Admits 0 ∧ decode s.mode s.fetch = .truncated ∧ s.fetch.length < 15) ∧
      ∃ s : State, s.Admits 0 ∧ decode s.mode s.fetch = .truncated ∧ 15 ≤ s.fetch.length :=
  ⟨⟨State.reset.loadText (bytes [0xF0, 0x0F, 0x74, 0xC1]), admits (by decide +kernel), by decide +kernel⟩,
    ⟨State.reset.loadText (bytes [0x66, 0x66, 0x0F, 0x74, 0xC1]), admits (by decide +kernel), by decide +kernel⟩,
    ⟨State.reset.loadText (bytes [0x90]), admits (by decide +kernel), by decide +kernel⟩,
    ⟨State.reset.loadText (List.replicate 14 0xF0#8), admits (by decide +kernel), by decide +kernel⟩,
    ⟨State.reset.loadText (List.replicate 15 0xF0#8), admits (by decide +kernel), by decide +kernel⟩⟩

/-- Each of the four launches that are not admitted. -/
theorem witness_UnadmittedLaunchTakesNoStep :
    (∃ s : State, s.mode ≠ .mode64 ∧ s.mode ≠ .mode32) ∧
      (∃ s : State, s.cr0.getLsbD 18 = true ∧ s.eflags.getLsbD 18 = true ∧ s.cpl = 3#2) ∧
      (∃ s : State, s.eflags.getLsbD 8 = true) ∧ ∃ s : State, s.breakpointArmed = true :=
  ⟨⟨{ State.reset with mode := .realAddress }, by decide, by decide⟩,
    ⟨{ State.reset with cr0 := 0x40000#64, eflags := 0x40000#32, cpl := 3#2 }, by decide, by decide, rfl⟩,
    ⟨{ State.reset with eflags := 0x100#32 }, by decide⟩, ⟨{ State.reset with breakpointArmed := true }, rfl⟩⟩

/-- The next `pc` alone is outside, of an instruction and of a step that decodes it. -/
theorem witness_CodeOutsideItsRangeIsRefused :
    atEdge.Admits 0 ∧ 3 ≤ anMmx.length ∧ atEdge.codeAddress (atEdge.pc.toNat + 3) = false ∧
      decode atEdge.mode atEdge.fetch = .form anMmx :=
  ⟨admits (by decide +kernel), by decide, by decide +kernel, by decide +kernel⟩

/-- Both sides of each boundary of the code addresses. -/
theorem witness_CodeAddressesAreCanonical :
    State.reset.codeAddress 0x00007FFFFFFFFFFF = true ∧ State.reset.codeAddress 0x0000800000000000 = false ∧
      State.reset.codeAddress 0xFFFF7FFFFFFFFFFF = false ∧ State.reset.codeAddress 0xFFFF800000000000 = true ∧
      (inMode32 State.reset).codeAddress 0xFFFFFFFF = true ∧ (inMode32 State.reset).codeAddress 0x100000000 = false ∧
      State.reset.mode = .mode64 ∧ State.reset.config.linearBits = 48 ∧ (inMode32 State.reset).mode = .mode32 := by
  decide +kernel

/-- A state with bytes loaded that meets the invariant and completes a step. -/
theorem witness_StepKeepsInvariant : ∃ s t : State, s.Inv ∧ step s = .next t := by
  obtain ⟨t, ht⟩ := completes (o := stepOver [0x0F, 0x74, 0xC1] State.reset) (by decide +kernel)
  refine ⟨_, t, ⟨by decide +kernel, by decide +kernel, .inl rfl, ?_, (fun h => by cases h), ?_, by decide +kernel⟩, ht⟩
  · intro n j hj
    exact BitVec.getLsbD_of_ge _ _ hj
  · intro n j hj
    exact BitVec.getLsbD_of_ge _ _ hj

/-- A step over a form of each class. -/
theorem witness_StepKeepsRest :
    (∃ t, stepOver [0x0F, 0x74, 0xC1] State.reset = .next t) ∧
      (∃ t, stepOver [0x66, 0x0F, 0x74, 0xC1] State.reset = .next t) ∧
      (∃ t, stepOver [0xC5, 0xF5, 0x74, 0xC1] State.reset = .next t) ∧
      ∃ t, stepOver [0x62, 0xF1, 0x6D, 0x08, 0x76, 0xCB] State.reset = .next t :=
  ⟨completes (by decide +kernel), completes (by decide +kernel), completes (by decide +kernel),
    completes (by decide +kernel)⟩

theorem witness_StepAdvancesPcByLength : ∃ s t : State, step s = .next t :=
  witness_StepKeepsInvariant.imp fun _ ⟨t, _, h⟩ => ⟨t, h⟩

/-- A run of two steps. -/
theorem witness_RunLeavesMemoryUnchanged : ∃ (n : Nat) (s t : State), core.run n s = .next t := by
  obtain ⟨t, ht⟩ := completes (o := core.run 2 (State.reset.loadText (bytes [0x0F, 0x74, 0xC1, 0x0F, 0x74, 0xC1])))
    (by decide +kernel)
  exact ⟨2, _, t, ht⟩

/-- Lane 7 of eight bytes, equal and unequal. -/
theorem witness_EqLanesMarksEqualLanes :
    lane 8 (eqLanes 8 (0x1122334455667788#64 : BitVec (8 * 8)) 0x1122FF4455AA7788#64) 7 = 0xFF#8 ∧
      lane 8 (eqLanes 8 (0x1122334455667788#64 : BitVec (8 * 8)) 0x1122FF4455AA7788#64) 5 = 0#8 := by
  decide +kernel

/-- The same two lanes in the mask. -/
theorem witness_EqMaskMarksEqualLanes :
    (eqMask 8 (0x1122334455667788#64 : BitVec (8 * 8)) 0x1122FF4455AA7788#64).getLsbD 7 = true ∧
      (eqMask 8 (0x1122334455667788#64 : BitVec (8 * 8)) 0x1122FF4455AA7788#64).getLsbD 5 = false := by
  decide +kernel

/-- The hypotheses of each law at the last lane of a doubleword made of bytes. -/
theorem witness_LaneEqualityLaws : ∃ v c n j : Nat, 0 < v ∧ 0 < c ∧ j < n ∧ v * c = 32 ∧ j + 1 = n :=
  ⟨8, 4, 2, 1, by decide⟩

/-- Two pairs of operands that agree in lane 0 and differ in lane 1. -/
theorem witness_LaneEqualityIsOfBitPatterns :
    ∃ (w n : Nat) (a b a' b' : BitVec (w * n)) (j : Nat), j < n ∧ lane w a j = lane w a' j ∧ lane w b j = lane w b' j ∧
      a ≠ a' ∧ b ≠ b' :=
  ⟨8, 2, 0x1122#16, 0x3322#16, 0x4422#16, 0x5522#16, 0, by decide⟩

/-- A register operand and a memory operand. -/
theorem witness_MmxFormsComplete :
    (∃ (s : State) (e : LegacyEnc) (rm : RmField) (src : BitVec 64),
      rm.isMem = false ∧ s.Admits (legacyLength e rm) ∧ s.MmxReady ∧ s.MmxOperand e rm src) ∧
    ∃ (s : State) (e : LegacyEnc) (rm : RmField) (src : BitVec 64),
      rm.isMem = true ∧ s.Admits (legacyLength e rm) ∧ s.MmxReady ∧ s.MmxOperand e rm src :=
  ⟨⟨State.reset, ⟨[], none⟩, .reg 1#3, _, rfl, admits (by decide +kernel), reset_mmxReady, rfl⟩,
    ⟨withMem, ⟨[], none⟩, .mem (.base 0#3 .none), 0x0807060504030201#64, rfl, admits (by decide +kernel),
      withMem_ready.1, bytes [1, 2, 3, 4, 5, 6, 7, 8], by decide +kernel, by unfold IsLittleEndian; decide +kernel⟩⟩

/-- A register operand and an aligned memory operand. -/
theorem witness_XmmFormsComplete :
    (∃ (s : State) (e : LegacyEnc) (rm : RmField) (src : BitVec 128),
      rm.isMem = false ∧ s.Admits (legacyLength e rm) ∧ s.XmmReady ∧ s.XmmOperand e rm src) ∧
    ∃ (s : State) (e : LegacyEnc) (rm : RmField) (src : BitVec 128),
      rm.isMem = true ∧ s.Admits (legacyLength e rm) ∧ s.XmmReady ∧ s.XmmOperand e rm src :=
  ⟨⟨State.reset, ⟨[.operandSize], none⟩, .reg 1#3, _, rfl, admits (by decide +kernel), reset_xmmReady, rfl⟩,
    ⟨withMem, ⟨[.operandSize], none⟩, .mem (.base 0#3 .none), 0x100F0E0D0C0B0A090807060504030201#128, rfl,
      admits (by decide +kernel), withMem_ready.2.1, by decide +kernel,
      bytes [1, 2, 3, 4, 5, 6, 7, 8, 9, 10, 11, 12, 13, 14, 15, 16], by decide +kernel,
      by unfold IsLittleEndian; decide +kernel⟩⟩

/-- A register operand and a memory operand, at 128 bits. -/
theorem witness_Vex128FormsComplete :
    (∃ (s : State) (e : VexEnc) (rm : RmField) (src : BitVec 128),
      rm.isMem = false ∧ s.Admits (vexLength e rm) ∧ s.VexReady 128 ∧ s.VexOperand 128 e rm src) ∧
    ∃ (s : State) (e : VexEnc) (rm : RmField) (src : BitVec 128),
      rm.isMem = true ∧ s.Admits (vexLength e rm) ∧ s.VexReady 128 ∧ s.VexOperand 128 e rm src :=
  ⟨⟨State.reset, ⟨[], .two false 1#4⟩, .reg 1#3, _, rfl, admits (by decide +kernel), reset_vexReady.1, rfl⟩,
    ⟨withMem, ⟨[], .two false 1#4⟩, .mem (.base 0#3 .none), 0x100F0E0D0C0B0A090807060504030201#128, rfl,
      admits (by decide +kernel), withMem_ready.2.2.1,
      bytes [1, 2, 3, 4, 5, 6, 7, 8, 9, 10, 11, 12, 13, 14, 15, 16], by decide +kernel,
      by unfold IsLittleEndian; decide +kernel⟩⟩

/-- A register operand and a memory operand, at 256 bits. -/
theorem witness_Vex256FormsComplete :
    (∃ (s : State) (e : VexEnc) (rm : RmField) (src : BitVec 256),
      rm.isMem = false ∧ s.Admits (vexLength e rm) ∧ s.VexReady 256 ∧ s.VexOperand 256 e rm src) ∧
    ∃ (s : State) (e : VexEnc) (rm : RmField) (src : BitVec 256),
      rm.isMem = true ∧ s.Admits (vexLength e rm) ∧ s.VexReady 256 ∧ s.VexOperand 256 e rm src :=
  ⟨⟨State.reset, ⟨[], .two false 1#4⟩, .reg 1#3, _, rfl, admits (by decide +kernel), reset_vexReady.2, rfl⟩,
    ⟨withMem, ⟨[], .two false 1#4⟩, .mem (.base 0#3 .none), BitVec.ofNat 256 (littleEndian (bytes ((List.range 32).map (· + 1)))),
      rfl, admits (by decide +kernel), withMem_ready.2.2.2, bytes ((List.range 32).map (· + 1)), by decide +kernel,
      by unfold IsLittleEndian; decide +kernel⟩⟩

/-- For a width and a length, a state, an encoding and a register operand that meet the hypotheses of an EVEX form. -/
def EvexHypotheses (w vl : Nat) : Prop :=
  ∃ (s : State) (e : EvexEnc) (rm : RmField) (src : BitVec vl),
    s.Admits (evexLength e rm) ∧ s.EvexReady w vl e rm ∧ s.EvexOperand vl e rm src

theorem evexHypotheses_of_ready {w vl : Nat} (h : State.reset.EvexReady w vl plainEvex (.reg 3#3)) : EvexHypotheses w vl :=
  ⟨State.reset, plainEvex, .reg 3#3, _, admits (by decide +kernel), h, rfl⟩

/-- A register operand at every length, and a broadcast and a full memory operand at 512 bits. -/
theorem witness_EvexDoublewordFormsComplete :
    (EvexHypotheses 32 128 ∧ EvexHypotheses 32 256 ∧ EvexHypotheses 32 512) ∧
      (∃ src, withMem.Admits (evexLength broadcastEvex (.mem (.base 0#3 .none))) ∧ withMem.EvexReady 32 512 broadcastEvex (.mem (.base 0#3 .none)) ∧
        withMem.EvexOperand 512 broadcastEvex (.mem (.base 0#3 .none)) src) ∧
      ∃ src, withMem.Admits (evexLength plainEvex (.mem (.base 0#3 .none))) ∧ withMem.EvexReady 32 512 plainEvex (.mem (.base 0#3 .none)) ∧
        withMem.EvexOperand 512 plainEvex (.mem (.base 0#3 .none)) src := by
  refine ⟨⟨evexHypotheses_of_ready ((State.evexReady_iff _ _ _ _ _).mpr (by decide +kernel)),
    evexHypotheses_of_ready ((State.evexReady_iff _ _ _ _ _).mpr (by decide +kernel)),
    evexHypotheses_of_ready ((State.evexReady_iff _ _ _ _ _).mpr (by decide +kernel))⟩,
    ⟨broadcast32 512 0x04030201#32, admits (by decide +kernel),
      (State.evexReady_iff _ _ _ _ _).mpr (by decide +kernel), ?_⟩,
    ⟨BitVec.ofNat 512 (littleEndian (bytes ((List.range 64).map (· + 1)))), admits (by decide +kernel),
      (State.evexReady_iff _ _ _ _ _).mpr (by decide +kernel), ?_⟩⟩
  · exact ⟨bytes [1, 2, 3, 4], 0x04030201#32, by decide +kernel, by unfold IsLittleEndian; decide +kernel,
      by decide +kernel⟩
  · exact ⟨bytes ((List.range 64).map (· + 1)), by decide +kernel, by unfold IsLittleEndian; decide +kernel⟩

theorem witness_EvexByteFormsComplete : EvexHypotheses 8 128 ∧ EvexHypotheses 8 256 ∧ EvexHypotheses 8 512 :=
  ⟨evexHypotheses_of_ready ((State.evexReady_iff _ _ _ _ _).mpr (by decide +kernel)),
    evexHypotheses_of_ready ((State.evexReady_iff _ _ _ _ _).mpr (by decide +kernel)),
    evexHypotheses_of_ready ((State.evexReady_iff _ _ _ _ _).mpr (by decide +kernel))⟩

theorem witness_EvexWordFormsComplete : EvexHypotheses 16 128 ∧ EvexHypotheses 16 256 ∧ EvexHypotheses 16 512 :=
  ⟨evexHypotheses_of_ready ((State.evexReady_iff _ _ _ _ _).mpr (by decide +kernel)),
    evexHypotheses_of_ready ((State.evexReady_iff _ _ _ _ _).mpr (by decide +kernel)),
    evexHypotheses_of_ready ((State.evexReady_iff _ _ _ _ _).mpr (by decide +kernel))⟩

/-- One instruction for each of the five clauses. -/
theorem witness_SameRegisterComparesEqual :
    (∃ s t, exec (.pcmpeqbMm ⟨[], none⟩ 1#3 (.reg 1#3)) s = .next t) ∧
      (∃ s t e reg r, vecNum4 (LegacyEnc.b e) r = vecNum4 e.r reg ∧ exec (.pcmpeqbXmm e reg (.reg r)) s = .next t) ∧
      (∃ s t e reg r, vecNum4 (VexPayload.b e) r = 0#1 ++ e.vvvv ∧
        exec (.vpcmpeqbXmm ⟨[], e⟩ reg (.reg r)) s = .next t) ∧
      (∃ s t e reg r, vecNum4 (VexPayload.b e) r = 0#1 ++ e.vvvv ∧
        exec (.vpcmpeqbYmm ⟨[], e⟩ reg (.reg r)) s = .next t) ∧
      ∃ s t e reg r, EvexEnc.src2 e r = e.src1 ∧ exec (.vpcmpeqdK128 e reg (.reg r)) s = .next t := by
  refine ⟨⟨State.reset, completes (by decide +kernel)⟩, ?_, ?_, ?_, ?_⟩
  · obtain ⟨t, ht⟩ := completes (o := exec (.pcmpeqbXmm ⟨[.operandSize], none⟩ 1#3 (.reg 1#3)) State.reset) (by decide +kernel)
    exact ⟨State.reset, t, ⟨[.operandSize], none⟩, 1#3, 1#3, rfl, ht⟩
  · obtain ⟨t, ht⟩ := completes (o := exec (.vpcmpeqbXmm ⟨[], .two false 1#4⟩ 0#3 (.reg 1#3)) State.reset) (by decide +kernel)
    exact ⟨State.reset, t, .two false 1#4, 0#3, 1#3, by decide, ht⟩
  · obtain ⟨t, ht⟩ := completes (o := exec (.vpcmpeqbYmm ⟨[], .two false 1#4⟩ 0#3 (.reg 1#3)) State.reset) (by decide +kernel)
    exact ⟨State.reset, t, .two false 1#4, 0#3, 1#3, by decide, ht⟩
  · obtain ⟨t, ht⟩ := completes (o := exec (.vpcmpeqdK128 plainEvex 0#3 (.reg 2#3)) State.reset) (by decide +kernel)
    exact ⟨State.reset, t, plainEvex, 0#3, 2#3, by decide, ht⟩

/-- A writemask k1 and a register operand. -/
theorem witness_DestinationMayBeTheWritemask :
    ∃ (s : State) (e : EvexEnc) (rm : RmField) (src : BitVec 128),
      s.Admits (evexLength e rm) ∧ s.EvexReady 32 128 e rm ∧ s.EvexOperand 128 e rm src ∧ e.aaa ≠ 0#3 :=
  ⟨State.reset, { plainEvex with aaa := 1#3 }, .reg 3#3, _, admits (by decide +kernel),
    (State.evexReady_iff _ _ _ _ _).mpr (by decide +kernel), rfl, by decide⟩

/-- Without a writemask, and with one whose used bits agree while the rest differ. -/
theorem witness_OnlyTheWritemaskIsRead :
    (∃ t, exec (.vpcmpeqdK128 plainEvex 1#3 (.reg 3#3)) State.reset = .next t) ∧
      ∃ (t : State) (e : EvexEnc) (k' : Vector MaskWord 8), e.aaa ≠ 0#3 ∧ k' ≠ State.reset.k ∧
        exec (.vpcmpeqdK128 e 1#3 (.reg 3#3)) State.reset = .next t ∧
        ∀ j < 4, ({ State.reset with k := k' }.opmask e.aaa).getLsbD j = (State.reset.opmask e.aaa).getLsbD j := by
  refine ⟨completes (by decide +kernel), ?_⟩
  obtain ⟨t, ht⟩ := completes (o := exec (.vpcmpeqdK128 { plainEvex with aaa := 1#3 } 1#3 (.reg 3#3)) State.reset)
    (by decide +kernel)
  exact ⟨t, _, State.reset.k.set 1 0x10#64, by decide, by decide +kernel, ht, by decide +kernel⟩

/-- The two forms over the same registers. -/
theorem witness_EvexMaskMatchesVexLanes :
    ∃ (s t t' : State) (e : VexEnc) (e' : EvexEnc) (rm rm' : RmField) (src : BitVec 128),
      s.vec 128 (0#1 ++ e.vex.vvvv) = s.vec 128 (bit1 e'.v' ++ e'.vvvv) ∧ s.VexOperand 128 e rm src ∧
      s.EvexOperand 128 e' rm' src ∧ e'.aaa = 0#3 ∧ exec (.vpcmpeqbXmm e 0#3 rm) s = .next t ∧
      exec (.vpcmpeqbK128 e' 1#3 rm') s = .next t' := by
  obtain ⟨t, ht⟩ := completes (o := exec (.vpcmpeqbXmm ⟨[], .two false 2#4⟩ 0#3 (.reg 3#3)) withS) (by decide +kernel)
  obtain ⟨t', ht'⟩ := completes (o := exec (.vpcmpeqbK128 plainEvex 1#3 (.reg 3#3)) withS) (by decide +kernel)
  exact ⟨withS, t, t', ⟨[], .two false 2#4⟩, plainEvex, .reg 3#3, .reg 3#3, withS.vec 128 (vecNum4 false 3#3),
    congrArg (withS.vec 128) (by decide), rfl, congrArg (withS.vec 128) (by decide), rfl, ht, ht'⟩

/-- An instruction that completes, and other flags, with TF and AC kept. -/
theorem witness_FlagsAreNeitherReadNorWritten :
    ∃ (i : Instr) (s t : State) (f : BitVec 32), exec i s = .next t ∧ f ≠ s.eflags ∧
      f.getLsbD 8 = s.eflags.getLsbD 8 ∧ f.getLsbD 18 = s.eflags.getLsbD 18 := by
  obtain ⟨t, ht⟩ := completes (o := exec anMmx State.reset) (by decide +kernel)
  exact ⟨anMmx, _, t, 0x8D7#32, ht, by decide, by decide, by decide⟩

theorem witness_RegisterFormsReadNoMemory :
    ∃ (i : Instr) (s t : State) (r : BitVec 3), i.rm = .reg r ∧ exec i s = .next t ∧
      (s.cr0.getLsbD 18 = false ∨ s.eflags.getLsbD 18 = false) := by
  obtain ⟨t, ht⟩ := completes (o := exec anMmx State.reset) (by decide +kernel)
  exact ⟨anMmx, _, t, 1#3, rfl, ht, .inl (by decide)⟩

/-- The same, and with alignment checking half on: `AM = 1` and `AC = 0`. -/
theorem witness_PrivilegeLevelDoesNotMatter :
    ∃ (i : Instr) (s t : State) (r : BitVec 3), i.rm = .reg r ∧ s.cr0.getLsbD 18 = true ∧
      s.eflags.getLsbD 18 = false ∧ exec i s = .next t := by
  obtain ⟨t, ht⟩ := completes (o := exec anMmx { State.reset with cr0 := 0x40000#64 }) (by decide +kernel)
  exact ⟨anMmx, _, t, 1#3, rfl, by decide, by decide, ht⟩

/-- A completing and a faulting instruction. -/
theorem witness_MxcsrIsNeitherReadNorWritten :
    (∃ (i : Instr) (s t : State), exec i s = .next t) ∧ ∃ (i : Instr) (s : State) (f : Fault), exec i s = .fault f := by
  refine ⟨?_, ?_⟩
  · obtain ⟨t, ht⟩ := completes (o := exec anMmx State.reset) (by decide +kernel)
    exact ⟨_, _, t, ht⟩
  · obtain ⟨f, hf, -⟩ := faults (o := exec anMmxLoad State.reset) (v := 14) (by decide +kernel)
    exact ⟨_, _, f, hf⟩

/-- An operand of memory and another memory that agrees on its bytes alone. -/
theorem witness_OnlyOperandBytesAreRead :
    ∃ (i : Instr) (s t : State) (q : Query) (mem : Memory), s.memoryQuery i = some q ∧ mem ≠ s.mem ∧
      (∀ a ∈ s.operandAddresses q, Memory.read mem a = s.mem.read a) ∧ exec i s = .next t := by
  obtain ⟨t, ht⟩ := completes (o := exec anMmxLoad withMem) (by decide +kernel)
  exact ⟨anMmxLoad, withMem, t, _, withMem.mem.write 0x4008 0#8, rfl, by decide +kernel, by decide +kernel, ht⟩

/-- A fault of each vector. -/
theorem witness_FaultVectorsAndErrorCodes :
    (∃ i s f, exec i s = .fault f ∧ f.vector = 6) ∧ (∃ i s f, exec i s = .fault f ∧ f.vector = 7) ∧
      (∃ i s f, exec i s = .fault f ∧ f.vector = 12) ∧ (∃ i s f, exec i s = .fault f ∧ f.vector = 13) ∧
      (∃ i s f, exec i s = .fault f ∧ f.vector = 14) ∧ ∃ i s f, exec i s = .fault f ∧ f.vector = 16 :=
  ⟨⟨anMmx, { State.reset with cr0 := 0x4#64 }, faults (by decide +kernel)⟩,
    ⟨anMmx, { State.reset with cr0 := 0x8#64 }, faults (by decide +kernel)⟩,
    ⟨.pcmpeqbMm ⟨[.seg .ss], none⟩ 0#3 (.mem (.base 0#3 .none)), putX 0 0x0000800000000000 State.reset,
      faults (by decide +kernel)⟩,
    ⟨anMmxLoad, putX 0 0x0000800000000000 State.reset, faults (by decide +kernel)⟩,
    ⟨anMmxLoad, State.reset, faults (by decide +kernel)⟩,
    ⟨anMmx, { State.reset with x87Pending := true }, faults (by decide +kernel)⟩⟩

/-- A step that faults, by an exception before the page and by a page fault. -/
theorem witness_FaultsLeaveStateUnchanged :
    (∃ (s : State) (f : Fault), step s = .fault f ∧ f.vector ≠ 14) ∧ ∃ (s : State) (f : Fault), step s = .fault f ∧ f.vector = 14 := by
  refine ⟨?_, ?_⟩
  · obtain ⟨f, hf, hv⟩ := faults (o := stepOver [0x0F, 0x74, 0xC1] { State.reset with cr0 := 0x4#64 }) (v := 6) (by decide +kernel)
    exact ⟨_, f, hf, by omega⟩
  · obtain ⟨f, hf, hv⟩ := faults (o := stepOver [0x0F, 0x74, 0x00] State.reset) (v := 14) (by decide +kernel)
    exact ⟨_, f, hf, hv⟩

theorem witness_MmxInvalidOpcodeConditions : State.reset.Admits (legacyLength ⟨[], none⟩ (.reg 1#3)) :=
  admits (by decide +kernel)

theorem witness_XmmInvalidOpcodeConditions :
    State.reset.Admits (legacyLength ⟨[.operandSize], none⟩ (.reg 1#3)) := admits (by decide +kernel)

theorem witness_VexInvalidOpcodeConditions :
    State.reset.Admits (vexLength ⟨[], .two false 1#4⟩ (.reg 1#3)) := admits (by decide +kernel)

/-- A configuration with AVX512BW and without AVX512F, and one with both. -/
theorem witness_EvexInvalidOpcodeConditions :
    State.reset.Admits (evexLength plainEvex (.reg 1#3)) ∧ withoutAvx512f.Admits (evexLength plainEvex (.reg 1#3)) :=
  ⟨admits (by decide +kernel), admits (by decide +kernel)⟩

/-- `CR0.TS = 1` and no #UD condition. -/
theorem witness_DeviceNotAvailableWhenTaskSwitched :
    ∃ (i : Instr) (s : State), s.Admits i.length ∧ s.udInstr i = false ∧ s.cr0.getLsbD 3 = true :=
  ⟨anMmx, { State.reset with cr0 := 0x8#64 }, admits (by decide +kernel), by decide, by decide⟩

/-- A pending x87 exception and no other cause, and the #MF it gives. -/
theorem witness_MathFaultOnlyInMmxForms :
    (∃ (i : Instr) (s : State), s.Admits i.length ∧ i.isMmx = true ∧ s.x87Pending = true ∧ s.udInstr i = false ∧
      s.cr0.getLsbD 3 = false) ∧
      ∃ (i : Instr) (s s' : State), s.Admits i.length ∧ exec i s = .fault (.x87FloatingPoint s') :=
  ⟨⟨anMmx, { State.reset with x87Pending := true }, admits (by decide +kernel), rfl, rfl, by decide, by decide⟩,
    ⟨anMmx, { State.reset with x87Pending := true }, _, admits (by decide +kernel), rfl⟩⟩

/-- An operand one byte above a multiple of 16. -/
theorem witness_MisalignedXmmOperandFaults :
    ∃ (i : Instr) (s : State), s.Admits i.length ∧ s.udInstr i = false ∧ s.ts = false ∧ s.Misaligned i :=
  ⟨anXmmLoad, putX 0 0x4001 State.reset, admits (by decide +kernel), by decide +kernel, by decide +kernel, rfl,
    by decide +kernel⟩

/-- The state in which the launch fixes the answer to the one question PCMPEQB mm0, [rax] asks. -/
def answering (a : Answer) : State := { State.reset with oracle := [(⟨.ds, 0#64, 8, 0#2, .mode64⟩, a)] }

/-- Each of the four answers, with every other hypothesis. -/
theorem witness_TranslateFaultsAreTheInstructions :
    ∀ a ∈ [Answer.generalProtection, .stackSegment, .pageFault true true true 0xFFFFFFFFFFFFFFFF#64, .device],
      ∃ q, (answering a).Admits anMmxLoad.length ∧ (answering a).udInstr anMmxLoad = false ∧ (answering a).ts = false ∧
        (anMmxLoad.isMmx && (answering a).x87Pending) = false ∧ ¬ (answering a).Misaligned anMmxLoad ∧
        (answering a).memoryQuery anMmxLoad = some q ∧ (answering a).translate q = a := by
  intro a ha
  have hm : ¬ (answering a).Misaligned anMmxLoad := fun h => by cases h.1
  simp only [List.mem_cons, List.not_mem_nil, or_false] at ha
  rcases ha with rfl | rfl | rfl | rfl <;>
    exact ⟨_, admits (by decide +kernel), by decide +kernel, by decide +kernel, rfl, hm, rfl, by decide +kernel⟩

/-- A faulting register form; a completing instruction with other bytes in memory, and with others in an answer. -/
theorem witness_WhatCannotFault :
    (∃ (i : Instr) (s : State) (f : Fault) (r : BitVec 3), i.rm = .reg r ∧ exec i s = .fault f) ∧
      (∃ (i : Instr) (s t : State) (mem : Memory), exec i s = .next t ∧ mem ≠ s.mem ∧
        ∀ a, (mem.read a).isSome = (s.mem.read a).isSome) ∧
      ∃ (i : Instr) (s t : State) (oracle : List (Query × Answer)), exec i s = .next t ∧ oracle ≠ s.oracle ∧
        List.Forall₂ (fun e e' => e.1 = e'.1 ∧ e.2.SameButBytes e'.2) s.oracle oracle := by
  refine ⟨?_, ?_, ?_⟩
  · obtain ⟨f, hf, -⟩ := faults (o := exec anMmx { State.reset with x87Pending := true }) (v := 16) (by decide +kernel)
    exact ⟨_, _, f, 1#3, rfl, hf⟩
  · obtain ⟨t, ht⟩ := completes (o := exec anMmxLoad withMem) (by decide +kernel)
    refine ⟨_, _, t, withMem.mem.write 0x4000 0xFF#8, ht, by decide +kernel, fun a => ?_⟩
    rw [Memory.read_write]
    split
    · rename_i h
      subst h
      decide +kernel
    · rfl
  · obtain ⟨t, ht⟩ := completes (o := exec anMmxLoad (answering (.bytes (List.replicate 8 0#8)))) (by decide +kernel)
    exact ⟨_, _, t, (answering (.bytes (List.replicate 8 1#8))).oracle, ht, by decide +kernel,
      .cons ⟨rfl, .inr ⟨_, _, rfl, rfl, rfl⟩⟩ .nil⟩

theorem witness_MemoryReadsAreLittleEndian :
    ∃ (s : State) (val : BitVec (8 * 8)), s.oracle = [] ∧ s.mode = .mode64 ∧ s.readMemory (8 * 8) .ds 0x4000#64 = .ok val :=
  ⟨withMem, 0x0807060504030201#64, rfl, rfl, by decide +kernel⟩

/-- An operand that is not canonical at its last byte alone; one whose last byte alone is missing; one that is all there. -/
theorem witness_ReferenceTranslationIn64BitMode :
    withMem.mode = .mode64 ∧ withMem.codeAddress ((withMem.linear .ds 0x7FFFFFFFFFF9#64).toNat + 6) = true ∧
      withMem.codeAddress ((withMem.linear .ds 0x7FFFFFFFFFF9#64).toNat + 7) = false ∧
      (∀ j < 8, withMem.codeAddress ((withMem.linear .ds 0x4039#64).toNat + j) = true) ∧
      withMem.mem.read ((withMem.linear .ds 0x4039#64).toNat + 7) = none ∧
      (∀ i < 7, withMem.mem.read ((withMem.linear .ds 0x4039#64).toNat + i) ≠ none) ∧
      ∀ j < 8, withMem.mem.read ((withMem.linear .ds 0x4038#64).toNat + j) ≠ none := by
  decide +kernel

/-- A null selector; an operand that ends one byte beyond the limit FFFFH; two that end at it, one whose last byte alone is
missing and one that is all there. -/
theorem witness_ReferenceTranslationInMode32 :
    (∃ s : State, s.mode = .mode32 ∧ (s.seg .ds).null = true) ∧
      ((inMode32 State.reset).mode = .mode32 ∧ ((inMode32 State.reset).seg .ds).null = false ∧
        ((inMode32 State.reset).seg .ds).limit.toNat + 1 < (0xFFF9#64 : Word64).toNat + 8) ∧
      (∃ s : State, s.mode = .mode32 ∧ (s.seg .ds).null = false ∧
        (0xFFF8#64 : Word64).toNat + 8 ≤ (s.seg .ds).limit.toNat + 1 ∧
        s.mem.read (((s.linear .ds 0xFFF8#64).toNat + 7) % 2 ^ 32) = none ∧
        ∀ i < 7, s.mem.read (((s.linear .ds 0xFFF8#64).toNat + i) % 2 ^ 32) ≠ none) ∧
      ∃ s : State, s.mode = .mode32 ∧ (s.seg .ds).null = false ∧
        (0xFFF8#64 : Word64).toNat + 8 ≤ (s.seg .ds).limit.toNat + 1 ∧
        ∀ j < 8, s.mem.read (((s.linear .ds 0xFFF8#64).toNat + j) % 2 ^ 32) ≠ none :=
  ⟨⟨{ inMode32 State.reset with segs := Vector.replicate 6 ⟨0#64, 0#32, true⟩ }, rfl, by decide⟩, by decide +kernel,
    ⟨inMode32 (putMem 0xFFF8 [1, 2, 3, 4, 5, 6, 7] State.reset), rfl, by decide +kernel, by decide +kernel,
      by decide +kernel, by decide +kernel⟩,
    ⟨inMode32 (putMem 0xFFF8 [1, 2, 3, 4, 5, 6, 7, 8] State.reset), rfl, by decide +kernel, by decide +kernel,
      by decide +kernel⟩⟩

/-- Both modes, and 67 in 64-bit mode; an EVEX encoding without the broadcast bit. -/
theorem witness_EffectiveAddressIsASum :
    (∃ (s : State) (p : AddressEnc), s.mode = .mode64 ∧ LegacyByte.addressSize ∉ p.pre) ∧
      (∃ (s : State) (p : AddressEnc), s.mode = .mode64 ∧ LegacyByte.addressSize ∈ p.pre) ∧
      (∃ s : State, s.mode = .mode32) ∧ ∃ e : EvexEnc, e.bcst = false :=
  ⟨⟨State.reset, ⟨[], false, false, 1⟩, rfl, by decide⟩, ⟨State.reset, ⟨[.addressSize], false, false, 1⟩, rfl, by decide⟩,
    ⟨inMode32 State.reset, rfl⟩, ⟨plainEvex, rfl⟩⟩

/-- Each kind of segment in each mode. -/
theorem witness_LinearAddressAddsSegmentBase :
    State.reset.mode = .mode64 ∧ (inMode32 State.reset).mode = .mode32 ∧ Seg.ds ≠ .fs ∧ Seg.ds ≠ .gs := by
  decide

/-- An override after 67, and no override. -/
theorem witness_SegmentOfAnOperand :
    (∃ (p : AddressEnc) (pre' post : List LegacyByte) (g : Seg), p.pre = pre' ++ LegacyByte.seg g :: post ∧
      ∀ g', LegacyByte.seg g' ∉ pre') ∧ ∃ p : AddressEnc, ∀ g, LegacyByte.seg g ∉ p.pre :=
  ⟨⟨⟨[.addressSize, .seg .fs], false, false, 1⟩, [.addressSize], [], .fs, rfl, by simp⟩, ⟨⟨[], false, false, 1⟩, by simp⟩⟩

/-- A well-formed instruction in each mode, of each encoding class. -/
theorem witness_DecodeEncodeRoundTrip :
    Instr.ok .mode64 anMmxLoad = true ∧ Instr.ok .mode32 anMmxLoad = true ∧
      Instr.ok .mode64 (.vpcmpeqbXmm ⟨[], .two true 15#4⟩ 0#3 (.reg 1#3)) = true ∧
      Instr.ok .mode64 (.vpcmpeqdK512 broadcastEvex 0#3 (.mem (.base 0#3 .none))) = true := by
  decide

theorem witness_DecodedBytesAreTheEncoding :
    ∃ (m : Mode) (bs : List Byte) (i : Instr), decode m bs = .form i :=
  ⟨.mode64, bytes [0x0F, 0x74, 0xC1], anMmx, by decide⟩

/-- The shortest and the longest encodings of each class. -/
theorem witness_InstructionLengthBounds :
    (LegacyEnc.ok .mode64 false ⟨[], none⟩ (.reg 1#3) = true ∧ legacyLength ⟨[], none⟩ (.reg 1#3) = 3) ∧
      (LegacyEnc.ok .mode64 false ⟨[.seg .fs, .addressSize], some ⟨false, false, false, false⟩⟩
        (.mem (.sib 0#2 0#3 0#3 (.disp32 0#32))) = true ∧
        legacyLength ⟨[.seg .fs, .addressSize], some ⟨false, false, false, false⟩⟩
          (.mem (.sib 0#2 0#3 0#3 (.disp32 0#32))) = 11) ∧
      (LegacyEnc.ok .mode64 true ⟨[.operandSize], none⟩ (.reg 1#3) = true ∧
        legacyLength ⟨[.operandSize], none⟩ (.reg 1#3) = 4) ∧
      (VexEnc.ok .mode64 ⟨[.seg .fs, .addressSize], .three false false false false 0#4⟩
        (.mem (.sib 0#2 0#3 0#3 (.disp32 0#32))) = true ∧
        vexLength ⟨[.seg .fs, .addressSize], .three false false false false 0#4⟩
          (.mem (.sib 0#2 0#3 0#3 (.disp32 0#32))) = 12) ∧
      (EvexEnc.ok .mode64 true { plainEvex with pre := [.seg .fs, .addressSize] }
        (.mem (.sib 0#2 0#3 0#3 (.disp32 0#32))) = true ∧
        evexLength { plainEvex with pre := [.seg .fs, .addressSize] } (.mem (.sib 0#2 0#3 0#3 (.disp32 0#32))) = 13) := by
  decide

/-- The three prefixes after a segment override, and REX before a VEX form. -/
theorem witness_ForbiddenPrefixesAreInvalid :
    (∃ (i : Instr) (p q : List Byte), i.ok .mode64 = true ∧ encode i = p ++ q ∧ p.length ≤ i.pre.length ∧ p.length = 1 ∧
      0xF0#8 ∈ [0xF0#8, 0xF2#8, 0xF3#8]) ∧
      ∃ (i : Instr) (p q : List Byte), i.ok .mode64 = true ∧ encode i = p ++ q ∧ p.length ≤ i.pre.length ∧
        i.isMmx = false ∧ i.isXmm = false ∧ (0x4F#8).extractLsb' 4 4 = 4#4 :=
  ⟨⟨.pcmpeqbMm ⟨[.seg .fs], none⟩ 0#3 (.reg 1#3), bytes [0x64], bytes [0x0F, 0x74, 0xC1], by decide⟩,
    ⟨.vpcmpeqbXmm ⟨[], .two true 15#4⟩ 0#3 (.reg 1#3), [], _, by decide, rfl, by decide, by decide, by decide, by decide⟩⟩

/-- Bytes that meet the shared hypotheses, each reserved case at its boundary among them. -/
theorem witness_ReservedEvexEncodingsAreInvalid :
    (0xF5#8).extractLsb' 0 2 = 1#2 ∧ (0x6D#8).extractLsb' 0 2 = 1#2 ∧ takeRm 0xCB#8 [] = some (.reg 3#3, []) ∧
      takeRm 0x08#8 [] = some (.mem (.base 0#3 .none), []) ∧ (0xF5#8).extractLsb' 2 2 ≠ 0#2 ∧
      (0x69#8).getLsbD 2 = false ∧ (0xED#8).getLsbD 7 = true ∧ (0xCA#8).getLsbD 7 = true ∧
      (0x6A#8).extractLsb' 5 2 = 3#2 ∧ ((0x5A#8).getLsbD 4 = true ∧ (0xCB#8).extractLsb' 6 2 = 3#2) ∧
      (0x71#8).getLsbD 7 = false ∧ (0xE1#8).getLsbD 4 = false := by
  decide

theorem witness_EveryVexEncodingIsAForm :
    (0xF1#8).extractLsb' 0 2 = 1#2 ∧ (0xE1#8).extractLsb' 0 5 = 1#5 ∧ (0x71#8).extractLsb' 0 2 = 1#2 ∧
      takeRm 0xC2#8 [] = some (.reg 2#3, []) := by
  decide

/-- A byte that begins no payload; a C4 and a 62 encoding with each extension bit. -/
theorem witness_Mode32RefusesExtensionBits :
    (0x31#8).extractLsb' 6 2 ≠ 3#2 ∧
      ((0xC1#8).extractLsb' 6 2 = 3#2 ∧ (0xC1#8).extractLsb' 0 5 = 1#5 ∧ (0xC1#8).getLsbD 5 = false) ∧
      ((0x31#8).extractLsb' 0 2 = 1#2 ∧ (0x31#8).getLsbD 6 = false) ∧
      ((0xD1#8).extractLsb' 6 2 = 3#2 ∧ (0xD1#8).extractLsb' 0 2 = 1#2 ∧ (0xD1#8).getLsbD 5 = false) ∧
      ((0xE1#8).getLsbD 4 = false ∧ (0x00#8).getLsbD 3 = false) ∧ takeRm 0xC2#8 [] = some (.reg 2#3, []) := by
  decide

theorem witness_Mode32NamesEightRegisters :
    LegacyEnc.ok .mode32 true ⟨[.operandSize], none⟩ (.reg 7#3) = true ∧
      VexEnc.ok .mode32 ⟨[], .two false 7#4⟩ (.reg 7#3) = true ∧
      EvexEnc.ok .mode32 true { plainEvex with vvvv := 7#4 } (.reg 7#3) = true := by
  decide

end Sys2Proof.Tests
end

section
/-! Noninterference of the status words: no form reads EFLAGS, but for the launch check on TF and AC (R26, R54, R194), or
MXCSR (R27), and none writes them. The shared fact is `exec_mapStatus`: changing the two words before an instruction is
changing them in its outcome. -/

namespace Sys2Proof.Machine

/-! ### Outcomes under a change of the state they carry -/

/-- The fault with its state changed; the vector and the error code stay. -/
def Fault.mapState (g : State → State) : Fault → Fault
  | .invalidOpcode s => .invalidOpcode (g s)
  | .deviceNotAvailable s => .deviceNotAvailable (g s)
  | .stackSegment s => .stackSegment (g s)
  | .generalProtection s => .generalProtection (g s)
  | .pageFault code s => .pageFault code (g s)
  | .x87FloatingPoint s => .x87FloatingPoint (g s)

@[simp] theorem Fault.vector_mapState (g : State → State) (fl : Fault) : (fl.mapState g).vector = fl.vector := by
  cases fl <;> rfl

@[simp] theorem Fault.errorCode_mapState (g : State → State) (fl : Fault) :
    (fl.mapState g).errorCode = fl.errorCode := by
  cases fl <;> rfl

/-- The outcome with the state it carries changed: the next state, or the state a fault leaves. -/
def mapOutcome (g : State → State) : Host.Outcome State Fault Refusal → Host.Outcome State Fault Refusal
  | .next t => .next (g t)
  | .fault fl => .fault (fl.mapState g)
  | .refused r => .refused r

@[simp] theorem mapOutcome_next (g : State → State) (t : State) : mapOutcome g (.next t) = .next (g t) := rfl

@[simp] theorem mapOutcome_fault (g : State → State) (fl : Fault) :
    mapOutcome g (.fault fl) = .fault (fl.mapState g) := rfl

@[simp] theorem mapOutcome_refused (g : State → State) (r : Refusal) : mapOutcome g (.refused r) = .refused r := rfl

/-- A change that keeps CPL and commutes with recording an address in CR2 commutes with taking an exception (R171). -/
theorem raise_map {g : State → State} {s : State} (hcpl : (g s).cpl = s.cpl)
    (hcr2 : ∀ addr, { g s with cr2 := addr } = g { s with cr2 := addr }) (e : Exception) :
    raise e (g s) = mapOutcome g (raise e s) := by
  cases e with
  | pageFault p r k addr =>
    simp only [raise, mapOutcome_fault, Fault.mapState, hcr2]
    rw [hcpl]
  | invalidOpcode | deviceNotAvailable | stackSegment | generalProtection | x87FloatingPoint => rfl

theorem Stop.outcome_map {g : State → State} {s : State} (hraise : ∀ e, raise e (g s) = mapOutcome g (raise e s))
    (stop : Stop) : stop.outcome (g s) = mapOutcome g (stop.outcome s) := by
  cases stop with
  | exception e => exact hraise e
  | refusal r => rfl

/-- The frame of a form commutes with a change that its checks and its second source do not see and that its write keeps. -/
theorem State.execute_map {g : State → State} {s : State} {L len : Nat} {ud mf : Bool} {src : Except Stop (BitVec L)}
    {write write' : BitVec L → State} (hraise : ∀ e, raise e (g s) = mapOutcome g (raise e s))
    (hstop : (g s).formStop len ud mf = s.formStop len ud mf)
    (hwrite : ∀ val, (write' val).advance len = g ((write val).advance len)) :
    (g s).execute len ud mf src write' = mapOutcome g (s.execute len ud mf src write) := by
  simp only [State.execute, hstop]
  cases s.formStop len ud mf with
  | some stop => exact Stop.outcome_map hraise stop
  | none =>
    cases src with
    | error stop => exact Stop.outcome_map hraise stop
    | ok val => exact congrArg _ (hwrite val)

/-! ### The status words -/

/-- The state with EFLAGS and MXCSR changed. -/
def State.mapStatus (F M : BitVec 32 → BitVec 32) (s : State) : State :=
  { s with eflags := F s.eflags, mxcsr := M s.mxcsr }

section
variable (F M : BitVec 32 → BitVec 32) (s : State)

theorem raise_mapStatus (e : Exception) :
    raise e (s.mapStatus F M) = mapOutcome (State.mapStatus F M) (raise e s) :=
  raise_map rfl (fun _ => rfl) e

/-- Of EFLAGS, the checks before an operand read TF and AC alone (R54, R194); of MXCSR, nothing. -/
theorem State.formStop_mapStatus (htf : (s.mapStatus F M).tf = s.tf) (hac : (s.mapStatus F M).ac = s.ac) (len : Nat)
    (ud mf : Bool) : (s.mapStatus F M).formStop len ud mf = s.formStop len ud mf := by
  have hlaunch : (s.mapStatus F M).launchRefusal = s.launchRefusal := by
    simp only [State.launchRefusal, htf, hac]
    rfl
  simp only [State.formStop, State.stepRefusal, hlaunch]
  rfl

/-! No second source reads a status word: addresses, `Translate` and the register files do not hold one. -/

@[simp] theorem State.mmxSource_mapStatus (e : LegacyEnc) (rm : RmField) :
    (s.mapStatus F M).mmxSource e rm = s.mmxSource e rm := by
  cases rm <;> rfl

@[simp] theorem State.xmmSource_mapStatus (e : LegacyEnc) (rm : RmField) :
    (s.mapStatus F M).xmmSource e rm = s.xmmSource e rm := by
  cases rm <;> rfl

@[simp] theorem State.vexSource_mapStatus (vl : Nat) (e : VexEnc) (rm : RmField) :
    (s.mapStatus F M).vexSource vl e rm = s.vexSource vl e rm := by
  cases rm <;> rfl

@[simp] theorem State.evexSource_mapStatus (vl : Nat) (e : EvexEnc) (rm : RmField) :
    (s.mapStatus F M).evexSource vl e rm = s.evexSource vl e rm := by
  cases rm <;> rfl

variable {F M s}
variable (htf : (s.mapStatus F M).tf = s.tf) (hac : (s.mapStatus F M).ac = s.ac)
include htf hac

theorem State.compareMmx_mapStatus (w : Nat) (e : LegacyEnc) (reg : BitVec 3) (rm : RmField) :
    (s.mapStatus F M).compareMmx w e reg rm = mapOutcome (State.mapStatus F M) (s.compareMmx w e reg rm) := by
  rw [State.compareMmx, State.mmxSource_mapStatus]
  exact State.execute_map (raise_mapStatus F M s) (s.formStop_mapStatus F M htf hac _ _ _) fun _ => rfl

theorem State.compareXmm_mapStatus (w : Nat) (e : LegacyEnc) (reg : BitVec 3) (rm : RmField) :
    (s.mapStatus F M).compareXmm w e reg rm = mapOutcome (State.mapStatus F M) (s.compareXmm w e reg rm) := by
  rw [State.compareXmm, State.xmmSource_mapStatus]
  exact State.execute_map (raise_mapStatus F M s) (s.formStop_mapStatus F M htf hac _ _ _) fun _ => rfl

theorem State.compareVex_mapStatus (w vl : Nat) (e : VexEnc) (reg : BitVec 3) (rm : RmField) :
    (s.mapStatus F M).compareVex w vl e reg rm = mapOutcome (State.mapStatus F M) (s.compareVex w vl e reg rm) := by
  rw [State.compareVex, State.vexSource_mapStatus]
  exact State.execute_map (raise_mapStatus F M s) (s.formStop_mapStatus F M htf hac _ _ _) fun _ => rfl

theorem State.compareEvex_mapStatus (w vl : Nat) (e : EvexEnc) (reg : BitVec 3) (rm : RmField) :
    (s.mapStatus F M).compareEvex w vl e reg rm = mapOutcome (State.mapStatus F M) (s.compareEvex w vl e reg rm) := by
  rw [State.compareEvex, State.evexSource_mapStatus]
  exact State.execute_map (raise_mapStatus F M s) (s.formStop_mapStatus F M htf hac _ _ _) fun _ => rfl

/-- Changing the status words, TF and AC kept, before an instruction is changing them in its outcome (R26, R27). -/
theorem exec_mapStatus (i : Instr) :
    exec i (s.mapStatus F M) = mapOutcome (State.mapStatus F M) (exec i s) := by
  cases i
  case pcmpeqbMm e reg rm | pcmpeqwMm e reg rm | pcmpeqdMm e reg rm =>
    exact State.compareMmx_mapStatus htf hac _ e reg rm
  case pcmpeqbXmm e reg rm | pcmpeqwXmm e reg rm | pcmpeqdXmm e reg rm =>
    exact State.compareXmm_mapStatus htf hac _ e reg rm
  case vpcmpeqbXmm e reg rm | vpcmpeqwXmm e reg rm | vpcmpeqdXmm e reg rm | vpcmpeqbYmm e reg rm |
      vpcmpeqwYmm e reg rm | vpcmpeqdYmm e reg rm =>
    exact State.compareVex_mapStatus htf hac _ _ e reg rm
  case vpcmpeqdK128 e reg rm | vpcmpeqdK256 e reg rm | vpcmpeqdK512 e reg rm | vpcmpeqbK128 e reg rm |
      vpcmpeqbK256 e reg rm | vpcmpeqbK512 e reg rm | vpcmpeqwK128 e reg rm | vpcmpeqwK256 e reg rm |
      vpcmpeqwK512 e reg rm =>
    exact State.compareEvex_mapStatus htf hac _ _ e reg rm

end

/-! ### The flags -/

/-- A completed instruction has written the files of its destination and `pc`, and nothing else. -/
theorem exec_next_frame {i : Instr} {s t : State} (h : exec i s = .next t) :
    t = { s with x87 := t.x87, x87sw := t.x87sw, x87tw := t.x87tw, v := t.v, k := t.k, pc := t.pc } := by
  obtain ⟨-, -, -, -, u, hwrite, rfl⟩ := exec_next h
  rw [hwrite.frame]
  rfl

/-- An instruction under other flags, TF and AC kept, has the same outcome with those flags in the state it carries. -/
theorem exec_withEflags (i : Instr) {s : State} {f : BitVec 32} (htf : f.getLsbD 8 = s.eflags.getLsbD 8)
    (hac : f.getLsbD 18 = s.eflags.getLsbD 18) :
    exec i { s with eflags := f } = mapOutcome (fun t => { t with eflags := f }) (exec i s) :=
  exec_mapStatus (F := fun _ => f) (M := id) htf hac i

/-- Settles O29: `exec_next_frame` for what is written, `exec_withEflags` for what is read. -/
theorem flagsAreNeitherReadNorWritten : Obligations.FlagsAreNeitherReadNorWritten := by
  refine ⟨fun i s t h => ⟨?_, exec_next_frame h⟩, fun i s f htf hac => ?_⟩
  · rw [exec_next_frame h]
  · rw [exec_withEflags i htf hac]
    refine ⟨fun t h => ?next, fun fl h => ?fault, fun r h => ?refused⟩
    case next => rw [h, mapOutcome_next]
    case fault =>
      rw [h, mapOutcome_fault]
      exact ⟨_, rfl, fl.vector_mapState _, fl.errorCode_mapState _⟩
    case refused => rw [h, mapOutcome_refused]

end Sys2Proof.Machine
end

section
/-! Runs of the machine. No form stores (R51), so memory and the program text are the same after a step, and by the one
induction over the number of steps, `run_keeps`, after a run. -/

namespace Sys2Proof.Machine

/-- A longer run that completes is one completed step and then a run from the state it leaves; for every machine. -/
theorem run_succ_next {M : Host.Core} {n : Nat} {s t : M.State} (h : M.run (n + 1) s = .next t) :
    ∃ u, M.step s = .next u ∧ M.run n u = .next t := by
  rw [Host.Core.run] at h
  split at h
  next u hstep => exact ⟨u, hstep, h⟩
  next => cases h
  next => cases h

/-- What every step of a machine keeps, every run of it keeps. -/
theorem run_keeps {M : Host.Core} {P : M.State → Prop} (hstep : ∀ {s t}, M.step s = .next t → P s → P t) {n : Nat}
    {s t : M.State} (hrun : M.run n s = .next t) (hs : P s) : P t := by
  induction n generalizing s with
  | zero =>
    cases hrun
    exact hs
  | succ n ih =>
    obtain ⟨u, hsu, hut⟩ := run_succ_next hrun
    exact ih hut (hstep hsu hs)

/-- A step leaves data memory and the program text as they were: the frame of an instruction holds neither (R51). -/
theorem step_keeps_memories {s t : State} (h : step s = .next t) : t.mem = s.mem ∧ t.text = s.text := by
  obtain ⟨i, -, hexec⟩ := step_next h
  rw [exec_next_frame hexec]
  exact ⟨rfl, rfl⟩

/-- A run leaves data memory and the program text as they were. -/
theorem run_keeps_memories {n : Nat} {s t : State} (hrun : core.run n s = .next t) :
    t.mem = s.mem ∧ t.text = s.text := by
  refine run_keeps (M := core) (P := fun u : State => u.mem = s.mem ∧ u.text = s.text)
    (fun hstep ⟨hmem, htext⟩ => ?_) hrun ⟨rfl, rfl⟩
  obtain ⟨hmem', htext'⟩ := step_keeps_memories hstep
  exact ⟨hmem'.trans hmem, htext'.trans htext⟩

/-- Settles O10: equal memories hold the same bytes (`run_keeps_memories`). -/
theorem runLeavesMemoryUnchanged : Obligations.RunLeavesMemoryUnchanged := by
  intro n s t hrun
  obtain ⟨hmem, htext⟩ := run_keeps_memories hrun
  exact ⟨fun a => by rw [hmem], fun a => by rw [htext]⟩

end Sys2Proof.Machine
end

section
/-! The prefixes no form of the family admits (R79, R81, R89 cases 1 to 3). The decoder judges the bytes before an
opcode only after it has read a whole encoding, so a forbidden one faults wherever it stands among them: a byte put among the
prefixes of an encoding changes what `splitLead` gathers and not the bytes after them (`splitLead_inserted`), and from
there each class answers #UD. -/

namespace Sys2Proof

/-! ### Forbidden bytes as lead bytes -/

/-- A byte with the high nibble of REX is the REX byte of its four low bits (R76). -/
theorem Rex.encode_eta {b : Byte} (h : b.extractLsb' 4 4 = 4#4) :
    Rex.encode ⟨b.getLsbD 3, b.getLsbD 2, b.getLsbD 1, b.getLsbD 0⟩ = b := by
  revert b
  decide

/-- LOCK, F2 and F3 are read as lead bytes that fault before a legacy form, in every mode. -/
theorem leadByteOf_faultsLegacy (m : Mode) {b : Byte} (hb : b ∈ [0xF0#8, 0xF2#8, 0xF3#8]) :
    ∃ f, leadByteOf m b = some f ∧ f.faultsLegacy = true := by
  simp only [List.mem_cons, List.not_mem_nil, or_false] at hb
  obtain rfl | rfl | rfl := hb
  · exact ⟨.lock, rfl, rfl⟩
  · exact ⟨.repne, rfl, rfl⟩
  · exact ⟨.rep, rfl, rfl⟩

theorem LeadByte.faultsVex_of_faultsLegacy {f : LeadByte} (h : f.faultsLegacy = true) : f.faultsVex = true := by
  cases f with
  | lock | repne | rep => rfl
  | plain | rex => cases h

/-- The bytes R79 and R81 forbid are read as lead bytes that fault before a VEX or EVEX payload. -/
theorem leadByteOf_faultsVex {m : Mode} {b : Byte}
    (hb : b ∈ [0xF0#8, 0xF2#8, 0xF3#8] ∨ b = 0x66#8 ∨ (m = .mode64 ∧ b.extractLsb' 4 4 = 4#4)) :
    ∃ f, leadByteOf m b = some f ∧ f.faultsVex = true := by
  obtain hrep | rfl | ⟨rfl, hrex⟩ := hb
  · obtain ⟨f, hf, hfault⟩ := leadByteOf_faultsLegacy m hrep
    exact ⟨f, hf, LeadByte.faultsVex_of_faultsLegacy hfault⟩
  · exact ⟨_, leadByteOf_encode m .operandSize, rfl⟩
  · exact ⟨_, Rex.encode_eta hrex ▸ leadByteOf_rex _, rfl⟩

/-! ### A byte put among the prefixes -/

/-- A cut of an encoding within its prefixes cuts the list of prefixes. -/
theorem exists_pre_append {pre : List LegacyByte} {body p q : List Byte}
    (h : pre.map LegacyByte.encode ++ body = p ++ q) (hp : p.length ≤ pre.length) :
    ∃ pre₁ pre₂ : List LegacyByte, p = pre₁.map LegacyByte.encode ∧ q = pre₂.map LegacyByte.encode ++ body := by
  have hp' : p.length ≤ (pre.map LegacyByte.encode).length := by rwa [List.length_map]
  refine ⟨pre.take p.length, pre.drop p.length, ?_, ?_⟩
  · rw [List.map_take, ← List.take_append_of_le_length hp', h, List.take_left]
  · rw [List.map_drop, ← List.drop_append_of_le_length hp', h, List.drop_left]

/-- A faulting byte put among the prefixes of an encoding is gathered with them, and the bytes after them stay. -/
theorem splitLead_inserted {m : Mode} {b : Byte} {faults : LeadByte → Bool} {pre : List LegacyByte}
    {body p q : List Byte} (hb : ∃ f, leadByteOf m b = some f ∧ faults f = true)
    (h : pre.map LegacyByte.encode ++ body = p ++ q) (hp : p.length ≤ pre.length) (rest : List Byte) :
    ∃ lead, lead.any faults = true ∧ splitLead m (p ++ b :: (q ++ rest)) = (lead, (splitLead m (body ++ rest)).2) := by
  obtain ⟨f, hf, hfault⟩ := hb
  obtain ⟨pre₁, pre₂, rfl, rfl⟩ := exists_pre_append h hp
  refine ⟨pre₁.map .plain ++ f :: (pre₂.map .plain ++ (splitLead m (body ++ rest)).1), by simp [hfault], ?_⟩
  rw [List.append_assoc, splitLead_pre, splitLead_of_some hf, splitLead_pre]

theorem Mode.is64_iff {m : Mode} : m.is64 = true ↔ m = .mode64 := by
  cases m <;> decide

/-- An optional REX is gathered too: what follows the lead bytes begins at the escape byte. -/
theorem splitLead_rex_escape {m : Mode} {rex : Option Rex} (hrex : m.is64 = true ∨ rex = none) (bs : List Byte) :
    (splitLead m (rex.toList.map Rex.encode ++ 0x0F#8 :: bs)).2 = 0x0F#8 :: bs := by
  obtain ⟨h0F, -⟩ := leadByteOf_opening m
  cases rex with
  | none => exact congrArg Prod.snd (splitLead_of_none h0F bs)
  | some r =>
    obtain rfl : m = .mode64 := by simpa [Mode.is64_iff] using hrex
    simp [splitLead_of_some (leadByteOf_rex r), splitLead_of_none h0F]

/-- C5 and C4 are no lead bytes: the split stops at a VEX payload. -/
theorem splitLead_vexPayload (m : Mode) (vex : VexPayload) (l : Bool) (bs : List Byte) :
    splitLead m (vex.encode l ++ bs) = ([], vex.encode l ++ bs) := by
  obtain ⟨-, hC5, hC4, -⟩ := leadByteOf_opening m
  cases vex with
  | two => exact splitLead_of_none hC5 _
  | three => exact splitLead_of_none hC4 _

/-- 62 is no lead byte: the split stops at an EVEX payload. -/
theorem splitLead_evexPayload (m : Mode) (e : EvexEnc) (ll : BitVec 2) (bs : List Byte) :
    splitLead m (e.payload ll ++ bs) = ([], e.payload ll ++ bs) := by
  obtain ⟨-, -, -, h62⟩ := leadByteOf_opening m
  exact splitLead_of_none h62 _

/-! ### What the decoder reads after the lead bytes -/

@[simp] theorem elemOf_opcode (el : Elem) : elemOf el.opcode = some el := by
  cases el <;> rfl

/-- Outside 64-bit mode the byte after C4, C5 or 62 begins a payload if clear extension bits (`ext`) make its bits 7:6
11b, for they are stored inverted (R91). -/
theorem beginsPayload_of_ext {m : Mode} {ext : Bool} {p : Byte} (hok : (m.is64 || ext) = true)
    (hp : ext = true → bitsAt 6 2 p = 3#2) : beginsPayload m p = true := by
  rw [beginsPayload, Bool.or_eq_true, beq_iff_eq]
  exact ((Bool.or_eq_true _ _).mp hok).imp_right hp

theorem beginsPayload_vexTwo {m : Mode} {r : Bool} {vvvv : BitVec 4} (hok : (VexPayload.two r vvvv).ok m = true)
    (l : Bool) : beginsPayload m (inv1 r ++ ~~~vvvv ++ bit1 l ++ 1#2) = true := by
  refine beginsPayload_of_ext hok ?_
  clear hok
  revert r vvvv l
  decide

theorem beginsPayload_vexThree {m : Mode} {r x b w : Bool} {vvvv : BitVec 4}
    (hok : (VexPayload.three r x b w vvvv).ok m = true) :
    beginsPayload m (inv1 r ++ inv1 x ++ inv1 b ++ 1#5) = true := by
  refine beginsPayload_of_ext hok fun hext => ?_
  obtain ⟨rfl, rfl⟩ : r = false ∧ x = false := by simp_all
  cases b <;> decide

theorem beginsPayload_evex {m : Mode} {e : EvexEnc} (hok : e.extOk m = true) :
    beginsPayload m (bit1 true ++ inv1 e.x ++ inv1 e.b ++ bit1 true ++ 0#2 ++ 1#2) = true := by
  refine beginsPayload_of_ext hok fun hext => ?_
  have hx : e.x = false := by simp_all
  rw [hx]
  cases e.b <;> decide

/-- A VEX payload that the mode has is read back, whatever the bytes before it (R78, R91). -/
theorem decode_of_vexPayload {m : Mode} {bs body : List Byte} {lead : List LeadByte} {vex : VexPayload} {l : Bool}
    (hsplit : splitLead m bs = (lead, vex.encode l ++ body)) (hok : vex.ok m = true) :
    decode m bs = decodeVexBody m lead vex l true body := by
  cases vex with
  | two r vvvv =>
    obtain ⟨hvex, hl, hpp⟩ := vexTwo_encode r l vvvv
    calc decode m bs = decodeVex2 m lead ((inv1 r ++ ~~~vvvv ++ bit1 l ++ 1#2) :: body) := by
          simp [decode, hsplit, VexPayload.encode]
      _ = decodeVexBody m lead (.two r vvvv) l true body := by
          rw [decodeVex2, beginsPayload_vexTwo hok, hvex, hl, hpp]
          rfl
  | three r x b w vvvv =>
    obtain ⟨hvex, hl, hpp, hmap⟩ := vexThree_encode r x b w l vvvv
    calc decode m bs = decodeVex3 m lead
            ((inv1 r ++ inv1 x ++ inv1 b ++ 1#5) :: (bit1 w ++ ~~~vvvv ++ bit1 l ++ 1#2) :: body) := by
          simp [decode, hsplit, VexPayload.encode]
      _ = decodeVexBody m lead (.three r x b w vvvv) l true body := by
          rw [decodeVex3, beginsPayload_vexThree hok, hvex, hl, hpp, hmap]
          rfl

/-- An EVEX payload that the mode has is read as one of the family, no extension bit against the mode, whatever the
bytes before it (R80, R88, R91). -/
theorem decode_of_evexPayload {m : Mode} {bs body : List Byte} {lead : List LeadByte} {e : EvexEnc} {ll : BitVec 2}
    (hsplit : splitLead m bs = (lead, e.payload ll ++ body)) (hok : e.extOk m = true) :
    ∃ p0 p1 p2, decode m bs = decodeEvexBody m lead p0 p1 p2 body ∧ bitsAt 0 2 p0 = 1#2 ∧ bitsAt 0 2 p1 = 1#2 ∧
      evexRegExtended p0 = false ∧ (evexEncOf [] p0 p1 p2).extOk m = true := by
  obtain ⟨hx, hb, hmap, -, hreg⟩ := evexP0_encode e.x e.b
  obtain ⟨-, hvvvv, -, hpp⟩ := evexP1_encode e.w e.vvvv
  obtain ⟨hv', -⟩ := evexP2_encode ll e.bcst e.v' e.aaa
  refine ⟨_, _, bit1 false ++ ll ++ bit1 e.bcst ++ inv1 e.v' ++ e.aaa, ?decoded, hmap, hpp, hreg, ?ext⟩
  case decoded => simp [decode, hsplit, EvexEnc.payload, decodeEvex, beginsPayload_evex hok]
  case ext =>
    rw [EvexEnc.extOk, evexEncOf, hx, hb, hv', hvvvv]
    simpa only [EvexEnc.extOk, Bool.not_not] using hok

/-! ### Each class faults -/

/-- A whole legacy encoding after a lead byte that R89 forbids before it raises #UD. -/
theorem decode_legacy_invalid {m : Mode} {bs rest : List Byte} {lead : List LeadByte} {el : Elem} {reg : BitVec 3}
    {rm : RmField} (hsplit : splitLead m bs = (lead, 0x0F#8 :: el.opcode :: (rmBytes reg rm ++ rest)))
    (hrm : rm.ok = true) (hfault : lead.any LeadByte.faultsLegacy = true) : decode m bs = .invalidOpcode := by
  obtain ⟨modrm, tl, hbytes, -, htake⟩ := takeRm_rmBytes reg rm hrm rest
  simp only [decode, hsplit, decodeLegacy, elemOf_opcode, hbytes, htake, hfault, if_true]

/-- A whole VEX encoding after a lead byte that R79 forbids raises #UD. -/
theorem decode_vex_invalid {m : Mode} {bs rest : List Byte} {lead : List LeadByte} {vex : VexPayload} {l : Bool}
    {el : Elem} {reg : BitVec 3} {rm : RmField}
    (hsplit : splitLead m bs = (lead, vex.encode l ++ el.opcode :: (rmBytes reg rm ++ rest))) (hok : vex.ok m = true)
    (hrm : rm.ok = true) (hfault : lead.any LeadByte.faultsVex = true) : decode m bs = .invalidOpcode := by
  obtain ⟨modrm, tl, hbytes, -, htake⟩ := takeRm_rmBytes reg rm hrm rest
  rw [decode_of_vexPayload hsplit hok]
  simp [decodeVexBody, hbytes, htake, hok, hfault]

/-- A whole EVEX encoding after a lead byte that R81 forbids raises #UD, whatever else it has reserved. -/
theorem decode_evex_invalid {m : Mode} {bs rest : List Byte} {lead : List LeadByte} {e : EvexEnc} {ll : BitVec 2}
    {el : Elem} {reg : BitVec 3} {rm : RmField}
    (hsplit : splitLead m bs = (lead, e.payload ll ++ el.opcode :: (rmBytes reg rm ++ rest))) (hok : e.extOk m = true)
    (hrm : rm.ok = true) (hfault : lead.any LeadByte.faultsVex = true) : decode m bs = .invalidOpcode := by
  obtain ⟨modrm, tl, hbytes, -, htake⟩ := takeRm_rmBytes reg rm hrm rest
  obtain ⟨p0, p1, p2, hdecode, hmap, hpp, hreg, hext⟩ := decode_of_evexPayload hsplit hok
  simp [hdecode, decodeEvexBody, hmap, hpp, hreg, hext, hbytes, htake, hfault]

/-! ### The statement, class by class -/

theorem rmOk_of_commonOk {m : Mode} {pre : List LegacyByte} {rm : RmField} (h : commonOk m pre rm = true) :
    rm.ok = true := by
  simp only [commonOk, Bool.and_eq_true] at h
  obtain ⟨⟨-, hrm⟩, -⟩ := h
  exact hrm

section
variable {m : Mode} {reg : BitVec 3} {rm : RmField} {el : Elem} {b : Byte} {p q : List Byte} (rest : List Byte)

/-- LOCK, F2 or F3 among the prefixes of a legacy form (R89 cases 1 and 2). -/
theorem encodeLegacy_forbidden {xmm : Bool} {e : LegacyEnc} (hok : e.ok m xmm rm = true)
    (henc : encodeLegacy el e reg rm = p ++ q) (hp : p.length ≤ e.pre.length) (hb : b ∈ [0xF0#8, 0xF2#8, 0xF3#8]) :
    decode m (p ++ b :: (q ++ rest)) = .invalidOpcode := by
  simp only [LegacyEnc.ok, Bool.and_eq_true, Bool.or_eq_true, Option.isNone_iff_eq_none] at hok
  obtain ⟨⟨hcommon, -⟩, hrex⟩ := hok
  rw [encodeLegacy, List.append_assoc] at henc
  obtain ⟨lead, hfault, hsplit⟩ := splitLead_inserted (leadByteOf_faultsLegacy m hb) henc hp rest
  simp only [List.append_assoc, List.cons_append, List.nil_append, splitLead_rex_escape hrex] at hsplit
  exact decode_legacy_invalid hsplit (rmOk_of_commonOk hcommon) hfault

/-- A byte that R79 forbids among the prefixes of a VEX form. -/
theorem encodeVex_forbidden {l : Bool} {e : VexEnc} (hok : e.ok m rm = true)
    (henc : encodeVex el l e reg rm = p ++ q) (hp : p.length ≤ e.pre.length)
    (hb : b ∈ [0xF0#8, 0xF2#8, 0xF3#8] ∨ b = 0x66#8 ∨ (m = .mode64 ∧ b.extractLsb' 4 4 = 4#4)) :
    decode m (p ++ b :: (q ++ rest)) = .invalidOpcode := by
  simp only [VexEnc.ok, Bool.and_eq_true] at hok
  obtain ⟨⟨hcommon, -⟩, hvex⟩ := hok
  obtain ⟨lead, hfault, hsplit⟩ := splitLead_inserted (leadByteOf_faultsVex hb) henc hp rest
  rw [List.append_assoc, splitLead_vexPayload] at hsplit
  exact decode_vex_invalid hsplit hvex (rmOk_of_commonOk hcommon) hfault

/-- A byte that R81 forbids among the prefixes of an EVEX form. -/
theorem encodeEvex_forbidden {dword : Bool} {ll : BitVec 2} {e : EvexEnc} (hok : e.ok m dword rm = true)
    (henc : encodeEvex el ll e reg rm = p ++ q) (hp : p.length ≤ e.pre.length)
    (hb : b ∈ [0xF0#8, 0xF2#8, 0xF3#8] ∨ b = 0x66#8 ∨ (m = .mode64 ∧ b.extractLsb' 4 4 = 4#4)) :
    decode m (p ++ b :: (q ++ rest)) = .invalidOpcode := by
  simp only [EvexEnc.ok, Bool.and_eq_true] at hok
  obtain ⟨⟨⟨⟨hcommon, -⟩, hext⟩, -⟩, -⟩ := hok
  obtain ⟨lead, hfault, hsplit⟩ := splitLead_inserted (leadByteOf_faultsVex hb) henc hp rest
  rw [List.append_assoc, splitLead_evexPayload] at hsplit
  exact decode_evex_invalid hsplit hext (rmOk_of_commonOk hcommon) hfault

end

/-- Settles O54, class by class: a legacy form has the first alternative alone (66 and REX are its own), a VEX or EVEX
form has both. -/
theorem forbiddenPrefixesAreInvalid : Obligations.ForbiddenPrefixesAreInvalid := by
  intro m i b p q rest hok henc hp hb
  cases i
  case pcmpeqbMm | pcmpeqwMm | pcmpeqdMm =>
    exact encodeLegacy_forbidden rest hok henc hp (hb.resolve_right fun h => Bool.noConfusion h.1)
  case pcmpeqbXmm | pcmpeqwXmm | pcmpeqdXmm =>
    exact encodeLegacy_forbidden rest hok henc hp (hb.resolve_right fun h => Bool.noConfusion h.2.1)
  case vpcmpeqbXmm | vpcmpeqwXmm | vpcmpeqdXmm | vpcmpeqbYmm | vpcmpeqwYmm | vpcmpeqdYmm =>
    exact encodeVex_forbidden rest hok henc hp (hb.imp_right fun h => h.2.2)
  case vpcmpeqdK128 | vpcmpeqdK256 | vpcmpeqdK512 | vpcmpeqbK128 | vpcmpeqbK256 | vpcmpeqbK512 | vpcmpeqwK128 |
      vpcmpeqwK256 | vpcmpeqwK512 =>
    exact encodeEvex_forbidden rest hok henc hp (hb.imp_right fun h => h.2.2)

end Sys2Proof
end

section
/-! Lane-wise equality at any width and lane count (R110 to R116). A lane of `eqLanes` is described once
(`lane_eqLanes`), for every lane that lies wholly inside the value, zero width included; a value is its lanes
(`eq_iff_lanes`), and a wide lane is the narrow lanes inside it (`lane_lane`). -/

namespace Sys2Proof.Machine

variable {w L n : Nat}

/-! ### Lanes -/

/-- Equality of lanes is equality of all their bits (R113). -/
theorem lane_eq_iff_bits (a b : BitVec L) (j : Nat) :
    lane w a j = lane w b j ↔ ∀ k < w, a.getLsbD (w * j + k) = b.getLsbD (w * j + k) := by
  rw [BitVec.eq_of_getLsbD_eq_iff]
  exact forall₂_congr fun k hk => by simp only [getLsbD_lane, hk, decide_true, Bool.true_and]

/-- A value made of whole lanes is determined by them. -/
theorem eq_iff_lanes (a b : BitVec (w * n)) : a = b ↔ ∀ j < n, lane w a j = lane w b j := by
  refine ⟨fun h _ _ => h ▸ rfl, fun h => BitVec.eq_of_getLsbD_eq fun i hi => ?_⟩
  have hw : 0 < w := Nat.pos_of_mul_pos_right (Nat.zero_lt_of_lt hi)
  have hbits := (lane_eq_iff_bits a b (i / w)).mp (h _ (Nat.div_lt_of_lt_mul hi)) (i % w) (Nat.mod_lt i hw)
  rwa [Nat.div_add_mod] at hbits

/-- A narrow lane of a wide lane is a narrow lane of the value. -/
theorem lane_lane {v c i : Nat} (hi : i < c) (a : BitVec L) (j : Nat) :
    lane v (lane (v * c) a j) i = lane v a (c * j + i) := by
  refine BitVec.eq_of_getLsbD_eq fun k hk => ?_
  have hin : v * i + k < v * c := (Nat.mul_add_lt_mul_of_lt_of_lt hi hk).trans_eq (Nat.mul_comm c v)
  have hat : v * c * j + (v * i + k) = v * (c * j + i) + k := by ring
  simp only [getLsbD_lane, hk, hin, hat, decide_true, Bool.true_and]

/-- A wide lane is equal exactly when all the narrow lanes inside it are (R116). -/
theorem lane_eq_iff_narrow {v c : Nat} (a b : BitVec L) (j : Nat) :
    lane (v * c) a j = lane (v * c) b j ↔ ∀ i < c, lane v a (c * j + i) = lane v b (c * j + i) := by
  rw [eq_iff_lanes]
  exact forall₂_congr fun i hi => by rw [lane_lane hi, lane_lane hi]

theorem lane_allOnes {j : Nat} (hj : j < n) : lane w (BitVec.allOnes (w * n)) j = BitVec.allOnes w := by
  refine BitVec.eq_of_getLsbD_eq fun k hk => ?_
  have hin : w * j + k < w * n := (Nat.mul_add_lt_mul_of_lt_of_lt hj hk).trans_eq (Nat.mul_comm n w)
  simp [hk, hin]

/-! ### Lanes of the result -/

/-- A lane wholly inside the value is all ones where the operands agree and zero otherwise (R111). -/
theorem lane_eqLanes {j : Nat} (hj : w * (j + 1) ≤ L) (a b : BitVec L) :
    lane w (eqLanes w a b) j = if lane w a j = lane w b j then BitVec.allOnes w else 0#w := by
  rcases Nat.eq_zero_or_pos w with rfl | hw
  · exact Subsingleton.elim _ _
  · exact isEqLanes_eqLanes a b j ((Nat.le_div_iff_mul_le hw).mpr (by rwa [Nat.mul_comm]))

/-- Zero width is no exception: there both sides hold, all lanes being the empty one. -/
theorem lane_eqLanes_eq_allOnes_iff {j : Nat} (hj : w * (j + 1) ≤ L) (a b : BitVec L) :
    lane w (eqLanes w a b) j = BitVec.allOnes w ↔ lane w a j = lane w b j := by
  rw [lane_eqLanes hj]
  split
  case isTrue h => exact iff_of_true rfl h
  case isFalse h =>
    have hw : w ≠ 0 := by rintro rfl; exact h (Subsingleton.elim _ _)
    exact iff_of_false (fun h0 => hw (BitVec.zero_eq_allOnes_iff.mp h0)) h

theorem lane_eqLanes_ne_zero_iff {j : Nat} (hw : 0 < w) (hj : w * (j + 1) ≤ L) (a b : BitVec L) :
    lane w (eqLanes w a b) j ≠ 0#w ↔ lane w a j = lane w b j := by
  rw [lane_eqLanes hj]
  split
  case isTrue h => exact iff_of_true (fun h1 => hw.ne' (BitVec.zero_eq_allOnes_iff.mp h1.symm)) h
  case isFalse h => exact iff_of_false (fun h0 => h0 rfl) h

/-- A bit of the mask is 1 exactly where its lane is equal (R112). -/
theorem getLsbD_eqMask_iff {j : Nat} (hj : j < L / w) (a b : BitVec L) :
    (eqMask w a b).getLsbD j = true ↔ lane w a j = lane w b j := by
  rw [getLsbD_eqMask, decide_eq_true hj, Bool.true_and, laneEq_iff]

/-! ### Laws of the whole value (R116) -/

theorem eqLanes_comm (a b : BitVec L) : eqLanes w a b = eqLanes w b a :=
  BitVec.eq_of_getLsbD_eq fun i _ => by rw [getLsbD_eqLanes, getLsbD_eqLanes, laneEq_comm]

theorem eqMask_comm (a b : BitVec L) : eqMask w a b = eqMask w b a :=
  BitVec.eq_of_getLsbD_eq fun j _ => by rw [getLsbD_eqMask, getLsbD_eqMask, laneEq_comm]

theorem eqMask_self (a : BitVec L) : eqMask w a a = BitVec.allOnes (L / w) :=
  BitVec.eq_of_getLsbD_eq fun j hj => by simp [getLsbD_eqMask, hj]

/-- The result is all ones exactly for equal operands: lane by lane, `lane_eqLanes_eq_allOnes_iff`. -/
theorem eqLanes_eq_allOnes_iff (a b : BitVec (w * n)) : eqLanes w a b = BitVec.allOnes (w * n) ↔ a = b := by
  rw [eq_iff_lanes, eq_iff_lanes]
  exact forall₂_congr fun j hj => by
    rw [lane_allOnes hj, lane_eqLanes_eq_allOnes_iff (Nat.mul_le_mul_left w hj)]

/-- A wide lane of the wide result is all ones exactly when all narrow lanes of the narrow result inside it are. -/
theorem lane_eqLanes_eq_allOnes_iff_narrow {v c j : Nat} (hj : j < n) (a b : BitVec (v * c * n)) :
    lane (v * c) (eqLanes (v * c) a b) j = BitVec.allOnes (v * c) ↔
      ∀ i < c, lane v (eqLanes v a b) (c * j + i) = BitVec.allOnes v := by
  rw [lane_eqLanes_eq_allOnes_iff (Nat.mul_le_mul_left _ hj), lane_eq_iff_narrow]
  refine forall₂_congr fun i hi => (lane_eqLanes_eq_allOnes_iff ?_ a b).symm
  calc v * (c * j + i + 1) ≤ v * (c * (j + 1)) := Nat.mul_le_mul_left v (by rw [Nat.mul_succ]; omega)
    _ = v * c * (j + 1) := (Nat.mul_assoc ..).symm
    _ ≤ v * c * n := Nat.mul_le_mul_left _ hj

end Sys2Proof.Machine

namespace Sys2Proof

open Sys2Proof.Machine

/-- Settles O13: lane `j < n` lies wholly inside the value (`lane_eqLanes`). -/
theorem eqLanesMarksEqualLanes : Obligations.EqLanesMarksEqualLanes :=
  fun w _ a b _ hj => lane_eqLanes (Nat.mul_le_mul_left w hj) a b

/-- Settles O14: mask bit, lane all ones and lane nonzero each say that the lanes of the operands are equal. -/
theorem eqMaskMarksEqualLanes : Obligations.EqMaskMarksEqualLanes := by
  intro w n a b j hw hj
  have hin : w * (j + 1) ≤ w * n := Nat.mul_le_mul_left w hj
  have hmask : (eqMask w a b).getLsbD j = true ↔ lane w a j = lane w b j :=
    getLsbD_eqMask_iff (by rwa [Nat.mul_div_cancel_left n hw]) a b
  exact ⟨hmask, (lane_eqLanes_eq_allOnes_iff hin a b).trans hmask.symm,
    (lane_eqLanes_ne_zero_iff hw hin a b).trans hmask.symm⟩

/-- Settles O15, law by law. -/
theorem laneEqualityLaws : Obligations.LaneEqualityLaws := by
  refine ⟨?symmetry, ?reflexivity, ?nothingBetween, ?refinement, ?allOnes⟩
  case symmetry => exact fun w n a b => ⟨eqLanes_comm a b, eqMask_comm a b⟩
  case reflexivity => exact fun w n a _ => ⟨(eqLanes_eq_allOnes_iff a a).mpr rfl, eqMask_self a⟩
  case nothingBetween =>
    intro w n a b j hj
    rw [lane_eqLanes (Nat.mul_le_mul_left w hj)]
    exact ite_eq_or_eq ..
  case refinement =>
    exact fun v c n a b j _ _ hj => ⟨lane_eq_iff_narrow a b j, lane_eqLanes_eq_allOnes_iff_narrow hj a b⟩
  case allOnes => exact fun w n a b _ => eqLanes_eq_allOnes_iff a b

/-- Settles O17: the three readings are injective on lanes, and both results see the operands through their lanes
alone. -/
theorem laneEqualityIsOfBitPatterns : Obligations.LaneEqualityIsOfBitPatterns := by
  intro w n a b j hj
  have hin : w * (j + 1) ≤ w * n := Nat.mul_le_mul_left w hj
  have hones := lane_eqLanes_eq_allOnes_iff hin a b
  refine ⟨hones.trans (lane_eq_iff_bits a b j), hones.trans BitVec.toNat_inj.symm, hones.trans BitVec.toInt_inj.symm,
    fun a' b' ha hb => ⟨?_, ?_⟩⟩
  · rw [lane_eqLanes hin, lane_eqLanes hin, ha, hb]
  · simp only [getLsbD_eqMask, laneEq, ha, hb]

end Sys2Proof
end

section
/-! The EVEX forms under a writemask, with the writemask itself or k0 as the destination (R150, R160). What a form writes
is made of the state before it (`State.compareEvex_of_ready`), so the destination may be any opmask register, the one
the mask was read from included. -/

namespace Sys2Proof.Machine

variable {s : State} {w vl : Nat} {e : EvexEnc} {rm : RmField} {src : BitVec vl}

/-- A named writemask is the low bits of its opmask register (R86). -/
theorem State.writemask_of_ne (h : e.aaa ≠ 0#3) (kl : Nat) :
    s.writemask kl e = (s.opmask e.aaa).extractLsb' 0 kl := by
  rw [State.writemask, if_neg h]
  exact BitVec.eq_of_getLsbD_eq fun i hi => by simp [hi]

@[simp] theorem State.opmask_advance (len : Nat) (n : BitVec 3) : (s.advance len).opmask n = s.opmask n := rfl

/-- A ready EVEX form whose operand can be read completes: one opmask register is written, from the sources and the
writemask of the state before (R150 steps 3 and 4), and `pc` moves. -/
theorem State.compareEvex_of_ready (hvl : 32 ∣ vl) (reg : BitVec 3) (hadmits : s.Admits (evexLength e rm))
    (hready : s.EvexReady w vl e rm) (hsrc : s.EvexOperand vl e rm src) :
    s.compareEvex w vl e reg rm =
      .next ((s.setOpmask reg (eqMask w (s.vec vl e.src1) src &&& s.writemask (vl / w) e)).advance
        (evexLength e rm)) := by
  obtain ⟨n, hn⟩ := hvl
  obtain rfl : vl = 8 * (4 * n) := by omega
  obtain ⟨hud, hts⟩ := (s.evexReady_iff w _ e rm).mp hready
  exact s.execute_of_ready _ _ _ _ _ hadmits hud hts rfl (s.evexSource_of_operand hsrc)

/-- The opmask register a form under a writemask leaves in its destination, whichever register that is. -/
theorem State.compareEvex_masked (hvl : 32 ∣ vl) (reg : BitVec 3) (hadmits : s.Admits (evexLength e rm))
    (hready : s.EvexReady w vl e rm) (hsrc : s.EvexOperand vl e rm src) (hmask : e.aaa ≠ 0#3) :
    ∃ t, s.compareEvex w vl e reg rm = .next t ∧
      t.opmask reg =
        (eqMask w (s.vec vl e.src1) src &&& (s.opmask e.aaa).extractLsb' 0 (vl / w)).setWidth 64 := by
  refine ⟨_, State.compareEvex_of_ready hvl reg hadmits hready hsrc, ?_⟩
  rw [State.opmask_advance, State.opmask_setOpmask, State.writemask_of_ne hmask]

/-- The nine EVEX forms: element width, vector length and constructor. -/
def evexForms : List (Nat × Nat × (EvexEnc → BitVec 3 → RmField → Instr)) :=
  [(32, 128, .vpcmpeqdK128), (32, 256, .vpcmpeqdK256), (32, 512, .vpcmpeqdK512),
    (8, 128, .vpcmpeqbK128), (8, 256, .vpcmpeqbK256), (8, 512, .vpcmpeqbK512),
    (16, 128, .vpcmpeqwK128), (16, 256, .vpcmpeqwK256), (16, 512, .vpcmpeqwK512)]

/-- Each EVEX form is the shared comparison at its width and length, a length of whole doublewords. -/
theorem exec_of_mem_evexForms {mk : EvexEnc → BitVec 3 → RmField → Instr} (h : (w, vl, mk) ∈ evexForms) :
    32 ∣ vl ∧ ∀ e reg rm s, exec (mk e reg rm) s = s.compareEvex w vl e reg rm := by
  simp only [evexForms, List.mem_cons, List.not_mem_nil, or_false, Prod.mk.injEq] at h
  rcases h with ⟨rfl, rfl, rfl⟩ | ⟨rfl, rfl, rfl⟩ | ⟨rfl, rfl, rfl⟩ | ⟨rfl, rfl, rfl⟩ | ⟨rfl, rfl, rfl⟩ |
    ⟨rfl, rfl, rfl⟩ | ⟨rfl, rfl, rfl⟩ | ⟨rfl, rfl, rfl⟩ | ⟨rfl, rfl, rfl⟩ <;>
  exact ⟨by decide, fun _ _ _ _ => rfl⟩

/-- Settles O26: `State.compareEvex_masked` holds of every destination, so of the writemask and of k0. -/
theorem destinationMayBeTheWritemask : Obligations.DestinationMayBeTheWritemask := by
  intro w vl mk hmk s e rm src hadmits hready hsrc hmask
  obtain ⟨hvl, hexec⟩ := exec_of_mem_evexForms hmk
  simp only [hexec]
  exact ⟨State.compareEvex_masked hvl e.aaa hadmits hready hsrc hmask,
    State.compareEvex_masked hvl 0#3 hadmits hready hsrc hmask⟩

end Sys2Proof.Machine
end

section
/-! What stops an instruction (R171 to R185). One value says it, `State.instrStop`: the checks of R184 and then the read of
the operand. An instruction completes exactly when there is none (`exec_completes_iff`) and faults exactly by the exception
it names (`exec_eq_fault_iff`). The values compared are not in it, only whether there are bytes to compare. -/

namespace Sys2Proof.Machine

/-! ### The state a fault carries -/

/-- An exception taken leaves the state as it was; a page fault alone records an address, in CR2 (R171, R185). -/
theorem raise_state {e : Exception} {s : State} {f : Fault} (h : raise e s = .fault f) :
    f.state = { s with cr2 := f.state.cr2 } ∧ (f.vector ≠ 14 → f.state = s) := by
  cases e with
  | pageFault p r k addr =>
    cases h
    exact ⟨rfl, fun hvector => absurd rfl hvector⟩
  | invalidOpcode | deviceNotAvailable | stackSegment | generalProtection | x87FloatingPoint =>
    cases h
    exact ⟨rfl, fun _ => rfl⟩

/-- Settles O34: a step and an instruction fault by an exception taken in the state they start in (`raise_state`). -/
theorem faultsLeaveStateUnchanged : Obligations.FaultsLeaveStateUnchanged := by
  rintro s f (hstep | ⟨i, hexec⟩)
  · obtain ⟨e, hraise⟩ := step_fault hstep
    exact raise_state hraise
  · obtain ⟨e, hraise⟩ := exec_fault hexec
    exact raise_state hraise

theorem raise_eq_deviceNotAvailable_iff {e : Exception} {s s' : State} :
    raise e s = .fault (.deviceNotAvailable s') ↔ e = .deviceNotAvailable ∧ s = s' := by
  cases e <;> simp [raise]

theorem raise_eq_x87FloatingPoint_iff {e : Exception} {s s' : State} :
    raise e s = .fault (.x87FloatingPoint s') ↔ e = .x87FloatingPoint ∧ s = s' := by
  cases e <;> simp [raise]

/-! ### What stops the read of an operand -/

/-- The stop in the place of a value. -/
def stopOf {α : Type} : Except Stop α → Option Stop
  | .ok _ => none
  | .error stop => some stop

theorem stopOf_map {α β : Type} (f : α → β) (x : Except Stop α) : stopOf (x.map f) = stopOf x := by
  cases x <;> rfl

/-- The stop that an answer of `Translate` is to the reader (R58, R60). -/
def Answer.stop : Answer → Option Stop
  | .bytes _ => none
  | .generalProtection => some (.exception .generalProtection)
  | .stackSegment => some (.exception .stackSegment)
  | .pageFault p r k addr => some (.exception (.pageFault p r k addr))
  | .device => some (.refusal .deviceMemory)

/-- A read is stopped by the answer of `Translate` alone. -/
theorem State.stopOf_readMemory (s : State) (L : Nat) (g : Seg) (ea : Word64) :
    stopOf (s.readMemory L g ea) = (s.translate ⟨g, ea, L / 8, s.cpl, s.mode⟩).stop := by
  simp only [State.readMemory]
  cases s.translate ⟨g, ea, L / 8, s.cpl, s.mode⟩ <;> rfl

/-- What stops the read of an operand of `n` bytes: nothing in a register; in memory the alignment check, where there is
one, and then the answer of `Translate` (R54, R58). -/
def State.rmStop (s : State) (p : AddressEnc) (len n : Nat) (aligned : Bool) : RmField → Option Stop
  | .reg _ => none
  | .mem m =>
    if aligned && decide ((s.operandLinear p len m).toNat % 16 ≠ 0) then some (.exception .generalProtection)
    else (s.translate (s.operandQuery p len m n)).stop

section
variable (s : State)

theorem State.stopOf_mmxSource (e : LegacyEnc) (rm : RmField) :
    stopOf (s.mmxSource e rm) = s.rmStop e.address (legacyLength e rm) 8 false rm := by
  cases rm with
  | reg r => rfl
  | mem m => exact s.stopOf_readMemory 64 _ _

theorem State.stopOf_xmmSource (e : LegacyEnc) (rm : RmField) :
    stopOf (s.xmmSource e rm) = s.rmStop e.address (legacyLength e rm) 16 true rm := by
  cases rm with
  | reg r => rfl
  | mem m =>
    by_cases haligned : (s.operandLinear e.address (legacyLength e (.mem m)) m).toNat % 16 = 0
    · simp only [State.xmmSource, State.rmStop, haligned]
      exact s.stopOf_readMemory 128 _ _
    · simp [State.xmmSource, State.rmStop, haligned, stopOf]

theorem State.stopOf_vexSource (vl : Nat) (e : VexEnc) (rm : RmField) :
    stopOf (s.vexSource vl e rm) = s.rmStop e.address (vexLength e rm) (vl / 8) false rm := by
  cases rm with
  | reg r => rfl
  | mem m => exact s.stopOf_readMemory vl _ _

theorem State.stopOf_evexSource (vl : Nat) (e : EvexEnc) (rm : RmField) :
    stopOf (s.evexSource vl e rm) =
      s.rmStop (e.address vl) (evexLength e rm) (if e.bcst && rm.isMem then 4 else vl / 8) false rm := by
  cases rm with
  | reg r => rfl
  | mem m =>
    cases hbcst : e.bcst with
    | true =>
      simp only [State.evexSource, hbcst, if_true, stopOf_map]
      exact s.stopOf_readMemory 32 _ _
    | false =>
      simp only [State.evexSource, hbcst]
      exact s.stopOf_readMemory vl _ _

end

/-! ### What stops an instruction -/

/-- What stops the read of an instruction's operand; of the legacy XMM forms alone alignment is asked (R54). -/
def State.operandStop (s : State) (i : Instr) : Option Stop :=
  s.rmStop i.addressEnc i.length i.operandBytes i.isXmm i.rm

/-- What stops an instruction: a check that comes before the operand, else the read of the operand (R184). -/
def State.instrStop (s : State) (i : Instr) : Option Stop :=
  (s.formStop i.length (s.udInstr i) (i.isMmx && s.x87Pending)).or (s.operandStop i)

/-- Every instruction executes in the one frame, around a second source stopped as `State.operandStop` says. -/
theorem exec_source (i : Instr) (s : State) :
    ∃ (L : Nat) (src : Except Stop (BitVec L)) (write : BitVec L → State),
      exec i s = s.execute i.length (s.udInstr i) (i.isMmx && s.x87Pending) src write ∧
        stopOf src = s.operandStop i := by
  cases i
  case pcmpeqbMm e reg rm | pcmpeqwMm e reg rm | pcmpeqdMm e reg rm =>
    exact ⟨_, _, _, rfl, s.stopOf_mmxSource e rm⟩
  case pcmpeqbXmm e reg rm | pcmpeqwXmm e reg rm | pcmpeqdXmm e reg rm =>
    exact ⟨_, _, _, rfl, s.stopOf_xmmSource e rm⟩
  case vpcmpeqbXmm e reg rm | vpcmpeqwXmm e reg rm | vpcmpeqdXmm e reg rm | vpcmpeqbYmm e reg rm |
      vpcmpeqwYmm e reg rm | vpcmpeqdYmm e reg rm =>
    exact ⟨_, _, _, rfl, s.stopOf_vexSource _ e rm⟩
  case vpcmpeqdK128 e reg rm | vpcmpeqdK256 e reg rm | vpcmpeqdK512 e reg rm | vpcmpeqbK128 e reg rm |
      vpcmpeqbK256 e reg rm | vpcmpeqbK512 e reg rm | vpcmpeqwK128 e reg rm | vpcmpeqwK256 e reg rm |
      vpcmpeqwK512 e reg rm =>
    exact ⟨_, _, _, rfl, s.stopOf_evexSource _ e rm⟩

/-- An instruction is its stop's outcome where it has one, and completes where it has none. -/
theorem exec_of_instrStop (i : Instr) (s : State) :
    (∀ stop, s.instrStop i = some stop → exec i s = stop.outcome s) ∧
      (s.instrStop i = none → ∃ t, exec i s = .next t) := by
  obtain ⟨L, src, write, hexec, hsrc⟩ := exec_source i s
  simp only [hexec, State.instrStop, ← hsrc, State.execute]
  cases s.formStop i.length (s.udInstr i) (i.isMmx && s.x87Pending) with
  | some check => simp
  | none => cases src <;> simp [stopOf]

theorem exec_completes_iff {i : Instr} {s : State} : (∃ t, exec i s = .next t) ↔ s.instrStop i = none := by
  obtain ⟨hstopped, hcompletes⟩ := exec_of_instrStop i s
  refine ⟨fun ⟨t, ht⟩ => Option.eq_none_iff_forall_ne_some.mpr fun stop hstop => ?_, hcompletes⟩
  exact stop.outcome_ne_next s t ((hstopped stop hstop).symm.trans ht)

theorem exec_eq_fault_iff {i : Instr} {s : State} {f : Fault} :
    exec i s = .fault f ↔ ∃ e, s.instrStop i = some (.exception e) ∧ raise e s = .fault f := by
  obtain ⟨hstopped, hcompletes⟩ := exec_of_instrStop i s
  refine ⟨fun hfault => ?_, fun ⟨e, hstop, hraise⟩ => (hstopped _ hstop).trans hraise⟩
  cases hstop : s.instrStop i with
  | none =>
    obtain ⟨t, ht⟩ := hcompletes hstop
    cases hfault.symm.trans ht
  | some stop =>
    obtain ⟨e, rfl, hraise⟩ := stop.outcome_fault s ((hstopped stop hstop).symm.trans hfault)
    exact ⟨e, rfl, hraise⟩

/-! ### Which exceptions, and when -/

/-- The checks before an operand is read raise #UD, #NM and, where asked for, #MF (R184). -/
theorem State.formStop_exception {s : State} {len : Nat} {ud mf : Bool} {e : Exception}
    (h : s.formStop len ud mf = some (.exception e)) :
    e = .invalidOpcode ∨ e = .deviceNotAvailable ∨ (e = .x87FloatingPoint ∧ mf = true) := by
  simp only [State.formStop] at h
  split at h
  next => cases h
  next =>
    split_ifs at h with hud hts hmf <;> cases h
    · exact .inl rfl
    · exact .inr (.inl rfl)
    · exact .inr (.inr ⟨rfl, hmf⟩)

/-- The read of an operand raises neither #NM nor #MF (R171). -/
theorem State.operandStop_ne {s : State} {i : Instr} :
    s.operandStop i ≠ some (.exception .deviceNotAvailable) ∧ s.operandStop i ≠ some (.exception .x87FloatingPoint) := by
  rw [State.operandStop]
  cases i.rm with
  | reg r => simp [State.rmStop]
  | mem m =>
    simp only [State.rmStop]
    split
    next => simp
    next => cases s.translate (s.operandQuery i.addressEnc i.length m i.operandBytes) <;> simp [Answer.stop]

theorem State.operandStop_of_reg {s : State} {i : Instr} {r : BitVec 3} (h : i.rm = .reg r) :
    s.operandStop i = none := by
  rw [State.operandStop, h, State.rmStop]

section
variable {i : Instr} {s : State} (h : s.Admits i.length)
include h

/-- In an admitted state the stops come in the order of R184: #UD, #NM, #MF, then the operand's. -/
theorem State.instrStop_of_admits :
    s.instrStop i =
      if s.udInstr i then some (.exception .invalidOpcode)
      else if s.ts then some (.exception .deviceNotAvailable)
      else if i.isMmx && s.x87Pending then some (.exception .x87FloatingPoint)
      else s.operandStop i := by
  rw [State.instrStop, s.formStop_of_admits h]
  split_ifs <;> rfl

/-- #NM comes after #UD alone (R177, R184). -/
theorem State.instrStop_eq_deviceNotAvailable_iff :
    s.instrStop i = some (.exception .deviceNotAvailable) ↔ s.udInstr i = false ∧ s.ts = true := by
  obtain ⟨hoperand, -⟩ := s.operandStop_ne (i := i)
  rw [State.instrStop_of_admits h]
  split_ifs with hud hts hmf <;> simp_all

/-- #MF comes after #UD and #NM (R178, R184). -/
theorem State.instrStop_eq_x87FloatingPoint_iff :
    s.instrStop i = some (.exception .x87FloatingPoint) ↔
      s.udInstr i = false ∧ s.ts = false ∧ i.isMmx = true ∧ s.x87Pending = true := by
  obtain ⟨-, hoperand⟩ := s.operandStop_ne (i := i)
  rw [State.instrStop_of_admits h]
  split_ifs with hud hts hmf <;> simp_all

theorem exec_eq_deviceNotAvailable_iff {s' : State} :
    exec i s = .fault (.deviceNotAvailable s') ↔ (s.udInstr i = false ∧ s.ts = true) ∧ s = s' := by
  simp only [exec_eq_fault_iff, raise_eq_deviceNotAvailable_iff, ← State.instrStop_eq_deviceNotAvailable_iff h]
  exact ⟨fun ⟨_, hstop, he, hs⟩ => ⟨he ▸ hstop, hs⟩, fun ⟨hstop, hs⟩ => ⟨_, hstop, rfl, hs⟩⟩

theorem exec_eq_x87FloatingPoint_iff {s' : State} :
    exec i s = .fault (.x87FloatingPoint s') ↔
      (s.udInstr i = false ∧ s.ts = false ∧ i.isMmx = true ∧ s.x87Pending = true) ∧ s = s' := by
  simp only [exec_eq_fault_iff, raise_eq_x87FloatingPoint_iff, ← State.instrStop_eq_x87FloatingPoint_iff h]
  exact ⟨fun ⟨_, hstop, he, hs⟩ => ⟨he ▸ hstop, hs⟩, fun ⟨hstop, hs⟩ => ⟨_, hstop, rfl, hs⟩⟩

end

/-- Settles O40: `exec_eq_deviceNotAvailable_iff`, and `exec_next_frame` for CR0. -/
theorem deviceNotAvailableWhenTaskSwitched : Obligations.DeviceNotAvailableWhenTaskSwitched := by
  refine fun i s hadmits hud => ⟨fun hts => ?raised, fun s' hfault => ?only, fun t hnext => ?kept⟩
  case raised => exact (exec_eq_deviceNotAvailable_iff hadmits).mpr ⟨⟨hud, hts⟩, rfl⟩
  case only =>
    obtain ⟨⟨-, hts⟩, -⟩ := (exec_eq_deviceNotAvailable_iff hadmits).mp hfault
    exact hts
  case kept => rw [exec_next_frame hnext]

/-- Settles O41: the two directions of `exec_eq_x87FloatingPoint_iff`. -/
theorem mathFaultOnlyInMmxForms : Obligations.MathFaultOnlyInMmxForms := by
  refine fun i s hadmits => ⟨fun s' hfault => ?_, fun hmmx hpending hud hts => ?_⟩
  · obtain ⟨⟨hud, hts, hmmx, hpending⟩, -⟩ := (exec_eq_x87FloatingPoint_iff hadmits).mp hfault
    exact ⟨hmmx, hpending, hud, hts⟩
  · exact (exec_eq_x87FloatingPoint_iff hadmits).mpr ⟨⟨hud, hts, hmmx, hpending⟩, rfl⟩

/-! ### The values compared do not matter -/

theorem Answer.SameButBytes.stop_eq {a a' : Answer} (h : a.SameButBytes a') : a.stop = a'.stop := by
  obtain rfl | ⟨bs, bs', rfl, rfl, -⟩ := h <;> rfl

theorem Answer.SameButBytes.fits_eq {a a' : Answer} (h : a.SameButBytes a') (n : Nat) : a.fits n = a'.fits n := by
  obtain rfl | ⟨bs, bs', rfl, rfl, hlength⟩ := h
  · rfl
  · simp only [Answer.fits, hlength]

/-- Two memories that hold bytes at the same addresses give as many bytes, or lack the same first one. -/
theorem Memory.length_readAll_of_sameHeld {m m' : Memory} (h : ∀ a, (m'.read a).isSome = (m.read a).isSome)
    (as : List Nat) : (m'.readAll as).map List.length = (m.readAll as).map List.length := by
  induction as with
  | nil => rfl
  | cons a as ih =>
    have hhead := h a
    simp only [Memory.readAll]
    cases hb : m.read a with
    | none =>
      have hb' : m'.read a = none := by simpa [hb] using hhead
      rw [hb']
    | some b =>
      obtain ⟨b', hb'⟩ := Option.isSome_iff_exists.mp (hhead.trans (by rw [hb]; rfl))
      rw [hb']
      cases hr : m.readAll as <;> cases hr' : m'.readAll as <;> simp_all [Except.map]

/-- Lists related entry by entry are searched alike by tests that agree on related entries. -/
theorem find?_rel_of_forall₂ {α β : Type} {R : α → β → Prop} {p : α → Bool} {q : β → Bool}
    (hpq : ∀ a b, R a b → p a = q b) {l : List α} {l' : List β} (h : List.Forall₂ R l l') :
    Option.Rel R (l.find? p) (l'.find? q) := by
  induction h with
  | nil => exact .none
  | @cons a b l l' hab _ ih =>
    rw [List.find?_cons, List.find?_cons, hpq a b hab]
    cases q b with
    | true => exact .some hab
    | false => exact ih

section
variable (s : State) (x87 : Vector X87Word 8) (v : Vector VecWord 32) (k : Vector MaskWord 8) {mem : Memory}
  {oracle : List (Query × Answer)}

/-- The state with other contents of the destination files and of data memory, and other answers of `Translate`. -/
def State.withValues (mem : Memory) (oracle : List (Query × Answer)) : State :=
  { s with x87 := x87, v := v, k := k, mem := mem, oracle := oracle }

variable (hmem : ∀ a, (Memory.read mem a).isSome = (s.mem.read a).isSome)
include hmem

/-- The reference translation checks segments and asks which bytes there are; their values it only hands on (log 7). -/
theorem State.referenceTranslate_withValues (q : Query) :
    (s.referenceTranslate q).SameButBytes ((s.withValues x87 v k mem oracle).referenceTranslate q) := by
  have hsegment : (s.withValues x87 v k mem oracle).segmentFault q = s.segmentFault q := rfl
  have haddresses : (s.withValues x87 v k mem oracle).operandAddresses q = s.operandAddresses q := rfl
  have hmem' : (s.withValues x87 v k mem oracle).mem = mem := rfl
  have hlength := Memory.length_readAll_of_sameHeld hmem (s.operandAddresses q)
  simp only [State.referenceTranslate, hsegment, haddresses, hmem']
  cases s.segmentFault q with
  | some a => exact .inl rfl
  | none =>
    cases hr : s.mem.readAll (s.operandAddresses q) <;> cases hr' : mem.readAll (s.operandAddresses q) <;>
      simp_all [Except.map, Answer.SameButBytes]

variable (horacle : List.Forall₂ (fun e e' => e.1 = e'.1 ∧ e.2.SameButBytes e'.2) s.oracle oracle)
include horacle

/-- `Translate` answers alike, but for the values of the bytes (R58). -/
theorem State.translate_withValues (q : Query) :
    (s.translate q).SameButBytes ((s.withValues x87 v k mem oracle).translate q) := by
  have hfound : Option.Rel (fun e e' => e.1 = e'.1 ∧ e.2.SameButBytes e'.2)
      (s.oracle.find? fun e => e.1 == q && Answer.fits q.n e.2)
      (oracle.find? fun e => e.1 == q && Answer.fits q.n e.2) :=
    find?_rel_of_forall₂ (fun e e' ⟨hquery, hanswer⟩ => by rw [hquery, hanswer.fits_eq]) horacle
  have horacle' : (s.withValues x87 v k mem oracle).oracle = oracle := rfl
  simp only [State.translate, horacle']
  generalize List.find? _ s.oracle = found, List.find? _ oracle = found' at hfound ⊢
  cases hfound with
  | none => exact s.referenceTranslate_withValues x87 v k hmem q
  | some hentry => exact hentry.2

/-- What stops an instruction is not in the values it compares. -/
theorem State.instrStop_withValues (i : Instr) :
    (s.withValues x87 v k mem oracle).instrStop i = s.instrStop i := by
  have hoperand : (s.withValues x87 v k mem oracle).operandStop i = s.operandStop i := by
    simp only [State.operandStop]
    cases i.rm with
    | reg r => rfl
    | mem m =>
      have hanswer := s.translate_withValues x87 v k hmem horacle
        (s.operandQuery i.addressEnc i.length m i.operandBytes)
      simp only [State.rmStop, hanswer.stop_eq]
      rfl
  have hud : (s.withValues x87 v k mem oracle).udInstr i = s.udInstr i := by cases i <;> rfl
  rw [State.instrStop, State.instrStop, hoperand, hud]
  rfl

end

/-- A register form faults by one of its checks, for a register is always read (R179). -/
theorem exec_fault_of_reg {i : Instr} {s : State} {f : Fault} {r : BitVec 3} (hreg : i.rm = .reg r)
    (hfault : exec i s = .fault f) : f.vector = 6 ∨ f.vector = 7 ∨ (f.vector = 16 ∧ i.isMmx = true) := by
  obtain ⟨e, hstop, hraise⟩ := exec_eq_fault_iff.mp hfault
  rw [State.instrStop, State.operandStop_of_reg hreg, Option.or_none] at hstop
  obtain rfl | rfl | ⟨rfl, hmf⟩ := State.formStop_exception hstop <;> cases hraise
  · exact .inl rfl
  · exact .inr (.inl rfl)
  · exact .inr (.inr ⟨rfl, Bool.and_elim_left hmf⟩)

/-- Settles O44: `exec_fault_of_reg`, `State.instrStop_withValues` through `exec_completes_iff`, and `raise_state`. -/
theorem whatCannotFault : Obligations.WhatCannotFault := by
  refine ⟨fun i s f r hreg hfault => exec_fault_of_reg hreg hfault, ?values, fun i s f hfault => ?unwritten⟩
  case values =>
    intro i s t x87 v k mem oracle hmem horacle hnext
    have hstop := exec_completes_iff.mp ⟨t, hnext⟩
    exact exec_completes_iff.mpr ((s.instrStop_withValues x87 v k hmem horacle i).trans hstop)
  case unwritten =>
    obtain ⟨e, hraise⟩ := exec_fault hfault
    obtain ⟨hstate, -⟩ := raise_state hraise
    rw [hstate]
    exact ⟨rfl, rfl, rfl⟩

end Sys2Proof.Machine
end

section
/-! The bytes before an opcode, read back and written (R76, R77): splitting them off loses nothing
(`splitLead_bytes`), and the admitted ones are a list of prefixes with at most one REX after it
(`admitLead_eq_some_iff`). With them the selectors of rows, whose values are the 21 forms. -/

namespace Sys2Proof

/-! ### The bytes before an opcode, in both directions -/

/-- The byte of a lead byte, admitted or not (R76, R77). -/
def LeadByte.encode : LeadByte → Byte
  | .lock => 0xF0#8
  | .repne => 0xF2#8
  | .rep => 0xF3#8
  | .plain p => p.encode
  | .rex r => r.encode

/-- Is it a byte that the mode can have before an opcode: REX in 64-bit mode alone (R76)? -/
def LeadByte.inMode (m : Mode) : LeadByte → Bool
  | .rex _ => m.is64
  | _ => true

/-- What is read as a lead byte is one of the mode, and is that lead byte's byte: by inspection of the 256 bytes. -/
theorem leadByteOf_sound (m : Mode) : ∀ b, (leadByteOf m b).all (fun f => f.encode == b && f.inMode m) = true := by
  cases m <;> decide

theorem leadByteOf_eq_some {m : Mode} {b : Byte} {f : LeadByte} (h : leadByteOf m b = some f) :
    f.encode = b ∧ f.inMode m = true := by
  simpa [h] using leadByteOf_sound m b

/-- Splitting off the lead bytes loses nothing. -/
theorem splitLead_bytes (m : Mode) (bs : List Byte) :
    bs = (splitLead m bs).1.map LeadByte.encode ++ (splitLead m bs).2 := by
  induction bs with
  | nil => rfl
  | cons b bs ih =>
    cases hb : leadByteOf m b with
    | none => rw [splitLead_of_none hb]; rfl
    | some f =>
      rw [splitLead_of_some hb, List.map_cons, List.cons_append, ← ih, (leadByteOf_eq_some hb).1]

theorem inMode_of_mem_splitLead {m : Mode} {bs : List Byte} {f : LeadByte} (h : f ∈ (splitLead m bs).1) :
    f.inMode m = true := by
  induction bs with
  | nil => simp [splitLead] at h
  | cons b bs ih =>
    cases hb : leadByteOf m b with
    | none => simp [splitLead_of_none hb] at h
    | some f' =>
      rw [splitLead_of_some hb, List.mem_cons] at h
      obtain rfl | h := h
      · exact (leadByteOf_eq_some hb).2
      · exact ih h

/-- The lead bytes that R77 admits: admitted bytes and then at most one REX. -/
theorem admitLead_eq_some_iff {lead : List LeadByte} {pre : List LegacyByte} {rex : Option Rex} :
    admitLead lead = some (pre, rex) ↔ lead = pre.map LeadByte.plain ++ rex.toList.map LeadByte.rex := by
  constructor
  · intro h
    induction lead generalizing pre with
    | nil => cases h; rfl
    | cons f lead ih =>
      cases f with
      | plain p =>
        obtain ⟨⟨pre', rex'⟩, hrest, heq⟩ := Option.map_eq_some_iff.mp h
        cases heq
        rw [ih hrest]
        rfl
      | rex r =>
        cases lead with
        | nil => cases h; rfl
        | cons f' lead' => cases h
      | lock | repne | rep => cases h
  · rintro rfl
    cases rex with
    | none => simpa using admitLead_plain pre
    | some r => exact admitLead_rex pre r

/-- The REX of a legacy form is split off before the escape byte, in a mode that has it. -/
theorem splitLead_rex {m : Mode} {rex : Option Rex} (hrex : m.is64 = true ∨ rex = none) (bs : List Byte) :
    splitLead m (rex.toList.map Rex.encode ++ 0x0F#8 :: bs) = (rex.toList.map LeadByte.rex, 0x0F#8 :: bs) := by
  obtain ⟨h0F, -⟩ := leadByteOf_opening m
  cases rex with
  | none => exact splitLead_of_none h0F bs
  | some r =>
    obtain rfl : m = .mode64 := by simpa [Mode.is64_iff] using hrex
    simp [splitLead_of_some (leadByteOf_rex r), splitLead_of_none h0F]

/-- No admitted byte faults before a legacy form, and REX neither. -/
theorem any_faultsLegacy_admitted (pre : List LegacyByte) (rex : Option Rex) :
    (pre.map LeadByte.plain ++ rex.toList.map LeadByte.rex).any LeadByte.faultsLegacy = false := by
  cases rex <;> simp [LeadByte.faultsLegacy]

/-- Of the admitted bytes only 66 faults before a VEX or EVEX payload (R79, R81). -/
theorem any_faultsVex_plain (pre : List LegacyByte) :
    (pre.map LeadByte.plain).any LeadByte.faultsVex = hasOperandSize pre := by
  rw [List.any_map, hasOperandSize, List.contains_eq_any_beq]
  exact congrArg (List.any pre) (funext fun p => BEq.comm)

/-- No REX is among lead bytes that do not fault before a VEX or EVEX payload. -/
theorem rex_eq_none_of_faultsVex {pre : List LegacyByte} {rex : Option Rex}
    (h : (pre.map LeadByte.plain ++ rex.toList.map LeadByte.rex).any LeadByte.faultsVex = false) : rex = none := by
  cases rex with
  | none => rfl
  | some r => simp [LeadByte.faultsVex] at h

/-! ### The checks every form ends with -/

theorem elemOf_eq_some {op : Byte} {el : Elem} (h : elemOf op = some el) : op = el.opcode := by
  simp only [elemOf] at h
  split_ifs at h <;> cases h <;> assumption

theorem finish_eq_form_iff {m : Mode} {pre : List LegacyByte} {rm : RmField} {i j : Instr} :
    finish m pre rm i = .form j ↔ (preOk pre = true ∧ addressSizeOk m pre rm = true) ∧ i = j := by
  simp only [finish]
  cases preOk pre <;> cases addressSizeOk m pre rm <;> simp

theorem commonOk_iff {m : Mode} {pre : List LegacyByte} {rm : RmField} :
    commonOk m pre rm = true ↔ (preOk pre = true ∧ addressSizeOk m pre rm = true) ∧ rm.ok = true := by
  simp only [commonOk, Bool.and_eq_true]
  exact and_right_comm

/-! ### The forms as values of the row selectors -/

section
variable (m : Mode) (el : Elem) (reg : BitVec 3) (rm : RmField)

theorem encode_legacyInstr (e : LegacyEnc) : encode (legacyInstr el e reg rm) = encodeLegacy el e reg rm := by
  cases el <;> cases h : hasOperandSize e.pre <;> simp [legacyInstr, h, encode]

theorem ok_legacyInstr (e : LegacyEnc) :
    (legacyInstr el e reg rm).ok m = e.ok m (hasOperandSize e.pre) rm := by
  cases el <;> cases h : hasOperandSize e.pre <;> simp [legacyInstr, h, Instr.ok]

theorem encode_vexInstr (l : Bool) (e : VexEnc) : encode (vexInstr el l e reg rm) = encodeVex el l e reg rm := by
  cases el <;> cases l <;> rfl

theorem ok_vexInstr (l : Bool) (e : VexEnc) : (vexInstr el l e reg rm).ok m = e.ok m rm := by
  cases el <;> cases l <;> rfl

variable {el reg rm}

theorem encode_evexInstr {ll : BitVec 2} {e : EvexEnc} {i : Instr} (h : evexInstr el ll e reg rm = some i) :
    encode i = encodeEvex el ll e reg rm := by
  simp only [evexInstr] at h
  split_ifs at h <;> cases h <;> cases el <;> subst ll <;> rfl

theorem ok_evexInstr {ll : BitVec 2} {e : EvexEnc} {i : Instr} (h : evexInstr el ll e reg rm = some i) :
    i.ok m = e.ok m (el == .dword) rm := by
  simp only [evexInstr] at h
  split_ifs at h <;> cases h <;> cases el <;> rfl

end

end Sys2Proof
end

section
/-! Each class of encodings in both directions (R76, R78, R80, R89): the encoding of a well-formed form decodes to its
row (`decode_encodeLegacy`, `decode_encodeVex`, `decode_encodeEvex`), and what is read as a form has the bytes of one
(`decodeLegacy_eq_form`, `decodeVexBody_eq_form`, `decodeEvexBody_eq_form`). -/

namespace Sys2Proof

/-! ### Legacy forms -/

section
variable {m : Mode} {el : Elem} {reg : BitVec 3} {rm : RmField}

/-- The encoding of a well-formed legacy form decodes to its row (R76, R77). -/
theorem decode_encodeLegacy {xmm : Bool} {e : LegacyEnc} (hok : e.ok m xmm rm = true) (rest : List Byte) :
    decode m (encodeLegacy el e reg rm ++ rest) = .form (legacyInstr el e reg rm) := by
  simp only [LegacyEnc.ok, Bool.and_eq_true, Bool.or_eq_true, Option.isNone_iff_eq_none, commonOk_iff] at hok
  obtain ⟨⟨⟨hfinish, hrm⟩, -⟩, hrex⟩ := hok
  obtain ⟨modrm, tl, hbytes, hreg, htake⟩ := takeRm_rmBytes reg rm hrm rest
  have hsplit : splitLead m (encodeLegacy el e reg rm ++ rest) =
      (e.pre.map LeadByte.plain ++ e.rex.toList.map LeadByte.rex, 0x0F#8 :: el.opcode :: modrm :: tl) := by
    rw [← hbytes, encodeLegacy, List.append_assoc, List.append_assoc, splitLead_pre]
    simp only [List.cons_append, List.nil_append, splitLead_rex hrex]
  simp only [decode, hsplit, if_true, decodeLegacy, elemOf_opcode, htake, any_faultsLegacy_admitted,
    admitLead_eq_some_iff.mpr rfl, hreg]
  exact finish_eq_form_iff.mpr ⟨hfinish, rfl⟩

/-- What is read as a form after `0F` is the body of a legacy form, and the lead bytes are its own. -/
theorem decodeLegacy_eq_form {lead : List LeadByte} {bs : List Byte} {i : Instr}
    (h : decodeLegacy m lead bs = .form i) :
    ∃ el e reg rm rest, bs = el.opcode :: (rmBytes reg rm ++ rest) ∧
      lead = e.pre.map LeadByte.plain ++ e.rex.toList.map LeadByte.rex ∧ commonOk m e.pre rm = true ∧
      i = legacyInstr el e reg rm := by
  cases bs with
  | nil => cases h
  | cons op afterOp =>
    cases hel : elemOf op with
    | none => simp [decodeLegacy, hel] at h
    | some el =>
      cases afterOp with
      | nil => simp [decodeLegacy, hel] at h
      | cons modrm tl =>
        cases htake : takeRm modrm tl with
        | none => simp [decodeLegacy, hel, htake] at h
        | some r =>
          obtain ⟨rm, rest⟩ := r
          obtain ⟨hrm, hbytes⟩ := takeRm_eq_some htake
          simp only [decodeLegacy, hel, htake] at h
          split at h
          next => cases h
          next =>
            cases hadmit : admitLead lead with
            | none => simp [hadmit] at h
            | some e =>
              obtain ⟨pre, rex⟩ := e
              simp only [hadmit] at h
              obtain ⟨hfinish, rfl⟩ := finish_eq_form_iff.mp h
              exact ⟨el, ⟨pre, rex⟩, _, rm, rest, by rw [elemOf_eq_some hel, hbytes], admitLead_eq_some_iff.mp hadmit,
                commonOk_iff.mpr ⟨hfinish, hrm⟩, rfl⟩

/-! ### VEX forms -/

/-- The encoding of a well-formed VEX form decodes to its row (R78). -/
theorem decode_encodeVex {l : Bool} {e : VexEnc} (hok : e.ok m rm = true) (rest : List Byte) :
    decode m (encodeVex el l e reg rm ++ rest) = .form (vexInstr el l e reg rm) := by
  simp only [VexEnc.ok, Bool.and_eq_true, commonOk_iff, Bool.not_eq_true'] at hok
  obtain ⟨⟨⟨hfinish, hrm⟩, h66⟩, hvex⟩ := hok
  obtain ⟨modrm, tl, hbytes, hreg, htake⟩ := takeRm_rmBytes reg rm hrm rest
  have hsplit : splitLead m (encodeVex el l e reg rm ++ rest) =
      (e.pre.map LeadByte.plain, e.vex.encode l ++ el.opcode :: modrm :: tl) := by
    rw [← hbytes, encodeVex, List.append_assoc, List.append_assoc, splitLead_pre, splitLead_vexPayload]
    simp
  have hlead : (e.pre.map LeadByte.plain).any LeadByte.faultsVex = false := by rwa [any_faultsVex_plain]
  rw [decode_of_vexPayload hsplit hvex]
  simp only [decodeVexBody, elemOf_opcode, htake, hvex, hlead, admitLead_plain, hreg]
  exact finish_eq_form_iff.mpr ⟨hfinish, rfl⟩

/-- What is read as a form after a VEX payload is the body of a VEX form of the family; the lead bytes are its own,
with no 66 and no REX (R79). -/
theorem decodeVexBody_eq_form {lead : List LeadByte} {vex : VexPayload} {l family : Bool} {bs : List Byte} {i : Instr}
    (h : decodeVexBody m lead vex l family bs = .form i) :
    family = true ∧ ∃ el pre reg rm rest, bs = el.opcode :: (rmBytes reg rm ++ rest) ∧
      lead = pre.map LeadByte.plain ∧ VexEnc.ok m ⟨pre, vex⟩ rm = true ∧ i = vexInstr el l ⟨pre, vex⟩ reg rm := by
  cases bs with
  | nil => cases h
  | cons op afterOp =>
    cases family with
    | false => simp [decodeVexBody] at h
    | true =>
      cases hel : elemOf op with
      | none => simp [decodeVexBody, hel] at h
      | some el =>
        cases afterOp with
        | nil => simp [decodeVexBody, hel] at h
        | cons modrm tl =>
          cases htake : takeRm modrm tl with
          | none => simp [decodeVexBody, hel, htake] at h
          | some r =>
            obtain ⟨rm, rest⟩ := r
            obtain ⟨hrm, hbytes⟩ := takeRm_eq_some htake
            simp only [decodeVexBody, hel, htake] at h
            split_ifs at h with hvex hlead
            cases hadmit : admitLead lead with
            | none => simp [hadmit] at h
            | some e =>
              obtain ⟨pre, rex⟩ := e
              simp only [hadmit] at h
              obtain ⟨hfinish, rfl⟩ := finish_eq_form_iff.mp h
              obtain rfl := admitLead_eq_some_iff.mp hadmit
              rw [Bool.not_eq_true] at hlead
              obtain rfl := rex_eq_none_of_faultsVex hlead
              simp only [Option.toList_none, List.map_nil, List.append_nil, any_faultsVex_plain] at hlead ⊢
              refine ⟨trivial, el, pre, _, rm, rest, by rw [elemOf_eq_some hel, hbytes], rfl, ?_, rfl⟩
              simp_all [VexEnc.ok, commonOk_iff]

/-- C5 and a byte that names the implied 66 are the bytes of the payload it is read as (R78). -/
theorem vexTwo_eta : ∀ p : Byte, bitsAt 0 2 p = 1#2 → (vexTwo p).encode (p.getLsbD 2) = [0xC5#8, p] := by
  decide

theorem vexP0_eta : ∀ p0 : Byte, bitsAt 0 5 p0 = 1#5 →
    inv1 (!p0.getLsbD 7) ++ inv1 (!p0.getLsbD 6) ++ inv1 (!p0.getLsbD 5) ++ 1#5 = p0 := by
  decide

theorem vexP1_eta : ∀ p1 : Byte, bitsAt 0 2 p1 = 1#2 →
    bit1 (p1.getLsbD 7) ++ ~~~(~~~(bitsAt 3 4 p1)) ++ bit1 (p1.getLsbD 2) ++ 1#2 = p1 := by
  decide

/-- C4 and two bytes of the family are the bytes of the payload they are read as (R78). -/
theorem vexThree_eta {p0 p1 : Byte} (hmap : bitsAt 0 5 p0 = 1#5) (hpp : bitsAt 0 2 p1 = 1#2) :
    (vexThree p0 p1).encode (p1.getLsbD 2) = [0xC4#8, p0, p1] := by
  simp only [vexThree, VexPayload.encode, vexP0_eta p0 hmap, vexP1_eta p1 hpp]

/-- What is read as a form after C5 has the bytes of a VEX payload before its body. -/
theorem decodeVex2_eq_form {lead : List LeadByte} {bs : List Byte} {i : Instr} (h : decodeVex2 m lead bs = .form i) :
    ∃ vex l body, 0xC5#8 :: bs = vex.encode l ++ body ∧ decodeVexBody m lead vex l true body = .form i := by
  cases bs with
  | nil => cases h
  | cons p body =>
    simp only [decodeVex2] at h
    split_ifs at h
    obtain ⟨hpp, -⟩ := decodeVexBody_eq_form h
    rw [hpp] at h
    exact ⟨vexTwo p, p.getLsbD 2, body, by rw [vexTwo_eta p (beq_iff_eq.mp hpp)]; rfl, h⟩

/-- What is read as a form after C4 has the bytes of a VEX payload before its body. -/
theorem decodeVex3_eq_form {lead : List LeadByte} {bs : List Byte} {i : Instr} (h : decodeVex3 m lead bs = .form i) :
    ∃ vex l body, 0xC4#8 :: bs = vex.encode l ++ body ∧ decodeVexBody m lead vex l true body = .form i := by
  match bs with
  | [] => cases h
  | [p0] =>
    simp only [decodeVex3] at h
    split_ifs at h
  | p0 :: p1 :: body =>
    simp only [decodeVex3] at h
    split_ifs at h
    obtain ⟨hfamily, -⟩ := decodeVexBody_eq_form h
    rw [hfamily] at h
    simp only [Bool.and_eq_true, beq_iff_eq] at hfamily
    obtain ⟨hmap, hpp⟩ := hfamily
    exact ⟨vexThree p0 p1, p1.getLsbD 2, body, by rw [vexThree_eta hmap hpp]; rfl, h⟩

/-! ### EVEX forms -/

/-- `P0` of the EVEX payload of a form (R80). -/
def EvexEnc.p0 (e : EvexEnc) : Byte := bit1 true ++ inv1 e.x ++ inv1 e.b ++ bit1 true ++ 0#2 ++ 1#2

/-- `P1` of the EVEX payload of a form (R80). -/
def EvexEnc.p1 (e : EvexEnc) : Byte := bit1 e.w ++ ~~~e.vvvv ++ 1#1 ++ 1#2

/-- `P2` of the EVEX payload of a form (R80). -/
def EvexEnc.p2 (ll : BitVec 2) (e : EvexEnc) : Byte := bit1 false ++ ll ++ bit1 e.bcst ++ inv1 e.v' ++ e.aaa

theorem EvexEnc.payload_eq (ll : BitVec 2) (e : EvexEnc) : e.payload ll = [0x62#8, e.p0, e.p1, e.p2 ll] := rfl

/-- The three bytes of an EVEX payload are read back (R80). -/
theorem evexEncOf_payload (ll : BitVec 2) (e : EvexEnc) (pre : List LegacyByte) :
    evexEncOf pre e.p0 e.p1 (e.p2 ll) = { e with pre := pre } := by
  obtain ⟨hx, hb, -⟩ := evexP0_encode e.x e.b
  obtain ⟨hw, hvvvv, -⟩ := evexP1_encode e.w e.vvvv
  obtain ⟨hv', hbcst, haaa, -⟩ := evexP2_encode ll e.bcst e.v' e.aaa
  rw [← EvexEnc.p0] at hx hb
  rw [← EvexEnc.p1] at hw hvvvv
  rw [← EvexEnc.p2] at hv' hbcst haaa
  simp only [evexEncOf, hx, hb, hw, hvvvv, hv', hbcst, haaa, Bool.not_not]

/-- The payload of a well-formed EVEX form is not reserved (R89). -/
theorem evexReserved_payload {ll : BitVec 2} (hll : ll ≠ 3#2) {e : EvexEnc} (hok : e.ok m (el == .dword) rm = true) :
    evexReserved el e.p0 e.p1 (e.p2 ll) rm = false := by
  obtain ⟨-, -, -, h22, hreg⟩ := evexP0_encode e.x e.b
  obtain ⟨hw, -, h2, -⟩ := evexP1_encode e.w e.vvvv
  obtain ⟨-, hbcst, -, hll', h7⟩ := evexP2_encode ll e.bcst e.v' e.aaa
  rw [← EvexEnc.p0] at h22 hreg
  rw [← EvexEnc.p1] at hw h2
  rw [← EvexEnc.p2] at hbcst hll' h7
  simp only [EvexEnc.ok, Bool.and_eq_true, Bool.or_eq_true, Bool.not_eq_true'] at hok
  obtain ⟨⟨-, hbroadcast⟩, hdword⟩ := hok
  simp only [evexReserved, h22, h2, hw, h7, hll', hbcst, hreg]
  obtain hb | ⟨hel, hmem⟩ := hbroadcast
  · simp [hb, hdword, hll]
  · simp_all

/-- The encoding of a well-formed EVEX form decodes to its row (R80). -/
theorem decode_encodeEvex {ll : BitVec 2} {e : EvexEnc} {i : Instr} (hrow : evexInstr el ll e reg rm = some i)
    (hok : e.ok m (el == .dword) rm = true) (rest : List Byte) :
    decode m (encodeEvex el ll e reg rm ++ rest) = .form i := by
  have hll : ll ≠ 3#2 := by rintro rfl; cases hrow
  have hreserved := evexReserved_payload hll hok
  simp only [EvexEnc.ok, Bool.and_eq_true, commonOk_iff, Bool.not_eq_true'] at hok
  obtain ⟨⟨⟨⟨⟨hfinish, hrm⟩, h66⟩, hext⟩, -⟩, -⟩ := hok
  obtain ⟨modrm, tl, hbytes, hreg, htake⟩ := takeRm_rmBytes reg rm hrm rest
  obtain ⟨-, -, hmap, -, hregExt⟩ := evexP0_encode e.x e.b
  obtain ⟨-, -, -, hpp⟩ := evexP1_encode e.w e.vvvv
  obtain ⟨-, -, -, hll', -⟩ := evexP2_encode ll e.bcst e.v' e.aaa
  have hbegins := beginsPayload_evex hext
  rw [← EvexEnc.p0] at hmap hregExt hbegins
  rw [← EvexEnc.p1] at hpp
  rw [← EvexEnc.p2] at hll'
  have hsplit : splitLead m (encodeEvex el ll e reg rm ++ rest) =
      (e.pre.map LeadByte.plain, e.payload ll ++ el.opcode :: modrm :: tl) := by
    rw [← hbytes, encodeEvex, List.append_assoc, List.append_assoc, splitLead_pre, splitLead_evexPayload]
    simp
  have hlead : (e.pre.map LeadByte.plain).any LeadByte.faultsVex = false := by rwa [any_faultsVex_plain]
  have hext' : ({ e with pre := [] } : EvexEnc).extOk m = true := hext
  have hdecode : decode m (encodeEvex el ll e reg rm ++ rest) =
      decodeEvexBody m (e.pre.map LeadByte.plain) e.p0 e.p1 (e.p2 ll) (el.opcode :: modrm :: tl) := by
    simp [decode, hsplit, EvexEnc.payload_eq, decodeEvex, hbegins]
  rw [hdecode]
  have hrow' : evexInstr el ll { e with pre := e.pre } reg rm = some i := hrow
  simp only [decodeEvexBody, hmap, hpp, elemOf_opcode, htake, hregExt, evexEncOf_payload, hext', hlead, hreserved,
    admitLead_plain, hll', hreg, hrow', beq_self_eq_true, Bool.and_self, Bool.not_true, Bool.or_self, Bool.and_false,
    Bool.false_eq_true, if_false]
  exact finish_eq_form_iff.mpr ⟨hfinish, rfl⟩

theorem evexP0_eta : ∀ p0 : Byte, bitsAt 0 2 p0 = 1#2 → bitsAt 2 2 p0 = 0#2 → evexRegExtended p0 = false →
    bit1 true ++ inv1 (!p0.getLsbD 6) ++ inv1 (!p0.getLsbD 5) ++ bit1 true ++ 0#2 ++ 1#2 = p0 := by
  decide

theorem evexP1_eta : ∀ p1 : Byte, bitsAt 0 2 p1 = 1#2 → p1.getLsbD 2 = true →
    bit1 (p1.getLsbD 7) ++ ~~~(~~~(bitsAt 3 4 p1)) ++ 1#1 ++ 1#2 = p1 := by
  decide

theorem evexP2_eta : ∀ p2 : Byte, p2.getLsbD 7 = false →
    bit1 false ++ bitsAt 5 2 p2 ++ bit1 (p2.getLsbD 4) ++ inv1 (!p2.getLsbD 3) ++ bitsAt 0 3 p2 = p2 := by
  decide

/-- 62 and three bytes of the family that are not reserved are the bytes of the payload they are read as (R80, R89),
and its fields are those a form can have. -/
theorem evexEncOf_eta {p0 p1 p2 : Byte} (hmap : bitsAt 0 2 p0 = 1#2) (hpp : bitsAt 0 2 p1 = 1#2)
    (hreserved : evexReserved el p0 p1 p2 rm = false) (pre : List LegacyByte) :
    (evexEncOf pre p0 p1 p2).payload (bitsAt 5 2 p2) = [0x62#8, p0, p1, p2] ∧
      (!p2.getLsbD 4 || ((el == .dword) && rm.isMem)) = true ∧ (!((el == .dword) && p1.getLsbD 7)) = true := by
  simp only [evexReserved, Bool.or_eq_false_iff, bne_eq_false_iff_eq, Bool.not_eq_false'] at hreserved
  obtain ⟨⟨⟨⟨⟨⟨⟨h22, h2⟩, hw⟩, h7⟩, -⟩, hbreg⟩, hbel⟩, hreg⟩ := hreserved
  refine ⟨?_, ?_, by rw [hw]; rfl⟩
  · simp only [EvexEnc.payload, evexEncOf, evexP0_eta p0 hmap h22 hreg, evexP1_eta p1 hpp h2, evexP2_eta p2 h7]
  · cases h4 : p2.getLsbD 4 <;> simp_all

/-- What is read as a form after `62 P0 P1 P2` is the body of an EVEX form; the lead bytes are its own, with no 66 and
no REX (R81). -/
theorem decodeEvexBody_eq_form {lead : List LeadByte} {p0 p1 p2 : Byte} {bs : List Byte} {i : Instr}
    (h : decodeEvexBody m lead p0 p1 p2 bs = .form i) :
    ∃ el ll e reg rm rest, e.payload ll = [0x62#8, p0, p1, p2] ∧ bs = el.opcode :: (rmBytes reg rm ++ rest) ∧
      lead = e.pre.map LeadByte.plain ∧ e.ok m (el == .dword) rm = true ∧ evexInstr el ll e reg rm = some i := by
  cases bs with
  | nil => cases h
  | cons op afterOp =>
    cases hfamily : bitsAt 0 2 p0 == 1#2 && bitsAt 0 2 p1 == 1#2 with
    | false => simp [decodeEvexBody, hfamily] at h
    | true =>
      cases hel : elemOf op with
      | none => simp [decodeEvexBody, hfamily, hel] at h
      | some el =>
        cases afterOp with
        | nil => simp [decodeEvexBody, hfamily, hel] at h
        | cons modrm tl =>
          cases htake : takeRm modrm tl with
          | none => simp [decodeEvexBody, hfamily, hel, htake] at h
          | some r =>
            obtain ⟨rm, rest⟩ := r
            obtain ⟨hrm, hbytes⟩ := takeRm_eq_some htake
            simp only [decodeEvexBody, hfamily, hel, htake] at h
            split_ifs at h with hext hlead hreserved
            cases hadmit : admitLead lead with
            | none => simp [hadmit] at h
            | some e =>
              obtain ⟨pre, rex⟩ := e
              cases hrow : evexInstr el (bitsAt 5 2 p2) (evexEncOf pre p0 p1 p2) (bitsAt 3 3 modrm) rm with
              | none => simp [hadmit, hrow] at h
              | some j =>
                simp only [hadmit, hrow] at h
                obtain ⟨hfinish, rfl⟩ := finish_eq_form_iff.mp h
                obtain rfl := admitLead_eq_some_iff.mp hadmit
                rw [Bool.not_eq_true] at hlead hreserved
                obtain rfl := rex_eq_none_of_faultsVex hlead
                simp only [Option.toList_none, List.map_nil, List.append_nil, any_faultsVex_plain] at hlead ⊢
                simp only [Bool.and_eq_true, beq_iff_eq] at hfamily
                obtain ⟨hmap, hpp⟩ := hfamily
                obtain ⟨hpayload, hbroadcast, hw⟩ := evexEncOf_eta hmap hpp hreserved pre
                refine ⟨el, _, _, _, rm, rest, hpayload, by rw [elemOf_eq_some hel, hbytes], rfl, ?_, hrow⟩
                have hext' : (evexEncOf pre p0 p1 p2).extOk m = true := by
                  have : (evexEncOf [] p0 p1 p2).extOk m = (evexEncOf pre p0 p1 p2).extOk m := rfl
                  cases hm : m.is64 <;> simp_all [EvexEnc.extOk]
                have hcommon : commonOk m pre rm = true := commonOk_iff.mpr ⟨hfinish, hrm⟩
                simp only [EvexEnc.ok, hext']
                simp only [evexEncOf, hcommon, hlead, hbroadcast, hw]
                rfl

end

end Sys2Proof
end

section
/-! The round trip of whole instructions (R70 to R93), assembled from the classes, and the lengths of encodings (R90).
-/

namespace Sys2Proof

/-! ### Every instruction is a row of its class -/

theorem LegacyEnc.hasOperandSize_of_ok {m : Mode} {xmm : Bool} {e : LegacyEnc} {rm : RmField}
    (h : e.ok m xmm rm = true) : hasOperandSize e.pre = xmm := by
  simp only [LegacyEnc.ok, Bool.and_eq_true, beq_iff_eq] at h
  obtain ⟨⟨-, h66⟩, -⟩ := h
  exact h66

theorem LegacyEnc.ok_hasOperandSize {m : Mode} {xmm : Bool} {e : LegacyEnc} {rm : RmField}
    (h : e.ok m xmm rm = true) : e.ok m (hasOperandSize e.pre) rm = true := by
  rwa [LegacyEnc.hasOperandSize_of_ok h]

/-- A well-formed instruction is the row that the decoder selects in its class, by opcode and 66, `L` or `L'L`. -/
theorem Instr.row_of_ok {m : Mode} {i : Instr} (h : i.ok m = true) :
    (∃ el e reg rm, i = legacyInstr el e reg rm ∧ e.ok m (hasOperandSize e.pre) rm = true) ∨
    (∃ el l e reg rm, i = vexInstr el l e reg rm ∧ VexEnc.ok m e rm = true) ∨
    ∃ el ll e reg rm, evexInstr el ll e reg rm = some i ∧ EvexEnc.ok m (el == .dword) e rm = true := by
  cases i
  case pcmpeqbMm e reg rm | pcmpeqbXmm e reg rm =>
    have h66 := LegacyEnc.hasOperandSize_of_ok h
    exact .inl ⟨.byte, e, reg, rm, by simp only [legacyInstr, h66], LegacyEnc.ok_hasOperandSize h⟩
  case pcmpeqwMm e reg rm | pcmpeqwXmm e reg rm =>
    have h66 := LegacyEnc.hasOperandSize_of_ok h
    exact .inl ⟨.word, e, reg, rm, by simp only [legacyInstr, h66], LegacyEnc.ok_hasOperandSize h⟩
  case pcmpeqdMm e reg rm | pcmpeqdXmm e reg rm =>
    have h66 := LegacyEnc.hasOperandSize_of_ok h
    exact .inl ⟨.dword, e, reg, rm, by simp only [legacyInstr, h66], LegacyEnc.ok_hasOperandSize h⟩
  case vpcmpeqbXmm => exact .inr (.inl ⟨.byte, false, _, _, _, rfl, h⟩)
  case vpcmpeqwXmm => exact .inr (.inl ⟨.word, false, _, _, _, rfl, h⟩)
  case vpcmpeqdXmm => exact .inr (.inl ⟨.dword, false, _, _, _, rfl, h⟩)
  case vpcmpeqbYmm => exact .inr (.inl ⟨.byte, true, _, _, _, rfl, h⟩)
  case vpcmpeqwYmm => exact .inr (.inl ⟨.word, true, _, _, _, rfl, h⟩)
  case vpcmpeqdYmm => exact .inr (.inl ⟨.dword, true, _, _, _, rfl, h⟩)
  case vpcmpeqdK128 => exact .inr (.inr ⟨.dword, 0#2, _, _, _, rfl, h⟩)
  case vpcmpeqdK256 => exact .inr (.inr ⟨.dword, 1#2, _, _, _, rfl, h⟩)
  case vpcmpeqdK512 => exact .inr (.inr ⟨.dword, 2#2, _, _, _, rfl, h⟩)
  case vpcmpeqbK128 => exact .inr (.inr ⟨.byte, 0#2, _, _, _, rfl, h⟩)
  case vpcmpeqbK256 => exact .inr (.inr ⟨.byte, 1#2, _, _, _, rfl, h⟩)
  case vpcmpeqbK512 => exact .inr (.inr ⟨.byte, 2#2, _, _, _, rfl, h⟩)
  case vpcmpeqwK128 => exact .inr (.inr ⟨.word, 0#2, _, _, _, rfl, h⟩)
  case vpcmpeqwK256 => exact .inr (.inr ⟨.word, 1#2, _, _, _, rfl, h⟩)
  case vpcmpeqwK512 => exact .inr (.inr ⟨.word, 2#2, _, _, _, rfl, h⟩)

/-- Settles O51: a well-formed instruction is a row of its class, and each class is read back. -/
theorem decodeEncodeRoundTrip : Obligations.DecodeEncodeRoundTrip := by
  intro m i rest hok
  obtain ⟨el, e, reg, rm, rfl, he⟩ | ⟨el, l, e, reg, rm, rfl, he⟩ | ⟨el, ll, e, reg, rm, hrow, he⟩ :=
    Instr.row_of_ok hok
  · rw [encode_legacyInstr]
    exact decode_encodeLegacy he rest
  · rw [encode_vexInstr]
    exact decode_encodeVex he rest
  · rw [encode_evexInstr hrow]
    exact decode_encodeEvex hrow he rest

/-! ### From the bytes to the instruction -/

section
variable {m : Mode} {bs tl : List Byte} {lead : List LeadByte} {i : Instr}

/-- A legacy form that was read is well-formed, and the bytes are its encoding. -/
theorem encodeLegacy_of_decodeLegacy (hsplit : splitLead m bs = (lead, 0x0F#8 :: tl))
    (h : decodeLegacy m lead tl = .form i) : i.ok m = true ∧ ∃ rest, bs = encode i ++ rest := by
  obtain ⟨el, e, reg, rm, rest, rfl, rfl, hcommon, rfl⟩ := decodeLegacy_eq_form h
  have hbytes := splitLead_bytes m bs
  rw [hsplit] at hbytes
  have hrex : m.is64 = true ∨ e.rex = none := by
    cases hr : e.rex with
    | none => exact .inr rfl
    | some r =>
      exact .inl (inMode_of_mem_splitLead (f := .rex r) (by rw [hsplit, hr]; simp))
  constructor
  · rw [ok_legacyInstr]
    simp only [LegacyEnc.ok, hcommon, beq_self_eq_true, Bool.and_self, Bool.true_and, Bool.or_eq_true,
      Option.isNone_iff_eq_none]
    exact hrex
  · refine ⟨rest, ?_⟩
    rw [encode_legacyInstr, hbytes, encodeLegacy]
    simp [LeadByte.encode, Function.comp_def]

/-- A VEX form that was read is well-formed, and the bytes are its encoding. -/
theorem encodeVex_of_decodeVexBody {vex : VexPayload} {l : Bool} {body : List Byte}
    (hsplit : splitLead m bs = (lead, vex.encode l ++ body)) (h : decodeVexBody m lead vex l true body = .form i) :
    i.ok m = true ∧ ∃ rest, bs = encode i ++ rest := by
  obtain ⟨-, el, pre, reg, rm, rest, rfl, rfl, hok, rfl⟩ := decodeVexBody_eq_form h
  have hbytes := splitLead_bytes m bs
  rw [hsplit] at hbytes
  refine ⟨by rw [ok_vexInstr, hok], rest, ?_⟩
  rw [encode_vexInstr, hbytes, encodeVex]
  simp [LeadByte.encode, Function.comp_def]

/-- An EVEX form that was read is well-formed, and the bytes are its encoding. -/
theorem encodeEvex_of_decodeEvex (hsplit : splitLead m bs = (lead, 0x62#8 :: tl))
    (h : decodeEvex m lead tl = .form i) : i.ok m = true ∧ ∃ rest, bs = encode i ++ rest := by
  cases tl with
  | nil => cases h
  | cons p0 tl =>
    simp only [decodeEvex] at h
    split_ifs at h
    match tl with
    | [] | [_] => cases h
    | p1 :: p2 :: body =>
      obtain ⟨el, ll, e, reg, rm, rest, hpayload, rfl, rfl, hok, hrow⟩ := decodeEvexBody_eq_form h
      have hbytes := splitLead_bytes m bs
      rw [hsplit] at hbytes
      refine ⟨by rw [ok_evexInstr m hrow, hok], rest, ?_⟩
      rw [encode_evexInstr hrow, hbytes, encodeEvex, hpayload]
      simp [LeadByte.encode, Function.comp_def]

end

/-- Settles O52: by the byte that opens the opcode, each class in turn. -/
theorem decodedBytesAreTheEncoding : Obligations.DecodedBytesAreTheEncoding := by
  intro m bs i h
  cases hsplit : splitLead m bs with
  | mk lead tl =>
    cases tl with
    | nil => simp [decode, hsplit] at h
    | cons b tl =>
      simp only [decode, hsplit] at h
      split_ifs at h with h0F hC5 hC4 h62
      · subst h0F
        exact encodeLegacy_of_decodeLegacy hsplit h
      · subst hC5
        obtain ⟨vex, l, body, hbytes, hbody⟩ := decodeVex2_eq_form h
        exact encodeVex_of_decodeVexBody (hbytes ▸ hsplit) hbody
      · subst hC4
        obtain ⟨vex, l, body, hbytes, hbody⟩ := decodeVex3_eq_form h
        exact encodeVex_of_decodeVexBody (hbytes ▸ hsplit) hbody
      · subst h62
        exact encodeEvex_of_decodeEvex hsplit h

/-! ### Lengths (R90) -/

theorem length_encode (i : Instr) : (encode i).length = i.length := by
  cases i
  case pcmpeqbMm e reg rm | pcmpeqbXmm e reg rm | pcmpeqwMm e reg rm | pcmpeqwXmm e reg rm | pcmpeqdMm e reg rm |
      pcmpeqdXmm e reg rm =>
    exact length_encodeLegacy _ e reg rm
  case vpcmpeqbXmm e reg rm | vpcmpeqwXmm e reg rm | vpcmpeqdXmm e reg rm | vpcmpeqbYmm e reg rm |
      vpcmpeqwYmm e reg rm | vpcmpeqdYmm e reg rm =>
    exact length_encodeVex _ _ e reg rm
  case vpcmpeqdK128 e reg rm | vpcmpeqdK256 e reg rm | vpcmpeqdK512 e reg rm | vpcmpeqbK128 e reg rm |
      vpcmpeqbK256 e reg rm | vpcmpeqbK512 e reg rm | vpcmpeqwK128 e reg rm | vpcmpeqwK256 e reg rm |
      vpcmpeqwK512 e reg rm =>
    exact length_encodeEvex _ _ e reg rm

/-- The admitted bytes are segment overrides, 67s and 66s. -/
theorem length_pre (pre : List LegacyByte) :
    pre.length = pre.countP LegacyByte.isSeg + pre.count .addressSize + pre.count .operandSize := by
  induction pre with
  | nil => rfl
  | cons p pre ih =>
    rw [List.length_cons, List.countP_cons, List.count_cons, List.count_cons, ih]
    cases p <;> simp [LegacyByte.isSeg] <;> omega

/-- With the checks of R77 there are at most three admitted bytes, 66 one of them. -/
theorem length_pre_of_commonOk {m : Mode} {pre : List LegacyByte} {rm : RmField} (h : commonOk m pre rm = true) :
    pre.length ≤ 2 + (hasOperandSize pre).toNat ∧ (hasOperandSize pre).toNat ≤ pre.length := by
  obtain ⟨⟨hpre, -⟩, -⟩ := commonOk_iff.mp h
  simp only [preOk, Bool.and_eq_true, decide_eq_true_eq] at hpre
  have hlength := length_pre pre
  cases h66 : hasOperandSize pre with
  | false =>
    have : pre.count .operandSize = 0 := List.count_eq_zero.mpr (by simpa [hasOperandSize] using h66)
    simp
    omega
  | true =>
    have : 0 < pre.count .operandSize := List.count_pos_iff.mpr (by simpa [hasOperandSize] using h66)
    simp
    omega

theorem RmField.length_bounds (rm : RmField) : 1 ≤ rm.length ∧ rm.length ≤ 6 := by
  have hdisp (d : Disp) : d.length ≤ 4 := by cases d <;> simp [Disp.length]
  cases rm with
  | reg r => simp [RmField.length]
  | mem m =>
    cases m with
    | base r d => have := hdisp d; simp only [RmField.length]; omega
    | sib sc ix b d => have := hdisp d; simp only [RmField.length]; omega
    | relative d | sibNoBase sc ix d => simp [RmField.length]

/-- A legacy form: the admitted bytes and 66, REX, `0F` and opcode, and the operand. -/
theorem legacyLength_bounds {m : Mode} {xmm : Bool} {e : LegacyEnc} {rm : RmField} (h : e.ok m xmm rm = true) :
    3 + xmm.toNat ≤ legacyLength e rm ∧ legacyLength e rm ≤ 11 + xmm.toNat := by
  have h66 := LegacyEnc.hasOperandSize_of_ok h
  simp only [LegacyEnc.ok, Bool.and_eq_true] at h
  obtain ⟨⟨hcommon, -⟩, -⟩ := h
  have hpre := length_pre_of_commonOk hcommon
  have hrm := rm.length_bounds
  have hrex : e.rex.toList.length ≤ 1 := by cases e.rex <;> simp
  rw [h66] at hpre
  simp only [legacyLength]
  omega

theorem vexLength_bounds {m : Mode} {e : VexEnc} {rm : RmField} (h : e.ok m rm = true) :
    4 ≤ vexLength e rm ∧ vexLength e rm ≤ 12 := by
  simp only [VexEnc.ok, Bool.and_eq_true, Bool.not_eq_true'] at h
  obtain ⟨⟨hcommon, h66⟩, -⟩ := h
  have hpre := length_pre_of_commonOk hcommon
  have hrm := rm.length_bounds
  rw [h66] at hpre
  simp only [vexLength, Bool.toNat_false] at hpre ⊢
  cases e.vex <;> simp only <;> omega

theorem evexLength_bounds {m : Mode} {dword : Bool} {e : EvexEnc} {rm : RmField} (h : e.ok m dword rm = true) :
    6 ≤ evexLength e rm ∧ evexLength e rm ≤ 13 := by
  simp only [EvexEnc.ok, Bool.and_eq_true, Bool.not_eq_true'] at h
  obtain ⟨⟨⟨⟨hcommon, h66⟩, -⟩, -⟩, -⟩ := h
  have hpre := length_pre_of_commonOk hcommon
  have hrm := rm.length_bounds
  rw [h66] at hpre
  simp only [evexLength, Bool.toNat_false] at hpre ⊢
  omega

/-- Settles O53: `length_encode`, and the bounds of each class. -/
theorem instructionLengthBounds : Obligations.InstructionLengthBounds :=
  ⟨length_encode, fun _ _ _ h => legacyLength_bounds h, fun _ _ _ h => legacyLength_bounds h,
    fun _ _ _ h => vexLength_bounds h, fun _ _ _ _ h => evexLength_bounds h⟩

/-- Every well-formed instruction fits in what a step fetches (R90). -/
theorem Instr.length_le_maxLength {m : Mode} {i : Instr} (h : i.ok m = true) : i.length ≤ maxLength := by
  rw [← length_encode]
  obtain ⟨el, e, reg, rm, rfl, he⟩ | ⟨el, l, e, reg, rm, rfl, he⟩ | ⟨el, ll, e, reg, rm, hrow, he⟩ :=
    Instr.row_of_ok h
  · rw [encode_legacyInstr, length_encodeLegacy]
    have := legacyLength_bounds he
    have := Bool.toNat_le (hasOperandSize e.pre)
    simp only [maxLength]
    omega
  · rw [encode_vexInstr, length_encodeVex]
    have := vexLength_bounds he
    simp only [maxLength]
    omega
  · rw [encode_evexInstr hrow, length_encodeEvex]
    have := evexLength_bounds he
    simp only [maxLength]
    omega

end Sys2Proof
end

section
/-! Encodings with no bytes before their opcode (R78, R80, R89, R91): the reserved ones, the ones Mode32 refuses, the
ones no mode reserves, and the registers Mode32 can name. Each is a run of the decoder over one payload, whose parts
the lemmas of the first part name. -/

namespace Sys2Proof

/-! ### Without bytes before the opcode -/

section
variable {m : Mode}

theorem decode_C5 {p : Byte} (hp : beginsPayload m p = true) (body : List Byte) :
    decode m (0xC5#8 :: p :: body) =
      decodeVexBody m [] (vexTwo p) (p.getLsbD 2) (bitsAt 0 2 p == 1#2) body := by
  obtain ⟨-, hC5, -, -⟩ := leadByteOf_opening m
  simp [decode, splitLead_of_none hC5, decodeVex2, hp]

theorem decode_C4 {p0 : Byte} (hp : beginsPayload m p0 = true) (p1 : Byte) (body : List Byte) :
    decode m (0xC4#8 :: p0 :: p1 :: body) =
      decodeVexBody m [] (vexThree p0 p1) (p1.getLsbD 2) (bitsAt 0 5 p0 == 1#5 && bitsAt 0 2 p1 == 1#2) body := by
  obtain ⟨-, -, hC4, -⟩ := leadByteOf_opening m
  simp [decode, splitLead_of_none hC4, decodeVex3, hp]

theorem decode_62 {p0 : Byte} (hp : beginsPayload m p0 = true) (p1 p2 : Byte) (body : List Byte) :
    decode m (0x62#8 :: p0 :: p1 :: p2 :: body) = decodeEvexBody m [] p0 p1 p2 body := by
  obtain ⟨-, -, -, h62⟩ := leadByteOf_opening m
  simp [decode, splitLead_of_none h62, decodeEvex, hp]

/-- A byte after C4, C5 or 62 that begins no payload makes another instruction of the bytes (R91). -/
theorem decode_of_not_beginsPayload {b p : Byte} (hb : b ∈ [0xC4#8, 0xC5#8, 0x62#8])
    (hp : beginsPayload m p = false) (tail : List Byte) : decode m (b :: p :: tail) = .notThisFamily := by
  obtain ⟨-, hC5, hC4, h62⟩ := leadByteOf_opening m
  simp only [List.mem_cons, List.not_mem_nil, or_false] at hb
  obtain rfl | rfl | rfl := hb
  · simp [decode, splitLead_of_none hC4, decodeVex3, hp]
  · simp [decode, splitLead_of_none hC5, decodeVex2, hp]
  · simp [decode, splitLead_of_none h62, decodeEvex, hp]

end

theorem beginsPayload_mode64 (p : Byte) : beginsPayload .mode64 p = true := rfl

/-- The opcodes of the family are those of the three element widths (R70). -/
theorem opcode_of_mem {op : Byte} (h : op ∈ [0x74#8, 0x75#8, 0x76#8]) : ∃ el : Elem, op = el.opcode := by
  simp only [List.mem_cons, List.not_mem_nil, or_false] at h
  obtain rfl | rfl | rfl := h
  exacts [⟨.byte, rfl⟩, ⟨.word, rfl⟩, ⟨.dword, rfl⟩]

theorem Elem.opcode_eq_76_iff {el : Elem} : el.opcode = 0x76#8 ↔ el = .dword := by
  cases el <;> decide

/-- `mod = 11b` names a register (R74). -/
theorem isMem_of_takeRm {modrm : Byte} {bs rest : List Byte} {rm : RmField} (h : takeRm modrm bs = some (rm, rest))
    (h3 : bitsAt 6 2 modrm = 3#2) : rm.isMem = false := by
  simp only [takeRm, h3, if_true] at h
  cases h
  rfl

/-! ### Reserved EVEX encodings -/

/-- A reserved EVEX encoding is judged when it is whole, and raises #UD in 64-bit mode (R89 cases 4 to 10). -/
theorem decodeEvexBody_reserved {p0 p1 p2 modrm : Byte} {tail rest : List Byte} {rm : RmField} {el : Elem}
    (hmap : bitsAt 0 2 p0 = 1#2) (hpp : bitsAt 0 2 p1 = 1#2) (htake : takeRm modrm tail = some (rm, rest))
    (hreserved : evexReserved el p0 p1 p2 rm = true) :
    decodeEvexBody .mode64 [] p0 p1 p2 (el.opcode :: modrm :: tail) = .invalidOpcode := by
  simp [decodeEvexBody, hmap, hpp, htake, hreserved, Mode.is64]

/-- Settles O55: each of the conditions is one of `evexReserved`. -/
theorem reservedEvexEncodingsAreInvalid : Obligations.ReservedEvexEncodingsAreInvalid := by
  intro p0 p1 p2 op modrm tail rest rm hmap hpp hop htake hcases
  obtain ⟨el, rfl⟩ := opcode_of_mem hop
  rw [decode_62 (beginsPayload_mode64 p0)]
  refine decodeEvexBody_reserved hmap hpp htake ?_
  simp only [ne_eq, Elem.opcode_eq_76_iff] at hcases
  simp only [evexReserved, Bool.or_eq_true, Bool.and_eq_true, bne_iff_ne, beq_iff_eq, Bool.not_eq_true', bitsAt,
    evexRegExtended]
  obtain hbits | hbits | hw | hz | hll | ⟨hb, h3⟩ | ⟨hb, hel⟩ | hr | hr' := hcases
  case inr.inr.inr.inr.inr.inl =>
    have hreg := isMem_of_takeRm htake h3
    tauto
  case inr.inr.inr.inr.inr.inr.inl =>
    cases hmem : rm.isMem <;> tauto
  all_goals tauto

/-! ### VEX encodings -/

theorem rm_vexInstr (el : Elem) (l : Bool) (e : VexEnc) (reg : BitVec 3) (rm : RmField) :
    (vexInstr el l e reg rm).rm = rm := by
  cases el <;> cases l <;> rfl

theorem operandBytes_vexInstr (el : Elem) (l : Bool) (e : VexEnc) (reg : BitVec 3) (rm : RmField) :
    (vexInstr el l e reg rm).operandBytes = if l then 32 else 16 := by
  cases el <;> cases l <;> rfl

/-- In 64-bit mode a VEX payload of the family is a form whatever its fields. -/
theorem decodeVexBody_mode64 {modrm : Byte} {tail rest : List Byte} {rm : RmField}
    (htake : takeRm modrm tail = some (rm, rest)) (el : Elem) (vex : VexPayload) (l : Bool) :
    ∃ i, decodeVexBody .mode64 [] vex l true (el.opcode :: modrm :: tail) = .form i ∧ i.rm = rm ∧
      i.operandBytes = if l then 32 else 16 := by
  have hvex : vex.ok .mode64 = true := by cases vex <;> rfl
  refine ⟨vexInstr el l ⟨[], vex⟩ (bitsAt 3 3 modrm) rm, ?_, rm_vexInstr .., operandBytes_vexInstr ..⟩
  simp only [decodeVexBody, elemOf_opcode, htake, hvex]
  exact (finish_eq_form_iff (m := .mode64) (pre := []) (rm := rm)).mpr ⟨⟨rfl, rfl⟩, rfl⟩

/-- Settles O56: `decodeVexBody_mode64` for the two prefixes. -/
theorem everyVexEncodingIsAForm : Obligations.EveryVexEncodingIsAForm := by
  intro p p0 p1 op modrm tail rest rm hop htake
  obtain ⟨el, rfl⟩ := opcode_of_mem hop
  refine ⟨fun hpp => ?two, fun hmap hpp => ?three⟩
  case two =>
    have hfamily : (bitsAt 0 2 p == 1#2) = true := beq_iff_eq.mpr hpp
    rw [decode_C5 (beginsPayload_mode64 p), hfamily]
    exact decodeVexBody_mode64 htake el _ _
  case three =>
    have hfamily : (bitsAt 0 5 p0 == 1#5 && bitsAt 0 2 p1 == 1#2) = true := by simp [bitsAt, hmap, hpp]
    rw [decode_C4 (beginsPayload_mode64 p0), hfamily]
    exact decodeVexBody_mode64 htake el _ _

/-! ### Mode32 -/

theorem beginsPayload_mode32_iff {p : Byte} : beginsPayload .mode32 p = true ↔ p.extractLsb' 6 2 = 3#2 :=
  beq_iff_eq

theorem not_vexThree_ok_mode32 {p0 p1 : Byte} (h : p0.getLsbD 5 = false ∨ p1.getLsbD 6 = false) :
    (vexThree p0 p1).ok .mode32 = false := by
  have hvvvv : (~~~(bitsAt 3 4 p1)).getLsbD 3 = !p1.getLsbD 6 := by simp [bitsAt]
  simp only [vexThree, VexPayload.ok, Mode.is64, hvvvv]
  obtain h | h := h <;> rw [h] <;> simp

theorem evex_extension_mode32 {p0 p1 p2 : Byte}
    (h : p0.getLsbD 5 = false ∨ p0.getLsbD 4 = false ∨ p1.getLsbD 6 = false ∨ p2.getLsbD 3 = false) :
    (evexRegExtended p0 || !(evexEncOf [] p0 p1 p2).extOk .mode32) = true := by
  have hvvvv : (~~~(bitsAt 3 4 p1)).getLsbD 3 = !p1.getLsbD 6 := by simp [bitsAt]
  simp only [evexRegExtended, evexEncOf, EvexEnc.extOk, Mode.is64, hvvvv]
  obtain h | h | h | h := h <;> rw [h] <;> simp

/-- Settles O57: the byte that begins no payload, and the extension bits of C4 and of 62. -/
theorem mode32RefusesExtensionBits : Obligations.Mode32RefusesExtensionBits := by
  refine ⟨?begins, ?vex, ?evex⟩
  case begins =>
    intro b p tail hb hp
    exact decode_of_not_beginsPayload hb (Bool.not_eq_true _ ▸ mt beginsPayload_mode32_iff.mp hp) tail
  case vex =>
    intro p0 p1 op modrm tail rest rm hop htake h76 hmap hpp hext
    obtain ⟨el, rfl⟩ := opcode_of_mem hop
    rw [decode_C4 (beginsPayload_mode32_iff.mpr h76)]
    simp [decodeVexBody, bitsAt, hmap, hpp, htake, not_vexThree_ok_mode32 hext]
  case evex =>
    intro p0 p1 p2 op modrm tail rest rm hop htake h76 hmap hpp hext
    obtain ⟨el, rfl⟩ := opcode_of_mem hop
    rw [decode_62 (beginsPayload_mode32_iff.mpr h76)]
    simp only [decodeEvexBody, bitsAt, hmap, hpp, elemOf_opcode, htake, evex_extension_mode32 hext]
    rfl

theorem vecNum4_false_lt (r : BitVec 3) : (vecNum4 false r).toNat < 8 := by
  revert r
  decide

theorem num4_false_lt (r : BitVec 3) : (num4 false r).toNat < 8 := by
  revert r
  decide

theorem src2_false_lt (r : BitVec 3) : (bit1 false ++ bit1 false ++ r).toNat < 8 := by
  revert r
  decide

theorem src1_lt_of_vvvv {vvvv : BitVec 4} (h : vvvv.getLsbD 3 = false) : (0#1 ++ vvvv).toNat < 8 := by
  revert vvvv
  decide

/-- Settles O58: in Mode32 every extension bit of a well-formed encoding is 0. -/
theorem mode32NamesEightRegisters : Obligations.Mode32NamesEightRegisters := by
  refine ⟨fun e xmm rm r hok => ?legacy, fun e rm r hok => ?vex, fun e dword rm r hok => ?evex⟩
  case legacy =>
    have hrex : e.rex = none := by simp_all [LegacyEnc.ok, Mode.is64]
    have hr : e.r = false := by rw [LegacyEnc.r, hrex]
    have hx : e.x = false := by rw [LegacyEnc.x, hrex]
    have hb : e.b = false := by rw [LegacyEnc.b, hrex]
    rw [hr, hx, hb]
    exact ⟨vecNum4_false_lt r, vecNum4_false_lt r, num4_false_lt r, num4_false_lt r⟩
  case vex =>
    have hvex : e.vex.r = false ∧ e.vex.x = false ∧ e.vex.b = false ∧ e.vex.vvvv.getLsbD 3 = false := by
      obtain ⟨pre, vex⟩ := e
      cases vex <;>
        simp_all [VexEnc.ok, VexPayload.ok, VexPayload.r, VexPayload.x, VexPayload.b, VexPayload.vvvv, Mode.is64]
    obtain ⟨hr, hx, hb, hvvvv⟩ := hvex
    rw [hr, hx, hb]
    exact ⟨vecNum4_false_lt r, vecNum4_false_lt r, src1_lt_of_vvvv hvvvv, num4_false_lt r, num4_false_lt r⟩
  case evex =>
    have hext : e.x = false ∧ e.b = false ∧ e.v' = false ∧ e.vvvv.getLsbD 3 = false := by
      simp_all [EvexEnc.ok, EvexEnc.extOk, Mode.is64]
    obtain ⟨hx, hb, hv', hvvvv⟩ := hext
    rw [EvexEnc.src1, EvexEnc.src2, hx, hb, hv']
    exact ⟨src1_lt_of_vvvv hvvvv, src2_false_lt r, num4_false_lt r, num4_false_lt r⟩

/-- Settles O60: the decoder run on the four words. -/
theorem workedWordsDecode : Obligations.WorkedWordsDecode := by
  unfold Obligations.WorkedWordsDecode
  decide

end Sys2Proof
end

section
/-! Launch, fetch and one step (R10, R16, R25, R63, R92). In an admitted launch a step is the decoder's answer
(`step_of_launch`), and the decoder reads the instruction whose bytes stand at `pc` (`State.fetch_of_held`). -/

namespace Sys2Proof.Machine

variable {s : State}

/-! ### Where code may be -/

theorem State.codeAddress_of_mode64 (h : s.mode = .mode64) (a : Nat) :
    s.codeAddress a = (decide (a < 2 ^ 64) && isCanonical s.config.linearBits (BitVec.ofNat 64 a)) := by
  simp [State.codeAddress, h, Mode.is64]

theorem State.codeAddress_of_mode32 (h : s.mode = .mode32) (a : Nat) : s.codeAddress a = decide (a < 2 ^ 32) := by
  simp [State.codeAddress, h, Mode.is64]

/-- An address is canonical when every bit from the top one that counts is that bit (R57). -/
theorem isCanonical_succ_iff {n : Nat} (hn : n < 64) (a : Word64) :
    isCanonical (n + 1) a = true ↔ ∀ i < 64 - n, a.getLsbD (n + i) = a.getLsbD n := by
  rw [isCanonical, beq_iff_eq, BitVec.eq_of_getLsbD_eq_iff]
  have hbit {i : Nat} (hi : i < 64) : ((a.setWidth (n + 1)).signExtend 64).getLsbD i =
      if i < n + 1 then a.getLsbD i else a.getLsbD n := by
    rw [BitVec.getLsbD_signExtend, BitVec.msb_setWidth]
    by_cases hlow : i < n + 1 <;> simp [hi, hlow]
  constructor
  · intro h i hi
    have hat := h (n + i) (by omega)
    rw [hbit (by omega)] at hat
    split_ifs at hat with hlow
    · rw [show n + i = n by omega]
    · exact hat.symm
  · intro h i hi
    rw [hbit hi]
    split_ifs with hlow
    · rfl
    · rw [← h (i - n) (by omega), show n + (i - n) = i by omega]

/-- Bits that are all equal are all 0 or all 1. -/
theorem extractLsb'_eq_zero_or_allOnes_iff {w : Nat} (a : BitVec w) (lo n : Nat) :
    (a.extractLsb' lo (n + 1) = 0#(n + 1) ∨ a.extractLsb' lo (n + 1) = BitVec.allOnes (n + 1)) ↔
      ∀ i < n + 1, a.getLsbD (lo + i) = a.getLsbD lo := by
  simp only [BitVec.eq_of_getLsbD_eq_iff, BitVec.getLsbD_extractLsb', BitVec.getLsbD_zero, BitVec.getLsbD_allOnes]
  constructor
  · rintro (h | h) i hi
    · have h0 := h 0 (by omega)
      have hi' := h i hi
      simp_all
    · have h0 := h 0 (by omega)
      have hi' := h i hi
      simp_all
  · intro h
    cases hlo : a.getLsbD lo with
    | false => exact .inl fun i hi => by simp [h i hi, hlo]
    | true => exact .inr fun i hi => by simp [hi, h i hi, hlo]

/-- Settles O8: `isCanonical_succ_iff` at 48 bits, and `State.codeAddress_lt`. -/
theorem codeAddressesAreCanonical : Obligations.CodeAddressesAreCanonical := by
  refine fun s a => ⟨fun hmode => ?mode32, fun hmode hbits => ?mode64, fun n hn => ?outside⟩
  case mode32 => rw [State.codeAddress_of_mode32 hmode, decide_eq_true_iff]
  case mode64 =>
    rw [State.codeAddress_of_mode64 hmode, hbits, BitVec.ofNat_toNat, decide_eq_true a.isLt, Bool.true_and,
      BitVec.setWidth_eq, isCanonical_succ_iff (by omega)]
    exact (extractLsb'_eq_zero_or_allOnes_iff a 47 16).symm
  case outside =>
    rw [← Bool.not_eq_true]
    exact fun h => absurd (s.codeAddress_lt h) (by omega)

/-! ### Launches that are not admitted -/

/-- What a refused launch or a code address out of range does to every instruction: nothing (R16). -/
theorem exec_of_stepRefusal {i : Instr} {r : Refusal} (h : s.stepRefusal i.length = some r) :
    exec i s = .refused r := by
  obtain ⟨L, src, write, hexec, -⟩ := exec_shape i s
  simp [hexec, State.execute, State.formStop, h, Stop.outcome]

theorem step_of_launchRefusal {r : Refusal} (h : s.launchRefusal = some r) : step s = .refused r := by
  simp [step, h]

/-- Settles O6: the four causes are those of `State.launchRefusal`. -/
theorem unadmittedLaunchTakesNoStep : Obligations.UnadmittedLaunchTakesNoStep := by
  intro s hcause
  obtain ⟨r, hr⟩ : ∃ r, s.launchRefusal = some r := by
    rw [← Option.ne_none_iff_exists']
    intro hnone
    obtain ⟨hmode, halign, htf, hbreak⟩ := s.launchRefusal_eq_none_iff.mp hnone
    obtain ⟨h64, h32⟩ | hac | hstep | harmed := hcause
    · exact hmode.elim h64 h32
    · exact halign hac
    · exact Bool.false_ne_true (htf.symm.trans hstep)
    · exact Bool.false_ne_true (hbreak.symm.trans harmed)
  exact ⟨⟨r, step_of_launchRefusal hr⟩, fun i => ⟨r, exec_of_stepRefusal (by simp [State.stepRefusal, hr])⟩⟩

/-! ### An admitted launch -/

/-- Settles O3: `step_of_launch` where the decoder answers a form. -/
theorem stepRunsDecodedInstruction : Obligations.StepRunsDecodedInstruction := by
  intro s i hadmits hdecode
  rw [step_of_launch (s.launchRefusal_of_admits hadmits), hdecode]

theorem State.length_textFrom_le (s : State) (fuel a : Nat) : (s.textFrom fuel a).length ≤ fuel := by
  induction fuel generalizing a with
  | zero => rfl
  | succ fuel ih =>
    simp only [State.textFrom]
    split
    · split
      · exact Nat.succ_le_succ (ih (a + 1))
      · exact Nat.zero_le _
    · exact Nat.zero_le _

theorem State.length_fetch_le (s : State) : s.fetch.length ≤ 15 := s.length_textFrom_le _ _

/-- Settles O5: `step_of_launch` for each other answer of the decoder. -/
theorem stepOnOtherBytes : Obligations.StepOnOtherBytes := by
  intro s hadmits
  rw [step_of_launch (s.launchRefusal_of_admits hadmits)]
  have hlength := s.length_fetch_le
  refine ⟨fun h => by rw [h]; rfl, fun r h => by rw [h], fun h => by rw [h],
    fun h => ⟨fun hshort => ?_, fun hlong => ?_⟩⟩
  · simp only [h, maxLength, show ¬ s.fetch.length = 15 by omega, if_false]
  · simp only [h, maxLength, show s.fetch.length = 15 by omega, if_true]

/-- Settles O7: the launch is admitted, so the code range is what refuses. -/
theorem codeOutsideItsRangeIsRefused : Obligations.CodeOutsideItsRangeIsRefused := by
  intro s i j hadmits hj hout
  have hlaunch := s.launchRefusal_of_admits hadmits
  have hfits : s.codeFits i.length = false := by
    rw [← Bool.not_eq_true, s.codeFits_iff]
    exact fun h => Bool.false_ne_true (hout.symm.trans (h j hj))
  have hexec : exec i s = .refused .codeAddress :=
    exec_of_stepRefusal (by simp [State.stepRefusal, hlaunch, hfits])
  exact ⟨hexec, fun hdecode => (stepRunsDecodedInstruction s i hadmits hdecode).trans hexec⟩

/-- Bytes that the program text holds where code may be are fetched, whatever follows them. -/
theorem State.textFrom_of_held {bs : List Byte} {fuel a : Nat} (hlength : bs.length ≤ fuel)
    (hcode : ∀ k < bs.length, s.codeAddress (a + k) = true) (htext : ∀ k < bs.length, s.text.read (a + k) = bs[k]?) :
    s.textFrom fuel a = bs ++ s.textFrom (fuel - bs.length) (a + bs.length) := by
  induction bs generalizing fuel a with
  | nil => rfl
  | cons b bs ih =>
    obtain ⟨fuel, rfl⟩ : ∃ n, fuel = n + 1 := ⟨fuel - 1, by simp at hlength; omega⟩
    have hcode0 : s.codeAddress a = true := hcode 0 (by simp)
    have htext0 : s.text.read a = some b := htext 0 (by simp)
    have hrest := ih (fuel := fuel) (a := a + 1) (by simpa using hlength)
      (fun k hk => by rw [Nat.add_right_comm]; exact hcode (k + 1) (by simpa using hk))
      (fun k hk => by rw [Nat.add_right_comm]; exact htext (k + 1) (by simpa using hk))
    simp only [State.textFrom, hcode0, if_true, htext0, hrest, List.cons_append, List.length_cons]
    rw [Nat.add_sub_add_right, Nat.add_right_comm, Nat.add_assoc]

/-- Settles O4: the fetched bytes begin with the encoding, and the decoder reads it back whatever follows. -/
theorem stepRunsInstructionHeldAtPc : Obligations.StepRunsInstructionHeldAtPc := by
  intro s i hok hadmits hcode htext
  rw [← length_encode] at hcode htext
  have hlength : (encode i).length ≤ maxLength := length_encode i ▸ Instr.length_le_maxLength hok
  have hdecode : decode s.mode s.fetch = .form i := by
    rw [State.fetch, State.textFrom_of_held hlength hcode htext]
    exact decodeEncodeRoundTrip s.mode i _ hok
  exact stepRunsDecodedInstruction s i hadmits hdecode

end Sys2Proof.Machine
end

section
/-! Reset, and what one step keeps (R20, R25, R37). A completed instruction is one register write and then an advance
of `pc` (`exec_next`): the invariant is kept by each (`RegisterWrite.inv`, `State.Inv.advance`), and what a write
leaves alone is said by its class. -/

namespace Sys2Proof.Machine

/-! ### Reset (logs 2 and 3) -/

/-- Settles O1: every register is zero, both memories are empty, and `pc` is a canonical address. -/
theorem resetMeetsInvariant : Obligations.ResetMeetsInvariant where
  mem_wf := reset_memories_wf.1
  text_wf := reset_memories_wf.2
  mode_admitted := .inl rfl
  v_fits n j _ := by simp [State.reset]
  v_exists h := Bool.noConfusion h
  k_fits n j _ := by simp [State.reset]
  pc_ok := by decide

/-- After reset an EVEX form has no #UD cause: AVX512F is there, and with it every vector register. -/
theorem reset_udEvexForm {w vl : Nat} (hw : w ∈ [8, 16, 32]) (hvl : vl ∈ [128, 256, 512]) (e : EvexEnc)
    (rm : RmField) : State.reset.udEvexForm w vl e rm = false := by
  have hregisters : e.registersExist State.reset.config rm = true :=
    (EvexEnc.registersExist_iff ..).mpr ⟨.inl rfl, fun _ _ => .inl rfl⟩
  have hud : ∀ w ∈ [8, 16, 32], ∀ vl ∈ [128, 256, 512], State.reset.udEvex w vl = false := by decide
  rw [State.udEvexForm, hregisters, hud w hw vl hvl]
  rfl

/-- Settles O2: the conditions of each class, evaluated in the reset state. -/
theorem resetEnablesEveryForm : Obligations.ResetEnablesEveryForm := by
  refine ⟨?admits, ?mmx, ?xmm, ?vex128, ?vex256, fun w vl e rm hw hvl => ?evex⟩
  case admits => exact (State.stepRefusal_eq_none_iff _ _).mp (by decide)
  case mmx => exact (State.mmxReady_iff _).mpr (by decide)
  case xmm => exact (State.xmmReady_iff _).mpr (by decide)
  case vex128 => exact (State.vexReady_iff _ _).mpr (by decide)
  case vex256 => exact (State.vexReady_iff _ _).mpr (by decide)
  case evex => exact (State.evexReady_iff ..).mpr ⟨reset_udEvexForm hw hvl e rm, rfl⟩

/-! ### The invariant -/

variable {s t u : State} {i : Instr}

theorem MaxVl.le_bits (m : MaxVl) : 128 ≤ m.bits := by
  cases m <;> decide

/-- Writing a vector register that exists, with nothing beyond `MAXVL`, keeps the invariant. -/
theorem State.Inv.setVector (h : s.Inv) {n : BitVec 5} (hn : n.toNat < 16) {val : VecWord}
    (hval : ∀ j, s.config.maxVl.bits ≤ j → val.getLsbD j = false) :
    ({ s with v := s.v.set n.toNat val } : State).Inv where
  mem_wf := h.mem_wf
  text_wf := h.text_wf
  mode_admitted := h.mode_admitted
  v_fits m j hj := by
    simp only [Fin.getElem_fin, Vector.getElem_set]
    split
    · exact hval j hj
    · exact h.v_fits m j hj
  v_exists hf m hm := by
    simp only [Fin.getElem_fin, Vector.getElem_set, show n.toNat ≠ m.val by omega, if_false]
    exact h.v_exists hf m hm
  k_fits := h.k_fits
  pc_ok := h.pc_ok

/-- Writing an opmask register with nothing beyond `MAX_KL` keeps the invariant. -/
theorem State.Inv.setMask (h : s.Inv) {n : BitVec 3} {val : MaskWord}
    (hval : ∀ j, s.config.maxKl ≤ j → val.getLsbD j = false) :
    ({ s with k := s.k.set n.toNat val } : State).Inv where
  mem_wf := h.mem_wf
  text_wf := h.text_wf
  mode_admitted := h.mode_admitted
  v_fits := h.v_fits
  v_exists := h.v_exists
  k_fits m j hj := by
    simp only [Fin.getElem_fin, Vector.getElem_set]
    split
    · exact hval j hj
    · exact h.k_fits m j hj
  pc_ok := h.pc_ok

theorem Config.vl_le_of_hasVex {c : Config} {vl : Nat} (h : c.hasVex vl = true) : vl ≤ c.maxVl.bits := by
  simp only [Config.hasVex, Bool.and_eq_true, decide_eq_true_eq] at h
  exact h.2

theorem Config.kl_le_of_hasEvex {c : Config} {w vl : Nat} (h : c.hasEvex w vl = true) : vl / w ≤ c.maxKl := by
  simp only [Config.hasEvex, Bool.and_eq_true, decide_eq_true_eq] at h
  exact h.2

/-- A value of `n` bits, extended with zeros, has no bit from `n` up. -/
theorem getLsbD_setWidth_of_ge {n m j : Nat} (val : BitVec n) (h : n ≤ j) : (val.setWidth m).getLsbD j = false := by
  rw [BitVec.getLsbD_setWidth, BitVec.getLsbD_of_ge val j h, Bool.and_false]

/-- Each register write keeps the invariant: an x87 register is not in it, a legacy form keeps the bits above the 128
it writes, and the others write zeros above their width, which the configuration has. -/
theorem RegisterWrite.inv (h : RegisterWrite i s u) (hs : s.Inv) : u.Inv := by
  cases h with
  | mm hm he d val =>
    exact ⟨hs.mem_wf, hs.text_wf, hs.mode_admitted, hs.v_fits, hs.v_exists, hs.k_fits, hs.pc_ok⟩
  | xmm hm he n hn val =>
    refine hs.setVector hn fun j hj => ?_
    have hhigh := s.v_setXmm_high n val j ((MaxVl.le_bits _).trans hj)
    rw [State.setXmm_v, Vector.getElem_set_self] at hhigh
    exact hhigh.trans (hs.v_fits ⟨n.toNat, n.isLt⟩ j hj)
  | vec hm he vl hvl n hn val =>
    exact hs.setVector hn fun j hj => getLsbD_setWidth_of_ge val ((Config.vl_le_of_hasVex hvl).trans hj)
  | opmask hm he w vl hvl n val =>
    exact hs.setMask fun j hj => getLsbD_setWidth_of_ge val ((Config.kl_le_of_hasEvex hvl).trans hj)

/-- Moving `pc` to where code may be keeps the invariant. -/
theorem State.Inv.advance (h : s.Inv) {len : Nat} (hadmits : s.Admits len) : (s.advance len).Inv where
  mem_wf := h.mem_wf
  text_wf := h.text_wf
  mode_admitted := h.mode_admitted
  v_fits := h.v_fits
  v_exists := h.v_exists
  k_fits := h.k_fits
  pc_ok := by
    rw [s.pc_advance_toNat hadmits]
    exact hadmits.code_fits len (Nat.le_refl len)

/-- Whether a step is taken does not depend on the registers a form writes. -/
theorem RegisterWrite.admits (h : RegisterWrite i s u) {len : Nat} (hadmits : s.Admits len) : u.Admits len := by
  rw [h.frame]
  exact ⟨hadmits.mode_admitted, hadmits.alignment_off, hadmits.no_single_step, hadmits.no_breakpoint,
    hadmits.code_fits⟩

/-- Settles O9: the register write and the advance of `pc` each keep the invariant. -/
theorem stepKeepsInvariant : Obligations.StepKeepsInvariant := by
  intro s t hs hstep
  obtain ⟨i, -, hexec⟩ := step_next hstep
  obtain ⟨hadmits, -, -, -, u, hwrite, rfl⟩ := exec_next hexec
  exact (hwrite.inv hs).advance (hwrite.admits hadmits)

/-! ### What a step leaves alone -/

/-- Where only the destination files and `pc` differ, the rest is the same. -/
theorem State.sameRest_of_frame
    (h : t = { s with x87 := t.x87, x87sw := t.x87sw, x87tw := t.x87tw, v := t.v, k := t.k, pc := t.pc }) :
    s.SameRest t := by
  rw [h]
  exact ⟨rfl, rfl, rfl, rfl, rfl, rfl, rfl, rfl, rfl, rfl, rfl, rfl, rfl, rfl, fun _ => rfl, fun _ => rfl⟩

theorem exec_next_sameRest (h : exec i s = .next t) : s.SameRest t :=
  State.sameRest_of_frame (exec_next_frame h)

/-- A register write touches the files of its class alone. -/
theorem RegisterWrite.keeps_files (h : RegisterWrite i s u) :
    (i.isMmx = true → u.v = s.v ∧ u.k = s.k) ∧
      (i.isMmx = false → i.isEvex = false → u.x87 = s.x87 ∧ u.x87sw = s.x87sw ∧ u.x87tw = s.x87tw ∧ u.k = s.k) ∧
      (i.isEvex = true → u.x87 = s.x87 ∧ u.x87sw = s.x87sw ∧ u.x87tw = s.x87tw ∧ u.v = s.v) := by
  cases h <;> simp_all

/-- Settles O11: `exec_next_sameRest` and `RegisterWrite.keeps_files`. -/
theorem stepKeepsRest : Obligations.StepKeepsRest := by
  intro s t hstep
  obtain ⟨i, hdecode, hexec⟩ := step_next hstep
  obtain ⟨-, -, -, -, u, hwrite, ht⟩ := exec_next hexec
  refine ⟨exec_next_sameRest hexec, i, hdecode, ?_⟩
  rw [ht]
  exact hwrite.keeps_files

/-- A completed instruction moves `pc` past itself without wrapping (R25). -/
theorem exec_next_pc (h : exec i s = .next t) : t.pc.toNat = s.pc.toNat + i.length := by
  obtain ⟨hadmits, -, -, -, u, hwrite, rfl⟩ := exec_next h
  rw [u.pc_advance_toNat (hwrite.admits hadmits), hwrite.frame]

/-- Settles O12: `exec_next_pc` for the decoded instruction. -/
theorem stepAdvancesPcByLength : Obligations.StepAdvancesPcByLength := by
  intro s t hstep
  obtain ⟨i, hdecode, hexec⟩ := step_next hstep
  exact ⟨i, hdecode, by rw [length_encode, exec_next_pc hexec]⟩

end Sys2Proof.Machine
end

section
/-! What the forms of each class compute (R110 to R161). A class is one shared comparison, and its forms are that
comparison at a width and a length (`exec_of_mem_mmxForms` and its companions); what the comparison leaves in its
destination is said once for each class, and completion, equal registers and the relation of VEX and EVEX follow. -/

namespace Sys2Proof.Machine

/-! ### Splitting a wide compare (R115) -/

section
variable {w n1 n2 : Nat}

theorem lane_append_low (hi : BitVec (w * n2)) (lo : BitVec (w * n1)) {j : Nat} (hj : j < n1) :
    lane w (hi ++ lo) j = lane w lo j := by
  refine BitVec.eq_of_getLsbD_eq fun k hk => ?_
  have hin : w * j + k < w * n1 := (Nat.mul_add_lt_mul_of_lt_of_lt hj hk).trans_eq (Nat.mul_comm n1 w)
  simp [BitVec.getLsbD_append, hin]

theorem lane_append_high (hi : BitVec (w * n2)) (lo : BitVec (w * n1)) (j : Nat) :
    lane w (hi ++ lo) (n1 + j) = lane w hi j := by
  refine BitVec.eq_of_getLsbD_eq fun k hk => ?_
  have hout : w * (n1 + j) + k = w * n1 + (w * j + k) := by rw [Nat.mul_add, Nat.add_assoc]
  simp [BitVec.getLsbD_append, hout]

/-- A bit of the comparison of whole lanes says whether its lane is equal. -/
theorem getLsbD_eqLanes_mul {n i : Nat} (a b : BitVec (w * n)) (hi : i < w * n) :
    (eqLanes w a b).getLsbD i = laneEq w a b (i / w) := by
  have hw : 0 < w := Nat.pos_of_mul_pos_right (Nat.zero_lt_of_lt hi)
  rw [getLsbD_eqLanes, Nat.mul_div_cancel_left n hw, decide_eq_true hi, decide_eq_true (Nat.div_lt_of_lt_mul hi)]
  rfl

/-- Settles O16: a bit of the result lies in a lane of the low or of the high part. -/
theorem eqLanesSplitsAnywhere : Obligations.EqLanesSplitsAnywhere := by
  intro w n1 n2 aLo bLo aHi bHi
  refine BitVec.eq_of_getLsbD_eq fun i hi => ?_
  have hw : 0 < w := by
    rcases Nat.eq_zero_or_pos w with rfl | hw
    · simp at hi
    · exact hw
  have hlanes : i / w < (w * n2 + w * n1) / w := by
    rw [← Nat.mul_add, Nat.mul_div_cancel_left _ hw]
    exact Nat.div_lt_of_lt_mul (by rwa [Nat.mul_add])
  rw [getLsbD_eqLanes, decide_eq_true hi, decide_eq_true hlanes, BitVec.getLsbD_append]
  split
  case isTrue hlow =>
    have hj : i / w < n1 := Nat.div_lt_of_lt_mul hlow
    rw [getLsbD_eqLanes_mul aLo bLo hlow, laneEq, lane_append_low _ _ hj, lane_append_low _ _ hj]
    rfl
  case isFalse hhigh =>
    have hj : i / w = n1 + (i - w * n1) / w := by
      rw [← Nat.mul_add_div hw n1, Nat.add_sub_cancel' (Nat.le_of_not_lt hhigh)]
    rw [getLsbD_eqLanes_mul aHi bHi (by omega), hj, laneEq, lane_append_high, lane_append_high]
    rfl

end

theorem eqLanes_self {w L : Nat} (h : w ∣ L) (a : BitVec L) : eqLanes w a a = BitVec.allOnes L := by
  obtain ⟨n, rfl⟩ := h
  exact (eqLanes_eq_allOnes_iff a a).mpr rfl

/-! ### The forms of each class -/

section
variable {w vl kl : Nat} {mkLegacy : LegacyEnc → BitVec 3 → RmField → Instr}
  {mkVex : VexEnc → BitVec 3 → RmField → Instr} {mkEvex : EvexEnc → BitVec 3 → RmField → Instr}

/-- The MMX forms and the width of each. -/
theorem exec_of_mem_mmxForms (h : mkLegacy ∈ [Instr.pcmpeqbMm, Instr.pcmpeqwMm, Instr.pcmpeqdMm]) :
    ∃ w ∈ [8, 16, 32], ∀ e reg rm s, exec (mkLegacy e reg rm) s = s.compareMmx w e reg rm := by
  simp only [List.mem_cons, List.not_mem_nil, or_false] at h
  obtain rfl | rfl | rfl := h
  exacts [⟨8, by decide, fun _ _ _ _ => rfl⟩, ⟨16, by decide, fun _ _ _ _ => rfl⟩, ⟨32, by decide, fun _ _ _ _ => rfl⟩]

/-- The legacy XMM forms and the width of each. -/
theorem exec_of_mem_xmmForms (h : mkLegacy ∈ [Instr.pcmpeqbXmm, Instr.pcmpeqwXmm, Instr.pcmpeqdXmm]) :
    ∃ w ∈ [8, 16, 32], ∀ e reg rm s, exec (mkLegacy e reg rm) s = s.compareXmm w e reg rm := by
  simp only [List.mem_cons, List.not_mem_nil, or_false] at h
  obtain rfl | rfl | rfl := h
  exacts [⟨8, by decide, fun _ _ _ _ => rfl⟩, ⟨16, by decide, fun _ _ _ _ => rfl⟩, ⟨32, by decide, fun _ _ _ _ => rfl⟩]

/-- The VEX forms of 128 bits and the width of each. -/
theorem exec_of_mem_vex128Forms (h : mkVex ∈ [Instr.vpcmpeqbXmm, Instr.vpcmpeqwXmm, Instr.vpcmpeqdXmm]) :
    ∃ w ∈ [8, 16, 32], ∀ e reg rm s, exec (mkVex e reg rm) s = s.compareVex w 128 e reg rm := by
  simp only [List.mem_cons, List.not_mem_nil, or_false] at h
  obtain rfl | rfl | rfl := h
  exacts [⟨8, by decide, fun _ _ _ _ => rfl⟩, ⟨16, by decide, fun _ _ _ _ => rfl⟩, ⟨32, by decide, fun _ _ _ _ => rfl⟩]

/-- The VEX forms of 256 bits and the width of each. -/
theorem exec_of_mem_vex256Forms (h : mkVex ∈ [Instr.vpcmpeqbYmm, Instr.vpcmpeqwYmm, Instr.vpcmpeqdYmm]) :
    ∃ w ∈ [8, 16, 32], ∀ e reg rm s, exec (mkVex e reg rm) s = s.compareVex w 256 e reg rm := by
  simp only [List.mem_cons, List.not_mem_nil, or_false] at h
  obtain rfl | rfl | rfl := h
  exacts [⟨8, by decide, fun _ _ _ _ => rfl⟩, ⟨16, by decide, fun _ _ _ _ => rfl⟩, ⟨32, by decide, fun _ _ _ _ => rfl⟩]

/-- No EVEX form has more lanes than an opmask register has bits. -/
theorem evexForms_lanes (h : (w, vl, mkEvex) ∈ evexForms) : vl / w ≤ 64 := by
  simp only [evexForms, List.mem_cons, List.not_mem_nil, or_false, Prod.mk.injEq] at h
  obtain ⟨rfl, rfl, -⟩ | ⟨rfl, rfl, -⟩ | ⟨rfl, rfl, -⟩ | ⟨rfl, rfl, -⟩ | ⟨rfl, rfl, -⟩ | ⟨rfl, rfl, -⟩ | ⟨rfl, rfl, -⟩ |
    ⟨rfl, rfl, -⟩ | ⟨rfl, rfl, -⟩ := h <;> decide

/-- The EVEX forms by their number of lanes `KL` (R150). -/
theorem mem_evexForms_of_lanes
    (h : (kl, mkEvex) ∈ [(4, Instr.vpcmpeqdK128), (8, Instr.vpcmpeqdK256), (16, Instr.vpcmpeqdK512),
      (16, Instr.vpcmpeqbK128), (32, Instr.vpcmpeqbK256), (64, Instr.vpcmpeqbK512),
      (8, Instr.vpcmpeqwK128), (16, Instr.vpcmpeqwK256), (32, Instr.vpcmpeqwK512)]) :
    ∃ w vl, (w, vl, mkEvex) ∈ evexForms ∧ kl = vl / w := by
  simp only [List.mem_cons, List.not_mem_nil, or_false, Prod.mk.injEq] at h
  obtain ⟨rfl, rfl⟩ | ⟨rfl, rfl⟩ | ⟨rfl, rfl⟩ | ⟨rfl, rfl⟩ | ⟨rfl, rfl⟩ | ⟨rfl, rfl⟩ | ⟨rfl, rfl⟩ | ⟨rfl, rfl⟩ |
    ⟨rfl, rfl⟩ := h
  exacts [⟨32, 128, by simp [evexForms]⟩, ⟨32, 256, by simp [evexForms]⟩, ⟨32, 512, by simp [evexForms]⟩,
    ⟨8, 128, by simp [evexForms]⟩, ⟨8, 256, by simp [evexForms]⟩, ⟨8, 512, by simp [evexForms]⟩,
    ⟨16, 128, by simp [evexForms]⟩, ⟨16, 256, by simp [evexForms]⟩, ⟨16, 512, by simp [evexForms]⟩]

end

/-! ### What a completed comparison leaves -/

section
variable {s t : State} {w vl : Nat} {reg : BitVec 3} {rm : RmField}

@[simp] theorem State.mm_advance (len : Nat) (d : BitVec 3) : (s.advance len).mm d = s.mm d := rfl
@[simp] theorem State.vec_advance (len L : Nat) (n : BitVec 5) : (s.advance len).vec L n = s.vec L n := rfl

theorem State.vec_full (n : BitVec 5) : s.vec 512 n = s.v[n.toNat] := BitVec.setWidth_eq _

theorem State.compareMmx_next {e : LegacyEnc} (h : s.compareMmx w e reg rm = .next t) :
    ∃ src, s.mmxSource e rm = .ok src ∧ t.mm reg = eqLanes w (s.mm reg) src := by
  obtain ⟨-, src, hsrc, rfl⟩ := (s.execute_eq_next_iff ..).mp h
  exact ⟨src, hsrc, s.mm_setMm reg _⟩

theorem State.compareXmm_next {e : LegacyEnc} (h : s.compareXmm w e reg rm = .next t) :
    ∃ src, s.xmmSource e rm = .ok src ∧ t.vec 128 (e.dest reg) = eqLanes w (s.vec 128 (e.dest reg)) src := by
  obtain ⟨-, src, hsrc, rfl⟩ := (s.execute_eq_next_iff ..).mp h
  exact ⟨src, hsrc, s.vec_setXmm _ _⟩

theorem State.compareVex_next {e : VexEnc} (h : s.compareVex w vl e reg rm = .next t) :
    ∃ src, s.vexSource vl e rm = .ok src ∧
      t.vec 512 (e.dest reg) = (eqLanes w (s.vec vl e.src1) src).setWidth 512 := by
  obtain ⟨-, src, hsrc, rfl⟩ := (s.execute_eq_next_iff ..).mp h
  refine ⟨src, hsrc, ?_⟩
  rw [State.vec_advance, State.vec_full, State.setVec_v, Vector.getElem_set_self]

/-- The low bits of a register are the low bits of the whole of it. -/
theorem State.vec_eq_setWidth (L : Nat) (n : BitVec 5) : s.vec L n = (s.vec 512 n).setWidth L := by
  rw [State.vec_full]
  rfl

theorem State.compareEvex_next {e : EvexEnc} (h : s.compareEvex w vl e reg rm = .next t) :
    ∃ src, s.evexSource vl e rm = .ok src ∧
      t = (s.setOpmask reg (eqMask w (s.vec vl e.src1) src &&& s.writemask (vl / w) e)).advance (evexLength e rm) := by
  obtain ⟨-, src, hsrc, rfl⟩ := (s.execute_eq_next_iff ..).mp h
  exact ⟨src, hsrc, rfl⟩

/-- A bit of the writemask: 1 without one, else that of the opmask register it names (R86). -/
theorem State.getLsbD_writemask {kl : Nat} {e : EvexEnc} {j : Nat} :
    (s.writemask kl e).getLsbD j = true ↔ j < kl ∧ (e.aaa = 0#3 ∨ (s.opmask e.aaa).getLsbD j = true) := by
  rw [State.writemask]
  split
  next h => simp [h]
  next h => simp [h]

/-- A bit of the mask an EVEX form leaves: its lanes are equal and the writemask has it (R150). -/
theorem State.getLsbD_opmask_compareEvex (hkl : vl / w ≤ 64) {e : EvexEnc} {src : BitVec vl} {len j : Nat} :
    ((((s.setOpmask reg (eqMask w (s.vec vl e.src1) src &&& s.writemask (vl / w) e)).advance len).opmask
      reg).getLsbD j = true) ↔
      j < vl / w ∧ lane w (s.vec vl e.src1) j = lane w src j ∧ (e.aaa = 0#3 ∨ (s.opmask e.aaa).getLsbD j = true) := by
  rw [State.opmask_advance, State.opmask_setOpmask, BitVec.getLsbD_setWidth, BitVec.getLsbD_and, Bool.and_eq_true,
    Bool.and_eq_true, State.getLsbD_writemask, getLsbD_eqMask, Bool.and_eq_true, decide_eq_true_eq, decide_eq_true_eq,
    laneEq_iff]
  constructor
  · rintro ⟨-, ⟨hj, hlane⟩, -, hmask⟩
    exact ⟨hj, hlane, hmask⟩
  · rintro ⟨hj, hlane, hmask⟩
    exact ⟨by omega, ⟨hj, hlane⟩, hj, hmask⟩

end

/-! ### Completion (R120, R130, R140, R150) -/

section
variable {s : State} {i : Instr} {w vl : Nat} {reg : BitVec 3} {rm : RmField}

/-- Clearing TOP keeps the other bits of the status word (R28). -/
theorem clearTop_spec (sw : BitVec 16) :
    (sw &&& 0xC7FF#16).extractLsb' 11 3 = 0#3 ∧
      ∀ b, b < 11 ∨ 14 ≤ b → (sw &&& 0xC7FF#16).getLsbD b = sw.getLsbD b := by
  constructor
  · refine BitVec.eq_of_getLsbD_eq fun i hi => ?_
    have hzero : ∀ i < 3, (0xC7FF#16).getLsbD (11 + i) = false := by decide
    simp [hzero i hi]
  · intro b hb
    by_cases h16 : b < 16
    · have hone : ∀ b < 16, b < 11 ∨ 14 ≤ b → (0xC7FF#16).getLsbD b = true := by decide
      rw [BitVec.getLsbD_and, hone b h16 hb, Bool.and_true]
    · rw [BitVec.getLsbD_of_ge _ _ (Nat.le_of_not_lt h16), BitVec.getLsbD_of_ge _ _ (Nat.le_of_not_lt h16)]

theorem State.completesMmx {e : LegacyEnc} {src : BitVec 64} (hexec : exec i s = s.compareMmx w e reg rm)
    (hadmits : s.Admits (legacyLength e rm)) (hready : s.MmxReady) (hsrc : s.MmxOperand e rm src) :
    s.CompletesMmx i (legacyLength e rm) w reg src := by
  obtain ⟨hud, hts, hpending⟩ := s.mmxReady_iff.mp hready
  have hnext : exec i s = .next ((s.setMm reg (eqLanes w (s.mm reg) src)).advance (legacyLength e rm)) :=
    hexec.trans (s.execute_of_ready _ _ _ _ _ hadmits hud hts hpending (s.mmxSource_of_operand hsrc))
  obtain ⟨htop, hstatus⟩ := clearTop_spec s.x87sw
  refine ⟨_, hnext, ?result, s.x87_setMm_high reg _, ?others, htop, hstatus, rfl, fun _ => rfl, fun _ => rfl,
    s.pc_advance_toNat hadmits, exec_next_sameRest hnext⟩
  case result =>
    rw [State.mm_advance, State.mm_setMm]
    exact isEqLanes_eqLanes _ _
  case others =>
    intro n hn
    have hne : reg.toNat ≠ n.toNat := fun h => hn (BitVec.eq_of_toNat_eq h.symm)
    simp [State.x87Reg, Vector.getElem_set_ne _ _ hne]

theorem State.completesXmm {e : LegacyEnc} {src : BitVec 128} (hexec : exec i s = s.compareXmm w e reg rm)
    (hadmits : s.Admits (legacyLength e rm)) (hready : s.XmmReady) (hsrc : s.XmmOperand e rm src) :
    s.CompletesXmm i (legacyLength e rm) w (vecNum4 e.r reg) src := by
  obtain ⟨hud, hts⟩ := s.xmmReady_iff.mp hready
  have hnext : exec i s = .next ((s.setXmm (e.dest reg) (eqLanes w (s.vec 128 (e.dest reg)) src)).advance
      (legacyLength e rm)) :=
    hexec.trans (s.execute_of_ready _ _ _ _ _ hadmits hud hts rfl (s.xmmSource_of_operand hsrc))
  refine ⟨_, hnext, ?result, fun b hb => ?above, fun n hn => ?others, fun _ => rfl, ⟨fun _ => rfl, rfl, rfl⟩,
    s.pc_advance_toNat hadmits, exec_next_sameRest hnext⟩
  case result =>
    rw [← LegacyEnc.dest, State.vec_advance, State.vec_setXmm]
    exact isEqLanes_eqLanes _ _
  case above =>
    rw [State.vec_full, State.vec_full]
    exact s.v_setXmm_high _ _ b hb
  case others =>
    rw [State.vec_full, State.vec_full]
    exact s.v_setXmm_of_ne hn _

theorem State.completesVex (hvl : 8 ∣ vl) (h512 : vl ≤ 512) {e : VexEnc} {src : BitVec vl}
    (hexec : exec i s = s.compareVex w vl e reg rm) (hadmits : s.Admits (vexLength e rm)) (hready : s.VexReady vl)
    (hsrc : s.VexOperand vl e rm src) :
    s.CompletesVex i (vexLength e rm) w (vecNum4 e.vex.r reg) (s.vec vl (0#1 ++ e.vex.vvvv)) src := by
  obtain ⟨n, rfl⟩ := hvl
  obtain ⟨hud, hts⟩ := (s.vexReady_iff _).mp hready
  have hnext : exec i s = .next ((s.setVec (e.dest reg) (eqLanes w (s.vec (8 * n) e.src1) src)).advance
      (vexLength e rm)) :=
    hexec.trans (s.execute_of_ready _ _ _ _ _ hadmits hud hts rfl (s.vexSource_of_operand hsrc))
  refine ⟨_, hnext, ?result, fun b hb => ?above, fun n hn => ?others, fun _ => rfl, ⟨fun _ => rfl, rfl, rfl⟩,
    s.pc_advance_toNat hadmits, exec_next_sameRest hnext⟩
  case result =>
    rw [← VexEnc.dest, State.vec_advance, State.vec_setVec s h512]
    exact isEqLanes_eqLanes _ _
  case above =>
    rw [← VexEnc.dest, State.vec_full, State.advance_v, State.setVec_v, Vector.getElem_set_self]
    exact getLsbD_setWidth_of_ge _ hb
  case others =>
    rw [State.vec_full, State.vec_full]
    exact s.v_setVec_of_ne hn _

theorem State.completesEvex {mk : EvexEnc → BitVec 3 → RmField → Instr} (hmk : (w, vl, mk) ∈ evexForms) {e : EvexEnc}
    {src : BitVec vl} (hadmits : s.Admits (evexLength e rm)) (hready : s.EvexReady w vl e rm)
    (hsrc : s.EvexOperand vl e rm src) :
    s.CompletesEvex (mk e reg rm) (evexLength e rm) w reg e.aaa (s.vec vl (bit1 e.v' ++ e.vvvv)) src := by
  obtain ⟨hvl, hexec⟩ := exec_of_mem_evexForms hmk
  have hnext := (hexec e reg rm s).trans (State.compareEvex_of_ready hvl reg hadmits hready hsrc)
  have hbit := fun j => State.getLsbD_opmask_compareEvex (s := s) (reg := reg) (e := e) (src := src)
    (len := evexLength e rm) (j := j) (evexForms_lanes hmk)
  refine ⟨_, hnext, fun j hj => ?below, fun j hj => ?above, fun n hn => ?others, fun _ => rfl,
    ⟨fun _ => rfl, rfl, rfl⟩, s.pc_advance_toNat hadmits, exec_next_sameRest hnext⟩
  case below => exact (hbit j).trans (and_iff_right hj)
  case above =>
    rw [← Bool.not_eq_true, hbit j]
    exact fun h => absurd h.1 (Nat.not_lt.mpr hj)
  case others =>
    rw [State.opmask_advance, State.opmask_setOpmask_of_ne s hn]

end

/-- Settles O18: `State.completesMmx` at each width. -/
theorem mmxFormsComplete : Obligations.MmxFormsComplete :=
  fun _ _ _ _ _ hadmits hready hsrc =>
    ⟨State.completesMmx rfl hadmits hready hsrc, State.completesMmx rfl hadmits hready hsrc,
      State.completesMmx rfl hadmits hready hsrc⟩

/-- Settles O19: `State.completesXmm` at each width. -/
theorem xmmFormsComplete : Obligations.XmmFormsComplete :=
  fun _ _ _ _ _ hadmits hready hsrc =>
    ⟨State.completesXmm rfl hadmits hready hsrc, State.completesXmm rfl hadmits hready hsrc,
      State.completesXmm rfl hadmits hready hsrc⟩

/-- Settles O20: `State.completesVex` at 128 bits. -/
theorem vex128FormsComplete : Obligations.Vex128FormsComplete := by
  intro s e reg rm src hadmits hready hsrc
  have h {i : Instr} {w : Nat} (hexec : exec i s = s.compareVex w 128 e reg rm) :=
    State.completesVex (by decide) (by decide) hexec hadmits hready hsrc
  exact ⟨h rfl, h rfl, h rfl⟩

/-- Settles O21: `State.completesVex` at 256 bits. -/
theorem vex256FormsComplete : Obligations.Vex256FormsComplete := by
  intro s e reg rm src hadmits hready hsrc
  have h {i : Instr} {w : Nat} (hexec : exec i s = s.compareVex w 256 e reg rm) :=
    State.completesVex (by decide) (by decide) hexec hadmits hready hsrc
  exact ⟨h rfl, h rfl, h rfl⟩

/-- Settles O22: `State.completesEvex` for the doubleword forms. -/
theorem evexDoublewordFormsComplete : Obligations.EvexDoublewordFormsComplete :=
  fun _ _ _ _ hadmits =>
    ⟨fun _ hready hsrc => State.completesEvex (by simp [evexForms]) hadmits hready hsrc,
      fun _ hready hsrc => State.completesEvex (by simp [evexForms]) hadmits hready hsrc,
      fun _ hready hsrc => State.completesEvex (by simp [evexForms]) hadmits hready hsrc⟩

/-- Settles O23: `State.completesEvex` for the byte forms. -/
theorem evexByteFormsComplete : Obligations.EvexByteFormsComplete :=
  fun _ _ _ _ hadmits =>
    ⟨fun _ hready hsrc => State.completesEvex (by simp [evexForms]) hadmits hready hsrc,
      fun _ hready hsrc => State.completesEvex (by simp [evexForms]) hadmits hready hsrc,
      fun _ hready hsrc => State.completesEvex (by simp [evexForms]) hadmits hready hsrc⟩

/-- Settles O24: `State.completesEvex` for the word forms. -/
theorem evexWordFormsComplete : Obligations.EvexWordFormsComplete :=
  fun _ _ _ _ hadmits =>
    ⟨fun _ hready hsrc => State.completesEvex (by simp [evexForms]) hadmits hready hsrc,
      fun _ hready hsrc => State.completesEvex (by simp [evexForms]) hadmits hready hsrc,
      fun _ hready hsrc => State.completesEvex (by simp [evexForms]) hadmits hready hsrc⟩

end Sys2Proof.Machine
end

section
/-! What the result of a form depends on among the registers (R116, R141, R150, R160, R161): equal registers, the
writemask, and the relation of the EVEX mask to the VEX result. -/

namespace Sys2Proof.Machine

variable {s t : State} {w vl kl : Nat} {reg r : BitVec 3} {rm : RmField}

/-! ### A register compared with itself -/

theorem dvd_of_mem_widths {L : Nat} (hw : w ∈ [8, 16, 32]) (hL : 32 ∣ L) : w ∣ L := by
  have hdvd : ∀ w ∈ [8, 16, 32], w ∣ 32 := by decide
  exact (hdvd w hw).trans hL

theorem State.compareVex_self (hw : w ∈ [8, 16, 32]) (hvl : 32 ∣ vl) {e : VexEnc}
    (hsame : vecNum4 e.vex.b r = 0#1 ++ e.vex.vvvv) (h : s.compareVex w vl e reg (.reg r) = .next t) :
    t.vec 512 (vecNum4 e.vex.r reg) = (BitVec.allOnes vl).setWidth 512 := by
  obtain ⟨src, hsrc, ht⟩ := State.compareVex_next h
  cases hsrc
  rw [← VexEnc.dest, ht, hsame, ← VexEnc.src1, eqLanes_self (dvd_of_mem_widths hw hvl)]

/-- Settles O25: the second source is the first, so every lane is equal. -/
theorem sameRegisterComparesEqual : Obligations.SameRegisterComparesEqual := by
  refine ⟨fun mk hmk s t e reg hexec => ?mmx, fun mk hmk s t e reg r hsame hexec => ?xmm,
    fun mk hmk s t e reg r hsame hexec => ?vex128, fun mk hmk s t e reg r hsame hexec => ?vex256,
    fun kl mk hmk s t e reg r hsame hexec j => ?evex⟩
  case mmx =>
    obtain ⟨w, hw, hcompare⟩ := exec_of_mem_mmxForms hmk
    obtain ⟨src, hsrc, ht⟩ := State.compareMmx_next (hcompare .. ▸ hexec)
    cases hsrc
    rw [ht, eqLanes_self (dvd_of_mem_widths hw (by decide))]
  case xmm =>
    obtain ⟨w, hw, hcompare⟩ := exec_of_mem_xmmForms hmk
    obtain ⟨src, hsrc, ht⟩ := State.compareXmm_next (hcompare .. ▸ hexec)
    cases hsrc
    rw [← LegacyEnc.dest, ht, hsame, ← LegacyEnc.dest, eqLanes_self (dvd_of_mem_widths hw (by decide))]
  case vex128 =>
    obtain ⟨w, hw, hcompare⟩ := exec_of_mem_vex128Forms hmk
    exact State.compareVex_self hw (by decide) hsame (hcompare .. ▸ hexec)
  case vex256 =>
    obtain ⟨w, hw, hcompare⟩ := exec_of_mem_vex256Forms hmk
    exact State.compareVex_self hw (by decide) hsame (hcompare .. ▸ hexec)
  case evex =>
    obtain ⟨w, vl, hform, rfl⟩ := mem_evexForms_of_lanes hmk
    obtain ⟨-, hcompare⟩ := exec_of_mem_evexForms hform
    obtain ⟨src, hsrc, rfl⟩ := State.compareEvex_next (hcompare .. ▸ hexec)
    cases hsrc
    rw [State.getLsbD_opmask_compareEvex (evexForms_lanes hform), hsame, eq_self, true_and]

/-! ### The writemask -/

/-- Settles O27: the checks and the second source read no opmask register, and the mask that is written only the bits
of the writemask. -/
theorem onlyTheWritemaskIsRead : Obligations.OnlyTheWritemaskIsRead := by
  intro kl mk hmk s t e reg rm k' hexec hmask
  obtain ⟨w, vl, hform, rfl⟩ := mem_evexForms_of_lanes hmk
  obtain ⟨-, hcompare⟩ := exec_of_mem_evexForms hform
  rw [hcompare] at hexec
  obtain ⟨hstop, src, hsrc, rfl⟩ := (s.execute_eq_next_iff ..).mp hexec
  have hsrc' : ({ s with k := k' } : State).evexSource vl e rm = .ok src := by
    rw [← hsrc]
    cases rm <;> rfl
  refine ⟨_, (hcompare ..).trans ((State.execute_eq_next_iff ..).mpr ⟨hstop, src, hsrc', rfl⟩), ?_⟩
  refine BitVec.eq_of_getLsbD_eq fun j _ => Bool.eq_iff_iff.mpr ?_
  have hlanes := evexForms_lanes hform
  rw [State.getLsbD_opmask_compareEvex hlanes, State.getLsbD_opmask_compareEvex hlanes]
  refine and_congr_right fun hj => and_congr_right fun _ => ?_
  obtain hnone | hbits := hmask
  · simp [hnone]
  · rw [hbits j hj]

/-! ### EVEX and VEX (R161) -/

/-- Widths, lengths and constructors of the VEX forms with an EVEX form of the same width and length. -/
theorem exec_of_mem_vexEvexForms {mkVex : VexEnc → BitVec 3 → RmField → Instr}
    {mkEvex : EvexEnc → BitVec 3 → RmField → Instr}
    (h : (w, vl, mkVex, mkEvex) ∈
      [(8, 128, Instr.vpcmpeqbXmm, Instr.vpcmpeqbK128), (16, 128, Instr.vpcmpeqwXmm, Instr.vpcmpeqwK128),
       (32, 128, Instr.vpcmpeqdXmm, Instr.vpcmpeqdK128), (8, 256, Instr.vpcmpeqbYmm, Instr.vpcmpeqbK256),
       (16, 256, Instr.vpcmpeqwYmm, Instr.vpcmpeqwK256), (32, 256, Instr.vpcmpeqdYmm, Instr.vpcmpeqdK256)]) :
    0 < w ∧ vl ≤ 512 ∧ (w, vl, mkEvex) ∈ evexForms ∧
      ∀ e reg rm s, exec (mkVex e reg rm) s = s.compareVex w vl e reg rm := by
  simp only [List.mem_cons, List.not_mem_nil, or_false, Prod.mk.injEq] at h
  obtain ⟨rfl, rfl, rfl, rfl⟩ | ⟨rfl, rfl, rfl, rfl⟩ | ⟨rfl, rfl, rfl, rfl⟩ | ⟨rfl, rfl, rfl, rfl⟩ |
    ⟨rfl, rfl, rfl, rfl⟩ | ⟨rfl, rfl, rfl, rfl⟩ := h <;>
  exact ⟨by decide, by decide, by simp [evexForms], fun _ _ _ _ => rfl⟩

/-- The lanes that a VEX form leaves in its destination. -/
theorem State.vec_of_compareVex (h512 : vl ≤ 512) {e : VexEnc} {src : BitVec vl}
    (h : s.compareVex w vl e reg rm = .next t) (hsrc : s.vexSource vl e rm = .ok src) :
    t.vec vl (vecNum4 e.vex.r reg) = eqLanes w (s.vec vl e.src1) src := by
  obtain ⟨src', hsrc', ht⟩ := State.compareVex_next h
  obtain rfl : src = src' := Except.ok.inj (hsrc.symm.trans hsrc')
  rw [← VexEnc.dest, State.vec_eq_setWidth, ht, BitVec.setWidth_setWidth_of_le _ h512, BitVec.setWidth_eq]

/-- Settles O28: mask bit and lane all ones each say that the lanes of the sources are equal. -/
theorem evexMaskMatchesVexLanes : Obligations.EvexMaskMatchesVexLanes := by
  intro w vl mkVex mkEvex hmk s t t' e e' reg reg' rm rm' src hsame hvex hevex haaa hexec hexec'
  obtain ⟨hw, h512, hform, hcompare⟩ := exec_of_mem_vexEvexForms hmk
  obtain ⟨⟨n, hn⟩, hcompare'⟩ := exec_of_mem_evexForms hform
  obtain rfl : vl = 8 * (4 * n) := by omega
  rw [hcompare] at hexec
  rw [hcompare'] at hexec'
  have hlanes := State.vec_of_compareVex h512 hexec (s.vexSource_of_operand hvex)
  obtain ⟨src', hsrc', rfl⟩ := State.compareEvex_next hexec'
  obtain rfl : src = src' := Except.ok.inj ((s.evexSource_of_operand hevex).symm.trans hsrc')
  refine ⟨fun j hj => ?_, fun _ => rfl⟩
  have hin : w * (j + 1) ≤ 8 * (4 * n) := by
    rw [Nat.mul_comm]
    exact (Nat.le_div_iff_mul_le hw).mp hj
  rw [State.getLsbD_opmask_compareEvex (evexForms_lanes hform), hlanes, lane_eqLanes_eq_allOnes_iff hin,
    VexEnc.src1, EvexEnc.src1, ← hsame]
  simp [hj, haaa]

end Sys2Proof.Machine
end

section
/-! When the forms fault and with what (R171 to R184). An exception has one vector and one error code (`raise_codes`);
in an admitted launch #UD is exactly `State.udInstr` (`exec_eq_invalidOpcode_iff`), and what stops the operand's read
is the alignment check and then the answer of `Translate` (`State.operandStop_of_misaligned`,
`State.operandStop_of_query`). -/

namespace Sys2Proof.Machine

variable {s : State} {i : Instr} {f : Fault}

/-! ### Vectors and error codes -/

/-- The bits of a page-fault error code (R171; log 12). -/
theorem pageFaultCode_bits (p r k : Bool) (cpl : BitVec 2) :
    (pageFaultCode p r k cpl).getLsbD 0 = p ∧ (pageFaultCode p r k cpl).getLsbD 1 = false ∧
      ((pageFaultCode p r k cpl).getLsbD 2 = true ↔ cpl = 3#2) ∧ (pageFaultCode p r k cpl).getLsbD 3 = r ∧
      (pageFaultCode p r k cpl).getLsbD 4 = false ∧ (pageFaultCode p r k cpl).getLsbD 5 = k := by
  revert p r k cpl
  decide

/-- The vector and the error code of an exception taken (R171). -/
theorem raise_codes {e : Exception} (h : raise e s = .fault f) :
    (f.errorCode = none ∧ (f.vector = 6 ∨ f.vector = 7 ∨ f.vector = 16)) ∨
      (f.errorCode = some 0#32 ∧ (f.vector = 12 ∨ f.vector = 13)) ∨
      ∃ p r k, f.errorCode = some (pageFaultCode p r k s.cpl) ∧ f.vector = 14 := by
  cases e with
  | invalidOpcode => cases h; exact .inl ⟨rfl, .inl rfl⟩
  | deviceNotAvailable => cases h; exact .inl ⟨rfl, .inr (.inl rfl)⟩
  | x87FloatingPoint => cases h; exact .inl ⟨rfl, .inr (.inr rfl)⟩
  | stackSegment => cases h; exact .inr (.inl ⟨rfl, .inl rfl⟩)
  | generalProtection => cases h; exact .inr (.inl ⟨rfl, .inr rfl⟩)
  | pageFault p r k addr => cases h; exact .inr (.inr ⟨p, r, k, rfl, rfl⟩)

/-- Settles O35: a step and an instruction fault by an exception taken in the state they start in (`raise_codes`). -/
theorem faultVectorsAndErrorCodes : Obligations.FaultVectorsAndErrorCodes := by
  intro s f hfault
  obtain ⟨e, hraise⟩ : ∃ e, raise e s = .fault f := hfault.elim step_fault fun ⟨_, hexec⟩ => exec_fault hexec
  obtain ⟨hcode, hvector⟩ | ⟨hcode, hvector⟩ | ⟨p, r, k, hcode, hvector⟩ := raise_codes hraise
  · exact ⟨by omega, fun _ => hcode, fun h => by omega, fun h => by omega⟩
  · exact ⟨by omega, fun h => by omega, fun _ => hcode, fun h => by omega⟩
  · obtain ⟨-, hwr, hus, -, hid, -⟩ := pageFaultCode_bits p r k s.cpl
    exact ⟨by omega, fun h => by omega, fun h => by omega, fun _ => ⟨_, hcode, hwr, hid, hus⟩⟩

/-! ### #UD -/

theorem raise_eq_invalidOpcode_iff {e : Exception} {s' : State} :
    raise e s = .fault (.invalidOpcode s') ↔ e = .invalidOpcode ∧ s = s' := by
  cases e <;> simp [raise]

/-- The read of an operand does not raise #UD (R171). -/
theorem State.operandStop_ne_invalidOpcode : s.operandStop i ≠ some (.exception .invalidOpcode) := by
  rw [State.operandStop]
  cases i.rm with
  | reg r => simp [State.rmStop]
  | mem m =>
    simp only [State.rmStop]
    split
    next => simp
    next => cases s.translate (s.operandQuery i.addressEnc i.length m i.operandBytes) <;> simp [Answer.stop]

/-- In an admitted launch an instruction raises #UD exactly by its own conditions (R172 to R176). -/
theorem exec_eq_invalidOpcode_iff (h : s.Admits i.length) :
    exec i s = .fault (.invalidOpcode s) ↔ s.udInstr i = true := by
  have hstop : s.instrStop i = some (.exception .invalidOpcode) ↔ s.udInstr i = true := by
    have hoperand := s.operandStop_ne_invalidOpcode (i := i)
    rw [State.instrStop_of_admits h]
    split_ifs <;> simp_all
  simp only [exec_eq_fault_iff, raise_eq_invalidOpcode_iff, ← hstop]
  exact ⟨fun ⟨_, h, he, _⟩ => he ▸ h, fun h => ⟨_, h, rfl, trivial⟩⟩

theorem State.udMmx_iff : s.udMmx = true ↔ s.cr0.getLsbD 2 = true ∨ s.config.features.mmx = false := by
  rw [State.udMmx, Bool.or_eq_true, Bool.not_eq_true']
  rfl

theorem State.udXmm_iff :
    s.udXmm = true ↔ s.cr0.getLsbD 2 = true ∨ s.cr4.getLsbD 9 = false ∨ s.config.features.sse2 = false := by
  rw [State.udXmm, Bool.or_eq_true, Bool.or_eq_true, Bool.not_eq_true', Bool.not_eq_true', or_assoc]
  rfl

theorem State.avxEnabled_eq_false_iff :
    s.avxEnabled = false ↔ s.xcr0.getLsbD 1 = false ∨ s.xcr0.getLsbD 2 = false := by
  rw [← Bool.not_eq_true, s.avxEnabled_iff, not_and_or, Bool.not_eq_true, Bool.not_eq_true]

theorem State.avx512Enabled_eq_false_iff :
    s.avx512Enabled = false ↔
      s.xcr0.getLsbD 5 = false ∨ s.xcr0.getLsbD 6 = false ∨ s.xcr0.getLsbD 7 = false := by
  rw [← Bool.not_eq_true, s.avx512Enabled_iff, not_and_or, not_and_or, Bool.not_eq_true, Bool.not_eq_true,
    Bool.not_eq_true]

theorem Config.hasVex_eq_false_iff {c : Config} {vl : Nat} (hvl : vl = 128 ∨ vl = 256) :
    c.hasVex vl = false ↔
      (vl = 128 ∧ c.features.avx = false) ∨ (vl = 256 ∧ c.features.avx2 = false) ∨ c.maxVl.bits < vl := by
  simp only [Config.hasVex, Bool.and_eq_false_iff, decide_eq_false_iff_not, Nat.not_le]
  obtain rfl | rfl := hvl <;> simp

theorem State.udVex_iff {vl : Nat} (hvl : vl = 128 ∨ vl = 256) :
    s.udVex vl = true ↔
      s.cr4.getLsbD 18 = false ∨ s.xcr0.getLsbD 1 = false ∨ s.xcr0.getLsbD 2 = false ∨
        (vl = 128 ∧ s.config.features.avx = false) ∨ (vl = 256 ∧ s.config.features.avx2 = false) ∨
        s.config.maxVl.bits < vl := by
  rw [← Config.hasVex_eq_false_iff hvl]
  simp only [State.udVex, Bool.or_eq_true, Bool.not_eq_true', State.avxEnabled_eq_false_iff, or_assoc]
  rfl

theorem Config.hasEvex_eq_false_iff {c : Config} {w vl : Nat} :
    c.hasEvex w vl = false ↔
      (w = 32 ∧ c.features.avx512f = false) ∨ (w ≠ 32 ∧ c.features.avx512bw = false) ∨
        (vl ≠ 512 ∧ c.features.avx512vl = false) ∨ c.maxVl.bits < vl ∨ c.maxKl < vl / w := by
  simp only [Config.hasEvex, Bool.and_eq_false_iff, Bool.or_eq_false_iff, decide_eq_false_iff_not, Nat.not_le, or_assoc]
  by_cases hw : w = 32 <;> simp [hw]

theorem EvexEnc.registersExist_eq_false_iff {c : Config} {e : EvexEnc} {rm : RmField} :
    e.registersExist c rm = false ↔
      c.features.avx512f = false ∧ (16 ≤ e.src1.toNat ∨ ∃ r, rm = .reg r ∧ 16 ≤ (e.src2 r).toNat) := by
  rw [← Bool.not_eq_true, EvexEnc.registersExist_iff]
  cases c.features.avx512f with
  | true => simp
  | false => simp [imp_iff_not_or]

theorem State.udEvexForm_iff {w vl : Nat} {e : EvexEnc} {rm : RmField} :
    s.udEvexForm w vl e rm = true ↔
      s.cr4.getLsbD 18 = false ∨ (∃ b ∈ [1, 2, 5, 6, 7], s.xcr0.getLsbD b = false) ∨
        (w = 32 ∧ s.config.features.avx512f = false) ∨ (w ≠ 32 ∧ s.config.features.avx512bw = false) ∨
        (vl ≠ 512 ∧ s.config.features.avx512vl = false) ∨ s.config.maxVl.bits < vl ∨ s.config.maxKl < vl / w ∨
        (s.config.features.avx512f = false ∧
          (16 ≤ e.src1.toNat ∨ ∃ r, rm = .reg r ∧ 16 ≤ (e.src2 r).toNat)) := by
  have hxcr0 : (∃ b ∈ [1, 2, 5, 6, 7], s.xcr0.getLsbD b = false) ↔
      s.avxEnabled = false ∨ s.avx512Enabled = false := by
    rw [s.avxEnabled_eq_false_iff, s.avx512Enabled_eq_false_iff]
    simp only [List.exists_mem_cons_iff, List.not_mem_nil, false_and, exists_false, or_false, or_assoc]
  have hfeatures := Config.hasEvex_eq_false_iff (c := s.config) (w := w) (vl := vl)
  have hud : s.udEvexForm w vl e rm = true ↔
      s.cr4.getLsbD 18 = false ∨ (s.avxEnabled = false ∨ s.avx512Enabled = false) ∨ s.config.hasEvex w vl = false ∨
        e.registersExist s.config rm = false := by
    simp only [State.udEvexForm, State.udEvex, Bool.or_eq_true, Bool.not_eq_true', or_assoc]
    rfl
  rw [hud, hxcr0, hfeatures, EvexEnc.registersExist_eq_false_iff]
  simp only [or_assoc]

/-- Settles O36: `exec_eq_invalidOpcode_iff` and `State.udMmx_iff`. -/
theorem mmxInvalidOpcodeConditions : Obligations.MmxInvalidOpcodeConditions := by
  intro mk hmk s e reg rm hadmits
  simp only [List.mem_cons, List.not_mem_nil, or_false] at hmk
  obtain rfl | rfl | rfl := hmk <;> exact (exec_eq_invalidOpcode_iff hadmits).trans State.udMmx_iff

/-- Settles O37: `exec_eq_invalidOpcode_iff` and `State.udXmm_iff`. -/
theorem xmmInvalidOpcodeConditions : Obligations.XmmInvalidOpcodeConditions := by
  intro mk hmk s e reg rm hadmits
  simp only [List.mem_cons, List.not_mem_nil, or_false] at hmk
  obtain rfl | rfl | rfl := hmk <;> exact (exec_eq_invalidOpcode_iff hadmits).trans State.udXmm_iff

/-- Settles O38: `exec_eq_invalidOpcode_iff` and `State.udVex_iff`. -/
theorem vexInvalidOpcodeConditions : Obligations.VexInvalidOpcodeConditions := by
  intro vl mk hmk s e reg rm hadmits
  simp only [List.mem_cons, List.not_mem_nil, or_false, Prod.mk.injEq] at hmk
  obtain ⟨rfl, rfl⟩ | ⟨rfl, rfl⟩ | ⟨rfl, rfl⟩ | ⟨rfl, rfl⟩ | ⟨rfl, rfl⟩ | ⟨rfl, rfl⟩ := hmk <;>
  exact (exec_eq_invalidOpcode_iff hadmits).trans (State.udVex_iff (by decide))

/-- Settles O39: `exec_eq_invalidOpcode_iff` and `State.udEvexForm_iff`. -/
theorem evexInvalidOpcodeConditions : Obligations.EvexInvalidOpcodeConditions := by
  intro w vl mk hmk s e reg rm hadmits
  simp only [List.mem_cons, List.not_mem_nil, or_false, Prod.mk.injEq] at hmk
  obtain ⟨rfl, rfl, rfl⟩ | ⟨rfl, rfl, rfl⟩ | ⟨rfl, rfl, rfl⟩ | ⟨rfl, rfl, rfl⟩ | ⟨rfl, rfl, rfl⟩ | ⟨rfl, rfl, rfl⟩ |
    ⟨rfl, rfl, rfl⟩ | ⟨rfl, rfl, rfl⟩ | ⟨rfl, rfl, rfl⟩ := hmk <;>
  exact (exec_eq_invalidOpcode_iff hadmits).trans State.udEvexForm_iff

/-! ### The operand's read -/

theorem Instr.isMmx_of_isXmm (h : i.isXmm = true) : i.isMmx = false := by
  cases i <;> simp_all [Instr.isXmm, Instr.isMmx]

/-- A misaligned operand stops the read before `Translate` is asked (R54). -/
theorem State.operandStop_of_misaligned (h : s.Misaligned i) :
    i.isXmm = true ∧ s.operandStop i = some (.exception .generalProtection) := by
  rw [State.Misaligned] at h
  rw [State.operandStop]
  cases hrm : i.rm with
  | reg r => simp [hrm] at h
  | mem m =>
    rw [hrm] at h
    obtain ⟨hxmm, halign⟩ := h
    exact ⟨hxmm, by simp [State.rmStop, hxmm, halign]⟩

/-- Where alignment does not stop it, the read is stopped by the answer to the one question asked (R58). -/
theorem State.operandStop_of_query {q : Query} (haligned : ¬ s.Misaligned i) (hq : s.memoryQuery i = some q) :
    s.operandStop i = (s.translate q).stop := by
  rw [State.Misaligned] at haligned
  rw [State.memoryQuery] at hq
  rw [State.operandStop]
  cases hrm : i.rm with
  | reg r => simp [hrm] at hq
  | mem m =>
    simp only [hrm, Option.some.injEq] at hq haligned
    rw [← hq, State.rmStop, if_neg]
    simpa using haligned

/-- Settles O42: the checks before the operand have passed, and the alignment check stops the instruction. -/
theorem misalignedXmmOperandFaults : Obligations.MisalignedXmmOperandFaults := by
  intro i s hadmits hud hts hmisaligned
  obtain ⟨hxmm, hoperand⟩ := State.operandStop_of_misaligned hmisaligned
  have hstop : s.instrStop i = some (.exception .generalProtection) := by
    simp [State.instrStop_of_admits hadmits, hud, hts, Instr.isMmx_of_isXmm hxmm, hoperand]
  exact (exec_of_instrStop i s).1 _ hstop

/-- Settles O43: the answer of `Translate` is what stops the instruction. -/
theorem translateFaultsAreTheInstructions : Obligations.TranslateFaultsAreTheInstructions := by
  intro i s q hadmits hud hts hmf haligned hq
  have hstop : s.instrStop i = (s.translate q).stop := by
    simp [State.instrStop_of_admits hadmits, hud, hts, hmf, State.operandStop_of_query haligned hq]
  have hexec {stop : Stop} (h : (s.translate q).stop = some stop) : exec i s = stop.outcome s :=
    (exec_of_instrStop i s).1 stop (hstop.trans h)
  refine ⟨fun h => hexec (congrArg Answer.stop h), fun h => hexec (congrArg Answer.stop h), fun p r k a h => ?_,
    fun h => hexec (congrArg Answer.stop h)⟩
  exact ⟨pageFaultCode p r k s.cpl, hexec (congrArg Answer.stop h), pageFaultCode_bits p r k s.cpl⟩

end Sys2Proof.Machine
end

section
/-! Noninterference (R27, R29, R50, R52, R190): what a form does not read. MXCSR is covered by `exec_mapStatus`;
memory, the answers of `Translate`, the general and segment registers and CPL are changed together
(`State.withOutside`), and a completed instruction does the same where its operand's address and the answer to its one
question are the same (`exec_withOutside`). -/

namespace Sys2Proof.Machine

/-! ### MXCSR -/

/-- Settles O30: `exec_mapStatus` for MXCSR alone, and the vectors of `faultVectorsAndErrorCodes`. -/
theorem mxcsrIsNeitherReadNorWritten : Obligations.MxcsrIsNeitherReadNorWritten := by
  refine ⟨fun i s t h => (exec_next_sameRest h).mxcsr, fun i s m => ?_, fun s f hfault => ?_⟩
  · have hexec : exec i { s with mxcsr := m } = mapOutcome (fun t => { t with mxcsr := m }) (exec i s) :=
      exec_mapStatus (F := id) (M := fun _ => m) rfl rfl i
    rw [hexec]
    refine ⟨fun t h => ?next, fun f h => ?fault, fun r h => ?refused⟩
    case next => rw [h, mapOutcome_next]
    case fault =>
      rw [h, mapOutcome_fault]
      exact ⟨_, rfl, f.vector_mapState _, f.errorCode_mapState _⟩
    case refused => rw [h, mapOutcome_refused]
  · obtain ⟨hvector, -⟩ := faultVectorsAndErrorCodes s f hfault
    omega

/-! ### What lies outside the files a form compares -/

/-- Data memory, the answers of `Translate`, and the registers an address and its translation depend on. -/
structure Outside where
  mem : Memory
  oracle : List (Query × Answer)
  x : Vector Word64 16
  segs : Vector SegReg 6
  cpl : BitVec 2

/-- The state with another outside. -/
def State.withOutside (s : State) (o : Outside) : State :=
  { s with mem := o.mem, oracle := o.oracle, x := o.x, segs := o.segs, cpl := o.cpl }

/-- An operand of `n` bytes of memory lies at the same address in both states, and `Translate` answers the same. -/
def State.SameRead (s s' : State) (p : AddressEnc) (len n : Nat) (rm : RmField) : Prop :=
  ∀ m, rm = .mem m → s'.operandLinear p len m = s.operandLinear p len m ∧
    s'.translate (s'.operandQuery p len m n) = s.translate (s.operandQuery p len m n)

theorem State.readOperand_congr {s s' : State} {L : Nat} {p : AddressEnc} {len : Nat} {m : MemField}
    (h : s'.translate (s'.operandQuery p len m (L / 8)) = s.translate (s.operandQuery p len m (L / 8))) :
    s'.readOperand L p len m = s.readOperand L p len m := by
  simp only [State.operandQuery] at h
  simp only [State.readOperand, State.readMemory, h]

section
variable {s t : State} {o : Outside} {rm : RmField}

/-- Of what lies outside, the checks of a form read CPL alone, and that for alignment checking (R54). -/
theorem State.formStop_withOutside (halign : (s.am && s.ac && o.cpl == 3#2) = (s.am && s.ac && s.cpl == 3#2))
    (len : Nat) (ud mf : Bool) : (s.withOutside o).formStop len ud mf = s.formStop len ud mf := by
  have hlaunch : (s.withOutside o).launchRefusal = s.launchRefusal := by
    simp only [State.launchRefusal, ← halign]
    rfl
  simp only [State.formStop, State.stepRefusal, hlaunch]
  rfl

/-- A completed form does the same with another outside that its second source does not see and its write keeps. -/
theorem State.execute_withOutside {L len : Nat} {ud mf : Bool} {src src' : Except Stop (BitVec L)}
    {write write' : BitVec L → State} (halign : (s.am && s.ac && o.cpl == 3#2) = (s.am && s.ac && s.cpl == 3#2))
    (hsrc : src' = src) (hwrite : ∀ val, (write' val).advance len = ((write val).advance len).withOutside o)
    (h : s.execute len ud mf src write = .next t) :
    (s.withOutside o).execute len ud mf src' write' = .next (t.withOutside o) := by
  obtain ⟨hnone, val, hval, rfl⟩ := (s.execute_eq_next_iff ..).mp h
  exact (State.execute_eq_next_iff ..).mpr
    ⟨(State.formStop_withOutside halign ..).trans hnone, val, hsrc.trans hval, (hwrite val).symm⟩

theorem State.mmxSource_withOutside {e : LegacyEnc}
    (h : s.SameRead (s.withOutside o) e.address (legacyLength e rm) 8 rm) :
    (s.withOutside o).mmxSource e rm = s.mmxSource e rm := by
  cases rm with
  | reg r => rfl
  | mem m => exact State.readOperand_congr (h m rfl).2

theorem State.xmmSource_withOutside {e : LegacyEnc}
    (h : s.SameRead (s.withOutside o) e.address (legacyLength e rm) 16 rm) :
    (s.withOutside o).xmmSource e rm = s.xmmSource e rm := by
  cases rm with
  | reg r => rfl
  | mem m =>
    obtain ⟨hlinear, hanswer⟩ := h m rfl
    simp only [State.xmmSource, hlinear, State.readOperand_congr (L := 128) hanswer]

theorem State.vexSource_withOutside {vl : Nat} {e : VexEnc}
    (h : s.SameRead (s.withOutside o) e.address (vexLength e rm) (vl / 8) rm) :
    (s.withOutside o).vexSource vl e rm = s.vexSource vl e rm := by
  cases rm with
  | reg r => rfl
  | mem m => exact State.readOperand_congr (h m rfl).2

theorem State.evexSource_withOutside {vl : Nat} {e : EvexEnc}
    (h : s.SameRead (s.withOutside o) (e.address vl) (evexLength e rm) (if e.bcst && rm.isMem then 4 else vl / 8) rm) :
    (s.withOutside o).evexSource vl e rm = s.evexSource vl e rm := by
  cases rm with
  | reg r => rfl
  | mem m =>
    obtain ⟨-, hanswer⟩ := h m rfl
    cases hbcst : e.bcst with
    | true =>
      simp only [hbcst, RmField.isMem, Bool.and_self, if_true] at hanswer
      simp only [State.evexSource, hbcst, if_true, State.readOperand_congr (L := 32) hanswer]
    | false =>
      simp only [hbcst, Bool.false_and, Bool.false_eq_true, if_false] at hanswer
      simp only [State.evexSource, hbcst, Bool.false_eq_true, if_false, State.readOperand_congr hanswer]

end

/-- A completed instruction does the same with another outside that gives it the same operand. -/
theorem exec_withOutside {i : Instr} {s t : State} {o : Outside}
    (halign : (s.am && s.ac && o.cpl == 3#2) = (s.am && s.ac && s.cpl == 3#2))
    (hread : s.SameRead (s.withOutside o) i.addressEnc i.length i.operandBytes i.rm) (h : exec i s = .next t) :
    exec i (s.withOutside o) = .next (t.withOutside o) := by
  cases i
  case pcmpeqbMm | pcmpeqwMm | pcmpeqdMm =>
    exact State.execute_withOutside halign (State.mmxSource_withOutside hread) (fun _ => rfl) h
  case pcmpeqbXmm | pcmpeqwXmm | pcmpeqdXmm =>
    exact State.execute_withOutside halign (State.xmmSource_withOutside hread) (fun _ => rfl) h
  case vpcmpeqbXmm | vpcmpeqwXmm | vpcmpeqdXmm | vpcmpeqbYmm | vpcmpeqwYmm | vpcmpeqdYmm =>
    exact State.execute_withOutside halign (State.vexSource_withOutside hread) (fun _ => rfl) h
  case vpcmpeqdK128 | vpcmpeqdK256 | vpcmpeqdK512 | vpcmpeqbK128 | vpcmpeqbK256 | vpcmpeqbK512 | vpcmpeqwK128 |
      vpcmpeqwK256 | vpcmpeqwK512 =>
    exact State.execute_withOutside halign (State.evexSource_withOutside hread) (fun _ => rfl) h

/-- A register operand is the same whatever lies outside. -/
theorem State.sameRead_of_reg {s s' : State} {p : AddressEnc} {len n : Nat} {rm : RmField} {r : BitVec 3}
    (h : rm = .reg r) : s.SameRead s' p len n rm := by
  rintro m rfl
  cases h

/-- Settles O31: a register operand is not looked for outside. -/
theorem registerFormsReadNoMemory : Obligations.RegisterFormsReadNoMemory := by
  intro i s t r hreg hexec mem oracle x segs
  have h := exec_withOutside (o := ⟨mem, oracle, x, segs, s.cpl⟩) rfl (State.sameRead_of_reg hreg) hexec
  rw [exec_next_frame hexec] at h ⊢
  exact h

/-- Settles O33: with a register operand CPL is read for alignment checking alone, which is off. -/
theorem privilegeLevelDoesNotMatter : Obligations.PrivilegeLevelDoesNotMatter := by
  intro i s t r c hreg hoff hexec
  have halign : (s.am && s.ac) = false := Bool.and_eq_false_iff.mpr hoff
  have h := exec_withOutside (o := ⟨s.mem, s.oracle, s.x, s.segs, c⟩) (by rw [halign]; rfl)
    (State.sameRead_of_reg hreg) hexec
  rw [exec_next_frame hexec] at h ⊢
  exact h

/-! ### The bytes of the operand -/

theorem Memory.readAll_congr {m m' : Memory} {as : List Nat} (h : ∀ a ∈ as, m'.read a = m.read a) :
    m'.readAll as = m.readAll as := by
  induction as with
  | nil => rfl
  | cons a as ih =>
    simp only [Memory.readAll, h a List.mem_cons_self, ih fun b hb => h b (List.mem_cons_of_mem a hb)]

/-- `Translate` reads the bytes of data memory that it is asked for alone (log 7). -/
theorem State.translate_withMem {s : State} {q : Query} {mem : Memory}
    (h : ∀ a ∈ s.operandAddresses q, Memory.read mem a = s.mem.read a) :
    ({ s with mem := mem } : State).translate q = s.translate q := by
  have hreference : ({ s with mem := mem } : State).referenceTranslate q = s.referenceTranslate q := by
    have hread : mem.readAll (({ s with mem := mem } : State).operandAddresses q) =
        s.mem.readAll (s.operandAddresses q) := Memory.readAll_congr h
    simp only [State.referenceTranslate, hread]
    rfl
  simp only [State.translate, hreference]

/-- Settles O32: the operand's address does not depend on data memory, and `Translate` on its bytes alone. -/
theorem onlyOperandBytesAreRead : Obligations.OnlyOperandBytesAreRead := by
  intro i s t q mem hq hmem hexec
  have hread : s.SameRead (s.withOutside ⟨mem, s.oracle, s.x, s.segs, s.cpl⟩) i.addressEnc i.length i.operandBytes
      i.rm := by
    intro m hm
    rw [State.memoryQuery, hm] at hq
    cases hq
    exact ⟨rfl, State.translate_withMem hmem⟩
  have h := exec_withOutside rfl hread hexec
  rw [exec_next_frame hexec] at h ⊢
  exact h

end Sys2Proof.Machine
end

section
/-! Memory operands (R29, R53, R57, R58, R75, R184): the linear address, the segment, and what the reference
translation answers (log 7). It checks the segment first (`State.segmentFault_of_mode64`,
`State.segmentFault_of_mode32`) and then reads the bytes in order (`Memory.readAll_range_missing`,
`Memory.readAll_range_held`). -/

namespace Sys2Proof.Machine

variable {s : State}

/-! ### Linear addresses and segments -/

theorem low32_toNat (a : Word64) : (low32 a).toNat = a.toNat % 2 ^ 32 := by
  simp only [low32, BitVec.toNat_setWidth]
  exact Nat.mod_eq_of_lt (Nat.lt_trans (Nat.mod_lt _ (by decide)) (by decide))

theorem State.linear_of_mode64 (h : s.mode = .mode64) (g : Seg) (ea : Word64) :
    s.linear g ea = s.segBase g + ea := by
  rw [State.linear, h]
  rfl

theorem State.segBase_of_mode32 (h : s.mode = .mode32) (g : Seg) : s.segBase g = (s.seg g).base := by
  simp [State.segBase, h, Mode.is64]

theorem State.segBase_of_mode64 (h : s.mode = .mode64) (g : Seg) :
    s.segBase g = if g = .fs ∨ g = .gs then (s.seg g).base else 0#64 := by
  cases g <;> simp [State.segBase, h, Mode.is64]

theorem State.linear_of_mode32 (h : s.mode = .mode32) (g : Seg) (ea : Word64) :
    s.linear g ea = low32 ((s.seg g).base + ea) := by
  rw [State.linear, State.segBase_of_mode32 h, h]
  rfl

/-- Settles O48: the base that counts in each mode. -/
theorem linearAddressAddsSegmentBase : Obligations.LinearAddressAddsSegmentBase := by
  refine fun s g ea => ⟨fun hmode hg => ?based, fun hmode hfs hgs => ?flat, fun hmode => ?mode32⟩
  case based => rw [State.linear_of_mode64 hmode, State.segBase_of_mode64 hmode, if_pos hg, BitVec.toNat_add]
  case flat =>
    rw [State.linear_of_mode64 hmode, State.segBase_of_mode64 hmode, if_neg (not_or.mpr ⟨hfs, hgs⟩), BitVec.zero_add]
  case mode32 =>
    rw [State.linear_of_mode32 hmode, low32_toNat, BitVec.toNat_add]
    exact Nat.mod_mod_of_dvd _ (by decide)

/-- The first segment override is the one that counts (R77). -/
theorem segOverride_append {pre : List LegacyByte} (h : ∀ g, LegacyByte.seg g ∉ pre) (rest : List LegacyByte) :
    segOverride (pre ++ rest) = segOverride rest := by
  induction pre with
  | nil => rfl
  | cons b pre ih =>
    have hrest := ih fun g hg => h g (List.mem_cons_of_mem b hg)
    cases b with
    | seg g => exact absurd List.mem_cons_self (h g)
    | addressSize | operandSize => exact hrest

/-- Settles O50: `segOverride_append`, and the default segment by the shape of the operand. -/
theorem segmentOfAnOperand : Obligations.SegmentOfAnOperand := by
  refine fun p => ⟨fun m pre' post g hpre hnone => ?override, fun hnone => ?default⟩
  case override => rw [AddressEnc.seg, hpre, segOverride_append hnone, segOverride]
  case default =>
    have hoverride : segOverride p.pre = none := by
      simpa [segOverride] using segOverride_append hnone []
    have hseg (m : MemField) : p.seg m = defaultSeg p.b m := by rw [AddressEnc.seg, hoverride]
    simp only [hseg, defaultSeg, Bool.and_eq_true, Bool.or_eq_true, Bool.not_eq_true', beq_iff_eq, implies_true,
      and_self]

/-! ### Reading the bytes of an operand -/

section
variable {m : Memory} {f : Nat → Nat} {n : Nat}

/-- The first address that holds no byte is the one a read names. -/
theorem Memory.readAll_range_missing {j : Nat} (hj : j < n) (hnone : m.read (f j) = none)
    (hbefore : ∀ i < j, m.read (f i) ≠ none) : m.readAll ((List.range n).map f) = .error (f j) := by
  obtain ⟨k, rfl⟩ : ∃ k, n = j + (k + 1) := ⟨n - j - 1, by omega⟩
  rw [List.range_add, List.range_succ_eq_map, List.map_append, List.map_cons, List.map_cons, Nat.add_zero]
  exact Memory.readAll_of_missing (by simpa using hbefore) hnone

/-- The bytes a read gives are those at the addresses, in their order. -/
theorem Memory.read_of_readAll_range {bs : List Byte} (h : m.readAll ((List.range n).map f) = .ok bs) :
    bs.length = n ∧ ∀ j < n, m.read (f j) = bs[j]? := by
  have hlength : bs.length = n := by simpa using Memory.length_readAll h
  refine ⟨hlength, fun j hj => ?_⟩
  have hat := congrArg (fun l => l[j]?) ((Memory.readAll_eq_ok ..).mp h)
  simpa [hj, show j < bs.length by omega] using hat

/-- Where every address holds a byte the bytes are read. -/
theorem Memory.readAll_range_held (h : ∀ j < n, m.read (f j) ≠ none) :
    ∃ bs, m.readAll ((List.range n).map f) = .ok bs ∧ bs.length = n ∧ ∀ j < n, m.read (f j) = bs[j]? := by
  obtain ⟨bs, hbs⟩ := Memory.readAll_of_held (m := m) (as := (List.range n).map f) (by simpa using h)
  exact ⟨bs, hbs, Memory.read_of_readAll_range hbs⟩

end

/-! ### The reference translation -/

/-- The answer of R172 for a segment violation. -/
def segmentViolation (g : Seg) : Answer := if g = .ss then .stackSegment else .generalProtection

theorem State.segmentFault_of_mode64 (h : s.mode = .mode64) (q : Query) :
    s.segmentFault q =
      if ∀ j < q.n, s.codeAddress ((s.linear q.seg q.ea).toNat + j) = true then none
      else some (segmentViolation q.seg) := by
  simp only [State.segmentFault, State.codeAddress_of_mode64 h, h, Mode.is64, if_true, List.all_eq_true,
    List.mem_range]
  rfl

theorem State.segmentFault_of_mode32 (h : s.mode = .mode32) (q : Query) :
    s.segmentFault q =
      if (s.seg q.seg).null = true then some .generalProtection
      else if q.ea.toNat + q.n ≤ (s.seg q.seg).limit.toNat + 1 then none
      else some (segmentViolation q.seg) := by
  simp only [State.segmentFault, h, Mode.is64]
  rfl

theorem State.operandAddresses_of_mode64 (h : s.mode = .mode64) (q : Query) :
    s.operandAddresses q = (List.range q.n).map fun j => (s.linear q.seg q.ea).toNat + j := by
  simp only [State.operandAddresses, h, Mode.is64, if_true]

theorem State.operandAddresses_of_mode32 (h : s.mode = .mode32) (q : Query) :
    s.operandAddresses q = (List.range q.n).map fun j => ((s.linear q.seg q.ea).toNat + j) % 2 ^ 32 := by
  simp [State.operandAddresses, h, Mode.is64]

theorem State.referenceTranslate_of_fault {q : Query} {a : Answer} (h : s.segmentFault q = some a) :
    s.referenceTranslate q = a := by
  rw [State.referenceTranslate, h]

/-- Past the segment checks the reference translation is a page fault at the first address that memory does not hold,
and the bytes where it holds all. -/
theorem State.referenceTranslate_of_range {q : Query} {f : Nat → Nat} (hsegment : s.segmentFault q = none)
    (haddresses : s.operandAddresses q = (List.range q.n).map f) :
    (∀ j < q.n, s.mem.read (f j) = none → (∀ i < j, s.mem.read (f i) ≠ none) →
      s.referenceTranslate q = .pageFault false false false (BitVec.ofNat 64 (f j))) ∧
    ((∀ j < q.n, s.mem.read (f j) ≠ none) →
      ∃ bs, s.referenceTranslate q = .bytes bs ∧ bs.length = q.n ∧ ∀ j < q.n, s.mem.read (f j) = bs[j]?) := by
  simp only [State.referenceTranslate, hsegment, haddresses]
  refine ⟨fun j hj hnone hbefore => ?missing, fun hheld => ?held⟩
  case missing => rw [Memory.readAll_range_missing hj hnone hbefore]
  case held =>
    obtain ⟨bs, hbs, hread⟩ := Memory.readAll_range_held hheld
    exact ⟨bs, by rw [hbs], hread⟩

/-- Settles O46: the canonical check, then the bytes. -/
theorem referenceTranslationIn64BitMode : Obligations.ReferenceTranslationIn64BitMode := by
  intro s q hmode
  have hfault := State.segmentFault_of_mode64 hmode q
  refine ⟨fun ⟨j, hj, hout⟩ => ?violation, fun hin => ?within⟩
  case violation =>
    rw [if_neg fun h => Bool.false_ne_true (hout.symm.trans (h j hj))] at hfault
    exact State.referenceTranslate_of_fault hfault
  case within =>
    rw [if_pos hin] at hfault
    exact State.referenceTranslate_of_range hfault (State.operandAddresses_of_mode64 hmode q)

/-- Settles O47: the null selector, the limit, then the bytes. -/
theorem referenceTranslationInMode32 : Obligations.ReferenceTranslationInMode32 := by
  intro s q hmode
  have hfault := State.segmentFault_of_mode32 hmode q
  refine ⟨fun hnull => ?null, fun hnull hout => ?violation, fun hnull hin => ?within⟩
  case null =>
    rw [if_pos hnull] at hfault
    exact State.referenceTranslate_of_fault hfault
  case violation =>
    rw [if_neg (by simp [hnull]), if_neg (by omega)] at hfault
    exact State.referenceTranslate_of_fault hfault
  case within =>
    rw [if_neg (by simp [hnull]), if_pos hin] at hfault
    exact State.referenceTranslate_of_range hfault (State.operandAddresses_of_mode32 hmode q)

/-- The segment checks answer no bytes. -/
theorem State.segmentFault_ne_bytes (q : Query) (bs : List Byte) : s.segmentFault q ≠ some (.bytes bs) := by
  simp only [State.segmentFault]
  split_ifs <;> simp

/-- The bytes the reference translation answers are those data memory holds at the operand's addresses. -/
theorem State.readAll_of_referenceTranslate {q : Query} {bs : List Byte} (h : s.referenceTranslate q = .bytes bs) :
    s.mem.readAll (s.operandAddresses q) = .ok bs := by
  rw [State.referenceTranslate] at h
  split at h
  next a hfault =>
    subst h
    exact absurd hfault (s.segmentFault_ne_bytes q bs)
  next =>
    split at h
    next bs' hbs =>
      cases h
      exact hbs
    next => cases h

/-- Settles O45: the bytes answered are those of memory, and their value is little-endian. -/
theorem memoryReadsAreLittleEndian : Obligations.MemoryReadsAreLittleEndian := by
  intro s n g ea val horacle hmode hread k hk
  have hquery : 8 * n / 8 = n := Nat.mul_div_cancel_left n (by decide)
  obtain ⟨bs, htranslate, hval⟩ : ∃ bs, s.translate ⟨g, ea, n, s.cpl, s.mode⟩ = .bytes bs ∧
      val = BitVec.ofNat (8 * n) (littleEndian bs) := by
    have hanswer := s.readMemory_eq (8 * n) g ea
    rw [hread, hquery] at hanswer
    simpa using hanswer
  have hreference : s.referenceTranslate ⟨g, ea, n, s.cpl, s.mode⟩ = .bytes bs := by
    rwa [State.translate, horacle] at htranslate
  have hbytes := State.readAll_of_referenceTranslate hreference
  rw [State.operandAddresses_of_mode64 hmode] at hbytes
  obtain ⟨hlength, hat⟩ := Memory.read_of_readAll_range hbytes
  rw [hat k hk, hval]
  exact isLittleEndian_ofNat (n := n) hlength k (by omega)

end Sys2Proof.Machine
end

section
/-! The effective address as a sum of integers (R75, R84). Modulo `2 ^ A`, with `A` at most 64, a 64-bit word is the
integer it stands for, so that each part of an address has its own congruence and a sum of words is the sum of
integers. -/

namespace Sys2Proof.Machine

variable {A : Nat} {a b : Word64} {x y : Int}

/-! ### Words as integers modulo the address size -/

/-- The word stands for the integer modulo `2 ^ A`. -/
def StandsFor (A : Nat) (a : Word64) (x : Int) : Prop := (a.toNat : Int) ≡ x [ZMOD 2 ^ A]

/-- What holds modulo the word size holds modulo the address size. -/
theorem standsFor_of_mod64 (hA : A ≤ 64) (h : (a.toNat : Int) ≡ x [ZMOD 2 ^ 64]) : StandsFor A a x :=
  Int.ModEq.of_dvd (pow_dvd_pow 2 hA) h

theorem standsFor_toNat (A : Nat) (a : Word64) : StandsFor A a a.toNat := Int.ModEq.refl _

theorem StandsFor.add (hA : A ≤ 64) (ha : StandsFor A a x) (hb : StandsFor A b y) : StandsFor A (a + b) (x + y) := by
  have hsum : StandsFor A (a + b) (a.toNat + b.toNat) := by
    refine standsFor_of_mod64 hA ?_
    rw [BitVec.toNat_add]
    push_cast
    exact Int.mod_modEq _ _
  exact hsum.trans (Int.ModEq.add ha hb)

theorem StandsFor.mul (hA : A ≤ 64) (ha : StandsFor A a x) (n : Nat) :
    StandsFor A (a * BitVec.ofNat 64 n) (x * n) := by
  have hprod : StandsFor A (a * BitVec.ofNat 64 n) (a.toNat * n) := by
    refine standsFor_of_mod64 hA ?_
    rw [BitVec.toNat_mul, BitVec.toNat_ofNat, Nat.mul_mod_mod]
    push_cast
    exact Int.mod_modEq _ _
  exact hprod.trans (Int.ModEq.mul_right _ ha)

theorem StandsFor.shiftLeft (hA : A ≤ 64) (ha : StandsFor A a x) (k : Nat) : StandsFor A (a <<< k) (x * 2 ^ k) := by
  have hshift : StandsFor A (a <<< k) (a.toNat * 2 ^ k) := by
    refine standsFor_of_mod64 hA ?_
    rw [BitVec.toNat_shiftLeft, Nat.shiftLeft_eq]
    push_cast
    exact Int.mod_modEq _ _
  exact hshift.trans (Int.ModEq.mul_right _ ha)

/-- A displacement stands for its signed value. -/
theorem standsFor_signExtend (hA : A ≤ 64) {w : Nat} (hw : w ≤ 64) (d : BitVec w) :
    StandsFor A (d.signExtend 64) d.toInt := by
  refine standsFor_of_mod64 hA ?_
  rw [← BitVec.toInt_signExtend_of_le hw, BitVec.toInt_eq_toNat_bmod]
  exact (Int.bmod_emod ..).symm

/-! ### The parts of an address -/

/-- The size of an address in bits: 64 in 64-bit mode without 67, else 32 (R75). -/
def State.addressBits (s : State) (p : AddressEnc) : Nat := if s.address64 p then 64 else 32

section
variable (s : State) (p : AddressEnc)

theorem State.addressBits_le : s.addressBits p ≤ 64 := by
  rw [State.addressBits]
  split <;> decide

theorem State.toAddressSize_toNat (a : Word64) :
    (s.toAddressSize p a).toNat = a.toNat % 2 ^ s.addressBits p := by
  rw [State.toAddressSize, State.addressBits]
  split
  · exact (Nat.mod_eq_of_lt a.isLt).symm
  · exact low32_toNat a

/-- A word truncated to the address size is what it stands for, modulo that size. -/
theorem State.toAddressSize_of_standsFor {a : Word64} {x : Int} (h : StandsFor (s.addressBits p) a x) :
    ((s.toAddressSize p a).toNat : Int) = x % 2 ^ s.addressBits p := by
  rw [State.toAddressSize_toNat]
  push_cast
  exact h

/-- The number a register stands for in an address: its value truncated to the address size. -/
def State.regNumber (n : BitVec 4) : Int := ((s.gpr n).toNat % 2 ^ s.addressBits p : Nat)

/-- The number a displacement stands for: its signed value, one of 8 bits scaled by `N` (R75, R84). -/
def dispNumber (p : AddressEnc) : Disp → Int
  | .none => 0
  | .disp8 d => d.toInt * (p.disp8N : Int)
  | .disp32 d => d.toInt

/-- The number an index stands for: none for 0100b, else the register times the scale (R75). -/
def State.indexNumber (scale : BitVec 2) (index : BitVec 3) : Int :=
  if num4 p.x index = 4#4 then 0 else s.regNumber p (num4 p.x index) * 2 ^ scale.toNat

theorem State.addressReg_standsFor (hi : Bool) (lo : BitVec 3) :
    StandsFor (s.addressBits p) (s.addressReg p hi lo) (s.regNumber p (num4 hi lo)) := by
  have h := standsFor_toNat (s.addressBits p) (s.addressReg p hi lo)
  rwa [State.addressReg, State.toAddressSize_toNat] at h

theorem State.dispValue_standsFor (d : Disp) :
    StandsFor (s.addressBits p) (dispValue p.disp8N d) (dispNumber p d) := by
  have hA := s.addressBits_le p
  cases d with
  | none => exact standsFor_toNat _ _
  | disp8 d => exact (standsFor_signExtend hA (by decide) d).mul hA _
  | disp32 d => exact standsFor_signExtend hA (by decide) d

theorem State.indexValue_standsFor (scale : BitVec 2) (index : BitVec 3) :
    StandsFor (s.addressBits p) (s.indexValue p scale index) (s.indexNumber p scale index) := by
  rw [State.indexValue, State.indexNumber]
  split
  · exact standsFor_toNat _ _
  · exact (s.addressReg_standsFor p p.x index).shiftLeft (s.addressBits_le p) _

/-! ### The address of each shape of operand -/

theorem State.effectiveAddress_base (pcNext : Word64) (rm : BitVec 3) (d : Disp) :
    ((s.effectiveAddress p pcNext (.base rm d)).toNat : Int) =
      (s.regNumber p (num4 p.b rm) + dispNumber p d) % 2 ^ s.addressBits p :=
  s.toAddressSize_of_standsFor p
    ((s.addressReg_standsFor p p.b rm).add (s.addressBits_le p) (s.dispValue_standsFor p d))

theorem State.effectiveAddress_relative (pcNext : Word64) (d : BitVec 32) :
    ((s.effectiveAddress p pcNext (.relative d)).toNat : Int) =
      ((if s.mode = .mode64 then (pcNext.toNat : Int) else 0) + d.toInt) % 2 ^ s.addressBits p := by
  have hA := s.addressBits_le p
  have hpc : StandsFor (s.addressBits p) (if s.mode.is64 then pcNext else 0#64)
      (if s.mode = .mode64 then (pcNext.toNat : Int) else 0) := by
    simp only [Mode.is64_iff]
    split <;> exact standsFor_toNat _ _
  exact s.toAddressSize_of_standsFor p (hpc.add hA (standsFor_signExtend hA (by decide) d))

theorem State.effectiveAddress_sib (pcNext : Word64) (sc : BitVec 2) (ix b : BitVec 3) (d : Disp) :
    ((s.effectiveAddress p pcNext (.sib sc ix b d)).toNat : Int) =
      (s.regNumber p (num4 p.b b) + s.indexNumber p sc ix + dispNumber p d) % 2 ^ s.addressBits p := by
  have hA := s.addressBits_le p
  exact s.toAddressSize_of_standsFor p
    (((s.addressReg_standsFor p p.b b).add hA (s.indexValue_standsFor p sc ix)).add hA (s.dispValue_standsFor p d))

theorem State.effectiveAddress_sibNoBase (pcNext : Word64) (sc : BitVec 2) (ix : BitVec 3) (d : BitVec 32) :
    ((s.effectiveAddress p pcNext (.sibNoBase sc ix d)).toNat : Int) =
      (s.indexNumber p sc ix + d.toInt) % 2 ^ s.addressBits p := by
  have hA := s.addressBits_le p
  exact s.toAddressSize_of_standsFor p
    ((s.indexValue_standsFor p sc ix).add hA (standsFor_signExtend hA (by decide) d))

theorem State.addressBits_eq :
    s.addressBits p = if s.mode = .mode64 ∧ LegacyByte.addressSize ∉ p.pre then 64 else 32 := by
  simp only [State.addressBits, State.address64, hasAddressSize, Bool.and_eq_true, Bool.not_eq_true', Mode.is64_iff,
    ← Bool.not_eq_true, List.contains_iff_mem]

end

/-- Settles O49: the four shapes, `pc_next`, and the parts of an address that each class takes from its own bytes. -/
theorem effectiveAddressIsASum : Obligations.EffectiveAddressIsASum := by
  refine ⟨?sum, fun s len => ?pcNext, fun mk hmk pre q reg rm => ?legacy, fun mk hmk pre r x b w vvvv reg rm => ?vex,
    fun n mk hmk e reg rm => ?evexDword, fun n mk hmk e reg rm hbcst => ?evex⟩
  case sum =>
    intro s p pcNext A _ hA
    rw [← s.addressBits_eq p] at hA
    subst hA
    exact ⟨s.effectiveAddress_base p pcNext, s.effectiveAddress_relative p pcNext, s.effectiveAddress_sib p pcNext,
      s.effectiveAddress_sibNoBase p pcNext⟩
  case pcNext => rw [State.pcNext, BitVec.toNat_add, BitVec.toNat_ofNat, Nat.add_mod_mod]
  case legacy =>
    simp only [List.mem_cons, List.not_mem_nil, or_false] at hmk
    obtain rfl | rfl | rfl | rfl | rfl | rfl := hmk <;> exact ⟨rfl, rfl⟩
  case vex =>
    simp only [List.mem_cons, List.not_mem_nil, or_false] at hmk
    obtain rfl | rfl | rfl | rfl | rfl | rfl := hmk <;> exact ⟨rfl, rfl⟩
  case evexDword =>
    simp only [List.mem_cons, List.not_mem_nil, or_false, Prod.mk.injEq] at hmk
    obtain ⟨rfl, rfl⟩ | ⟨rfl, rfl⟩ | ⟨rfl, rfl⟩ := hmk <;> rfl
  case evex =>
    simp only [List.mem_cons, List.not_mem_nil, or_false, Prod.mk.injEq] at hmk
    obtain ⟨rfl, rfl⟩ | ⟨rfl, rfl⟩ | ⟨rfl, rfl⟩ | ⟨rfl, rfl⟩ | ⟨rfl, rfl⟩ | ⟨rfl, rfl⟩ := hmk <;>
    simp [Instr.addressEnc, EvexEnc.address, hbcst]

end Sys2Proof.Machine
end

section
/-! What the rules call ignored (R21, R76, R77, R78, R83). A comparison takes from its prefixes their number, the
extension bits it uses and, for a memory operand, the address; with a register operand the prefixes count by their
number alone (`State.compareMmx_pre` and its companions). -/

namespace Sys2Proof.Machine

variable {s : State} {w vl : Nat} {pre pre' : List LegacyByte} {reg r : BitVec 3} {rm : RmField}

/-! ### The forms of the legacy, VEX and EVEX classes -/

/-- A legacy form is the comparison of its class at its width. -/
theorem exec_of_mem_legacyForms {mk : LegacyEnc → BitVec 3 → RmField → Instr}
    (h : mk ∈ [Instr.pcmpeqbMm, Instr.pcmpeqwMm, Instr.pcmpeqdMm, Instr.pcmpeqbXmm, Instr.pcmpeqwXmm,
      Instr.pcmpeqdXmm]) :
    ∃ w, (∀ e reg rm s, exec (mk e reg rm) s = s.compareMmx w e reg rm) ∨
      ∀ e reg rm s, exec (mk e reg rm) s = s.compareXmm w e reg rm := by
  obtain hmmx | hxmm := (List.mem_append (s := [Instr.pcmpeqbMm, Instr.pcmpeqwMm, Instr.pcmpeqdMm])).mp h
  · obtain ⟨w, -, hexec⟩ := exec_of_mem_mmxForms hmmx
    exact ⟨w, .inl hexec⟩
  · obtain ⟨w, -, hexec⟩ := exec_of_mem_xmmForms hxmm
    exact ⟨w, .inr hexec⟩

/-- A VEX form is the comparison of its class at its width and length. -/
theorem exec_of_mem_vexForms {mk : VexEnc → BitVec 3 → RmField → Instr}
    (h : mk ∈ [Instr.vpcmpeqbXmm, Instr.vpcmpeqwXmm, Instr.vpcmpeqdXmm, Instr.vpcmpeqbYmm, Instr.vpcmpeqwYmm,
      Instr.vpcmpeqdYmm]) :
    ∃ w vl, ∀ e reg rm s, exec (mk e reg rm) s = s.compareVex w vl e reg rm := by
  obtain hxmm | hymm := (List.mem_append (s := [Instr.vpcmpeqbXmm, Instr.vpcmpeqwXmm, Instr.vpcmpeqdXmm])).mp h
  · obtain ⟨w, -, hexec⟩ := exec_of_mem_vex128Forms hxmm
    exact ⟨w, 128, hexec⟩
  · obtain ⟨w, -, hexec⟩ := exec_of_mem_vex256Forms hymm
    exact ⟨w, 256, hexec⟩

/-- The constructors of the EVEX forms, without their widths and lengths. -/
theorem exec_of_mem_evexConstructors {mk : EvexEnc → BitVec 3 → RmField → Instr}
    (h : mk ∈ evexForms.map fun form => form.2.2) :
    ∃ w vl, ∀ e reg rm s, exec (mk e reg rm) s = s.compareEvex w vl e reg rm := by
  obtain ⟨⟨w, vl, mk'⟩, hform, rfl⟩ := List.mem_map.mp h
  exact ⟨w, vl, (exec_of_mem_evexForms hform).2⟩

/-! ### Prefixes of a register form -/

theorem State.compareMmx_pre (h : pre.length = pre'.length) (rex : Option Rex) :
    s.compareMmx w ⟨pre, rex⟩ reg (.reg r) = s.compareMmx w ⟨pre', rex⟩ reg (.reg r) := by
  have hlength : legacyLength ⟨pre, rex⟩ (.reg r) = legacyLength ⟨pre', rex⟩ (.reg r) := by simp only [legacyLength, h]
  rw [State.compareMmx, hlength]
  rfl

theorem State.compareXmm_pre (h : pre.length = pre'.length) (rex : Option Rex) :
    s.compareXmm w ⟨pre, rex⟩ reg (.reg r) = s.compareXmm w ⟨pre', rex⟩ reg (.reg r) := by
  have hlength : legacyLength ⟨pre, rex⟩ (.reg r) = legacyLength ⟨pre', rex⟩ (.reg r) := by simp only [legacyLength, h]
  rw [State.compareXmm, hlength]
  rfl

theorem State.compareVex_pre (h : pre.length = pre'.length) (vex : VexPayload) :
    s.compareVex w vl ⟨pre, vex⟩ reg (.reg r) = s.compareVex w vl ⟨pre', vex⟩ reg (.reg r) := by
  have hlength : vexLength ⟨pre, vex⟩ (.reg r) = vexLength ⟨pre', vex⟩ (.reg r) := by simp only [vexLength, h]
  rw [State.compareVex, hlength]
  rfl

theorem State.compareEvex_pre (h : pre.length = pre'.length) (e : EvexEnc) :
    s.compareEvex w vl { e with pre := pre } reg (.reg r) = s.compareEvex w vl { e with pre := pre' } reg (.reg r) := by
  have hlength : evexLength { e with pre := pre } (.reg r) = evexLength { e with pre := pre' } (.reg r) := by
    simp only [evexLength, h]
  rw [State.compareEvex, hlength]
  rfl

theorem length_pre_seg (pre post : List LegacyByte) (g g' : Seg) :
    (pre ++ .seg g :: post).length = (pre ++ .seg g' :: post).length := by
  simp only [List.length_append, List.length_cons]

/-! ### REX.X without a SIB byte -/

/-! Only a SIB byte has an index, which the extension bit belongs to: in every other shape both sides compute alike.
-/

theorem State.compareMmx_x (h : rm.hasSib = false) (q : Rex) (x' : Bool) :
    s.compareMmx w ⟨pre, some q⟩ reg rm = s.compareMmx w ⟨pre, some { q with x := x' }⟩ reg rm := by
  cases rm with
  | reg r => rfl
  | mem m =>
    cases m with
    | base | relative => rfl
    | sib | sibNoBase => cases h

theorem State.compareXmm_x (h : rm.hasSib = false) (q : Rex) (x' : Bool) :
    s.compareXmm w ⟨pre, some q⟩ reg rm = s.compareXmm w ⟨pre, some { q with x := x' }⟩ reg rm := by
  cases rm with
  | reg r => rfl
  | mem m =>
    cases m with
    | base | relative => rfl
    | sib | sibNoBase => cases h

/-- Settles O59: each ignored bit is one that the comparison of its class does not look at. -/
theorem ignoredBitsChangeNothing : Obligations.IgnoredBitsChangeNothing := by
  refine ⟨fun mk hmk s pre reg => ?mmx, fun mk hmk s pre post rex q reg rm => ?legacy,
    fun mk hmk s pre post vex r x b w vvvv reg => ?vex, fun mk hmk s e w reg rm => ?evexW,
    fun mk hmk s e pre post g g' reg r => ?evexPre⟩
  case mmx =>
    obtain ⟨w, -, hexec⟩ := exec_of_mem_mmxForms hmk
    simp only [hexec]
    exact ⟨fun q q' r => rfl, fun q r' rm => rfl⟩
  case legacy =>
    obtain ⟨w, hexec | hexec⟩ := exec_of_mem_legacyForms hmk
    · simp only [hexec]
      exact ⟨fun w' => rfl, fun x' hsib => State.compareMmx_x hsib q x',
        fun g g' r => State.compareMmx_pre (length_pre_seg pre post g g') rex⟩
    · simp only [hexec]
      exact ⟨fun w' => rfl, fun x' hsib => State.compareXmm_x hsib q x',
        fun g g' r => State.compareXmm_pre (length_pre_seg pre post g g') rex⟩
  case vex =>
    obtain ⟨w, vl, hexec⟩ := exec_of_mem_vexForms hmk
    simp only [hexec]
    exact ⟨fun w' rm => rfl, fun x' n => rfl, fun g g' n => State.compareVex_pre (length_pre_seg pre post g g') vex⟩
  case evexW =>
    obtain ⟨w, vl, hexec⟩ := exec_of_mem_evexConstructors (List.mem_of_mem_drop (i := 3) hmk)
    simp only [hexec]
    rfl
  case evexPre =>
    obtain ⟨w, vl, hexec⟩ := exec_of_mem_evexConstructors hmk
    simp only [hexec]
    exact State.compareEvex_pre (length_pre_seg pre post g g') e

end Sys2Proof.Machine
end
